-- ==== Sys2Proof/Word.lean ====
section
/-! DEFINITION. The plain types every other file uses: addresses, the two fields, the three pixel actions, a region of an
address space. A word of word memory has `WORD_W` bits, and `WORD_W` is a parameter of the configuration (R7): where a word is
computed it is a `BitVec WORD_W`, where it is stored it is that bit vector's value, a `Nat` (log 2). -/

namespace Sys2Proof

/-- A word address of WM or a byte address of BM: `ADDR_W = 32` bits (R7, D6). Sums of addresses wrap (R16). -/
abbrev Addr := BitVec 32

/-- The value of one word of WM: a number below `2 ^ WORD_W` (log 2). -/
abbrev WordVal := Nat

/-- `FIELD`, the source's `field_parity` (R22). -/
inductive Field where
  | even
  | odd
deriving DecidableEq, Repr

/-- `PIXACT`, the source's `PixelAction` (R28). The code 3 is never held, so it has no constructor (R104(c)). -/
inductive PixAct where
  | set
  | clear
  | flip
deriving DecidableEq, Repr

/-- A run of `size` units of an address space from address `base`. -/
structure Region where
  base : Nat
  size : Nat
deriving DecidableEq, Repr

end Sys2Proof
end

