-- ==== Sys2Proof/Syntax.lean ====
section
/-! DEFINITION. The operations of `spec/opcode_table.json`. The table's 26 rows of format `LINE` are the aligned blocks of eight
ranges (R93): one constructor for each of the eight mnemonics, with the two fields of the line word as operands. The 16 rows of
format `CMD` are one constructor each. -/

namespace Sys2Proof

/-- Every operation the block decodes (R92, R96). -/
inductive Instr where
  -- format LINE (R91): `f` is `FIELD`, `n` is `SCAN_LINE`
  | eqpre (f : Field) (n : BitVec 9)
  | vsync (f : Field) (n : BitVec 9)
  | eqpost (f : Field) (n : BitVec 9)
  | blankpre (f : Field) (n : BitVec 9)
  | actfirst (f : Field) (n : BitVec 9)
  | active (f : Field) (n : BitVec 9)
  | blankpost (f : Field) (n : BitVec 9)
  | closeout (f : Field) (n : BitVec 9)
  -- format CMD (R94): coordinates and counts are the 16-bit fields, `bmp` the 32-bit one
  | width
  | height
  | retrace
  | setact (mode : PixAct)
  | setpixel (x y : BitVec 16)
  | line (x0 y0 x1 y1 : BitVec 16)
  | box (x0 y0 x1 y1 : BitVec 16)
  | bitblit (x0 y0 cols rows : BitVec 16) (bmp : Addr)
  | clear (colour : Bool)
  | evenptr
  | oddptr
  | circle
  | fill
  | text
  | fbinit
  | start
deriving DecidableEq, Repr

end Sys2Proof
end

