-- ==== Sys2Proof/WellFormed.lean ====
section
/-! DEFINITION. Which terms of `Instr` stand for an encoding. A line operation is well formed when its `SCAN_LINE` lies in its
range of R92; the operands of a command are typed by their fields (R94, R95), so every command term is well formed: mode 3
(R104(a)) and a colour above 1 cannot be written. -/

namespace Sys2Proof

/-- `lo ≤ n < hi`: a half-open range of scan lines (R15). -/
def inLines (lo hi : Nat) (n : BitVec 9) : Bool := decide (lo ≤ n.toNat) && decide (n.toNat < hi)

/-- The ranges of R92. -/
def Instr.wf : Instr → Bool
  | .eqpre _ n => inLines 0 3 n
  | .vsync _ n => inLines 3 6 n
  | .eqpost _ n => inLines 6 9 n
  | .blankpre _ n => inLines 9 30 n
  | .actfirst _ n => inLines 30 31 n
  | .active _ n => inLines 31 246 n
  | .blankpost _ n => inLines 246 261 n
  | .closeout _ n => inLines 261 262 n
  | .width | .height | .retrace | .setact _ | .setpixel _ _ | .line _ _ _ _ | .box _ _ _ _ | .bitblit _ _ _ _ _
  | .clear _ | .evenptr | .oddptr | .circle | .fill | .text | .fbinit | .start => true

/-- The operations of format `LINE` (R92). -/
def Instr.isLine : Instr → Bool
  | .eqpre _ _ | .vsync _ _ | .eqpost _ _ | .blankpre _ _ | .actfirst _ _ | .active _ _ | .blankpost _ _ | .closeout _ _ => true
  | .width | .height | .retrace | .setact _ | .setpixel _ _ | .line _ _ _ _ | .box _ _ _ _ | .bitblit _ _ _ _ _
  | .clear _ | .evenptr | .oddptr | .circle | .fill | .text | .fbinit | .start => false

end Sys2Proof
end

