-- ==== Sys2Proof/Decode.lean ====
section
/-! DEFINITION. The two decoders, total on every line word and every command frame, rejecting by name, and then the encoder. The
line decoder is R92; the frame decoder is R94 to R98. Neither reads a byte order: a line word is the cursor's value (R90) and a
frame is four words presented together (R90, R65). -/

namespace Sys2Proof

/-- Why a word is a reserved encoding (R104). -/
inductive Reject where
  /-- `SCAN_LINE` in 262 to 511 (R104(b)) -/
  | reservedLine
  /-- `OP` is 0x00, 0x0F, or 0x12 to 0xFF (R104(a)) -/
  | reservedOp
  /-- a field that R97 does not list as used is not zero (R104(a)) -/
  | mustBeZero
  /-- `SETACT` with `IMM2 = 3` (R104(a)) -/
  | reservedMode
  /-- `CLEAR` with `IMM2[1] = 1` (R104(a)) -/
  | reservedColour
deriving DecidableEq, Repr

/-- A word of one of the two formats (R90). -/
inductive Code where
  | line (lw : BitVec 10)
  | cmd (f : BitVec 128)
deriving DecidableEq, Repr

/-- The fields of a command frame (R94). -/
structure CmdFields where
  op : BitVec 8
  z0 : BitVec 22
  imm2 : BitVec 2
  y0 : BitVec 16
  x0 : BitVec 16
  y1 : BitVec 16
  x1 : BitVec 16
  bmp : BitVec 32
deriving DecidableEq, Repr

/-! ### Numeric codes (R98) -/

/-- `FIELD`: Even 0, Odd 1. -/
def fieldBit : Field → BitVec 1
  | .even => 0
  | .odd => 1

/-- `FIELD` from its bit. -/
def fieldOfBit (b : BitVec 1) : Field := if b = 1#1 then .odd else .even

/-- Pixel action: Set 0, Clear 1, Flip 2. -/
def actCode : PixAct → BitVec 2
  | .set => 0
  | .clear => 1
  | .flip => 2

/-- The pixel action of a code; 3 is reserved. -/
def actOfCode (b : BitVec 2) : Option PixAct :=
  if b = 0#2 then some .set else if b = 1#2 then some .clear else if b = 2#2 then some .flip else none

/-! ### Format LINE -/

/-- `LW = (FIELD, SCAN_LINE)` (R91). -/
def lineWordOf (f : Field) (n : BitVec 9) : BitVec 10 := fieldBit f ++ n

/-- Bit 9 of a line word. -/
def lineField (lw : BitVec 10) : Field := fieldOfBit (lw.extractLsb' 9 1)

/-- Bits 8:0 of a line word. -/
def lineScan (lw : BitVec 10) : BitVec 9 := lw.extractLsb' 0 9

/-- R92: `SCAN_LINE` alone selects, by range. -/
def decodeScan (f : Field) (n : BitVec 9) : Except Reject Instr :=
  if inLines 0 3 n then .ok (.eqpre f n)
  else if inLines 3 6 n then .ok (.vsync f n)
  else if inLines 6 9 n then .ok (.eqpost f n)
  else if inLines 9 30 n then .ok (.blankpre f n)
  else if inLines 30 31 n then .ok (.actfirst f n)
  else if inLines 31 246 n then .ok (.active f n)
  else if inLines 246 261 n then .ok (.blankpost f n)
  else if inLines 261 262 n then .ok (.closeout f n)
  else .error .reservedLine

/-- The decoder of line words. -/
def decodeLine (lw : BitVec 10) : Except Reject Instr := decodeScan (lineField lw) (lineScan lw)

/-! ### Format CMD -/

/-- The fields of `F[127:0]` (R94). -/
def splitFrame (f : BitVec 128) : CmdFields where
  op := f.extractLsb' 120 8
  z0 := f.extractLsb' 98 22
  imm2 := f.extractLsb' 96 2
  y0 := f.extractLsb' 80 16
  x0 := f.extractLsb' 64 16
  y1 := f.extractLsb' 48 16
  x1 := f.extractLsb' 32 16
  bmp := f.extractLsb' 0 32

/-- The frame of the fields (R94), `OP` most significant. -/
def joinFrame (c : CmdFields) : BitVec 128 := c.op ++ c.z0 ++ c.imm2 ++ c.y0 ++ c.x0 ++ c.y1 ++ c.x1 ++ c.bmp

/-- The frame of the four words `W0 W1 W2 W3` as they are written (R94). -/
def frameOfWords (w0 w1 w2 w3 : BitVec 32) : BitVec 128 := w0 ++ w1 ++ w2 ++ w3

/-- `W1 = 0`. -/
def CmdFields.noPoint0 (c : CmdFields) : Bool := decide (c.y0 = 0) && decide (c.x0 = 0)

/-- `W2 = 0`. -/
def CmdFields.noPoint1 (c : CmdFields) : Bool := decide (c.y1 = 0) && decide (c.x1 = 0)

/-- `Z0 = 0` and `IMM2 = 0`. -/
def CmdFields.noImm (c : CmdFields) : Bool := decide (c.z0 = 0) && decide (c.imm2 = 0)

/-- `W1 = W2 = W3 = 0`. -/
def CmdFields.noWords (c : CmdFields) : Bool := c.noPoint0 && c.noPoint1 && decide (c.bmp = 0)

/-- Everything but `OP` is zero. -/
def CmdFields.bare (c : CmdFields) : Bool := c.noImm && c.noWords

/-- The operation, if the must-be-zero fields are zero (R97). -/
def requireZero (ok : Bool) (i : Instr) : Except Reject Instr := if ok then .ok i else .error .mustBeZero

/-- `SETACT`: mode 3 is reserved (R97, R104). -/
def decodeSetact (c : CmdFields) : Except Reject Instr :=
  if decide (c.z0 = 0) && c.noWords then
    match actOfCode c.imm2 with
    | some a => .ok (.setact a)
    | none => .error .reservedMode
  else .error .mustBeZero

/-- `CLEAR`: `IMM2[1]` must be zero, `IMM2[0]` is the colour (R97, R104). -/
def decodeClear (c : CmdFields) : Except Reject Instr :=
  if decide (c.z0 = 0) && c.noWords then
    (if c.imm2.getLsbD 1 then .error .reservedColour else .ok (.clear (c.imm2.getLsbD 0)))
  else .error .mustBeZero

/-- The operation codes of R96 with the used fields of R97. -/
def decodeFields (c : CmdFields) : Except Reject Instr :=
  match c.op.toNat with
  | 0x01 => requireZero c.bare .width
  | 0x02 => requireZero c.bare .height
  | 0x03 => requireZero c.bare .retrace
  | 0x04 => decodeSetact c
  | 0x05 => requireZero (c.noImm && c.noPoint1 && decide (c.bmp = 0)) (.setpixel c.x0 c.y0)
  | 0x06 => requireZero (c.noImm && decide (c.bmp = 0)) (.line c.x0 c.y0 c.x1 c.y1)
  | 0x07 => requireZero (c.noImm && decide (c.bmp = 0)) (.box c.x0 c.y0 c.x1 c.y1)
  | 0x08 => requireZero c.noImm (.bitblit c.x0 c.y0 c.x1 c.y1 c.bmp)
  | 0x09 => decodeClear c
  | 0x0A => requireZero c.bare .evenptr
  | 0x0B => requireZero c.bare .oddptr
  | 0x0C => .ok .circle
  | 0x0D => .ok .fill
  | 0x0E => .ok .text
  | 0x10 => requireZero c.bare .fbinit
  | 0x11 => requireZero c.bare .start
  | _ => .error .reservedOp

/-- The decoder of command frames. -/
def decodeFrame (f : BitVec 128) : Except Reject Instr := decodeFields (splitFrame f)

/-- The decoder of both formats. -/
def decode : Code → Except Reject Instr
  | .line lw => decodeLine lw
  | .cmd f => decodeFrame f

/-- The instruction of a word numbered as `spec/opcode_table.json` numbers it: a row of format `LINE` has 10 bits (R91), a row of
format `CMD` 128 (R94), and no other length exists (R90). -/
def decodeTableWord (nbits w : Nat) : Option Instr :=
  if nbits ≤ 16 then
    (if w < 2 ^ 10 then (decodeLine (BitVec.ofNat 10 w)).toOption else none)
  else
    (if w < 2 ^ 128 then (decodeFrame (BitVec.ofNat 128 w)).toOption else none)

/-! ### The encoder -/

/-- A frame with only `OP` set. -/
def bareFields (op : BitVec 8) : CmdFields :=
  { op := op, z0 := 0, imm2 := 0, y0 := 0, x0 := 0, y1 := 0, x1 := 0, bmp := 0 }

/-- A `CLEAR`'s `IMM2`. -/
def colourCode (colour : Bool) : BitVec 2 := if colour then 1 else 0

/-- The fields of a command (R96, R97); a line operation has none. The ignored bits of `CIRCLE`, `FILL` and `TEXT` are written as
zeros (log 15). -/
def encodeFields : Instr → Option CmdFields
  | .width => some (bareFields 0x01)
  | .height => some (bareFields 0x02)
  | .retrace => some (bareFields 0x03)
  | .setact a => some { bareFields 0x04 with imm2 := actCode a }
  | .setpixel x y => some { bareFields 0x05 with x0 := x, y0 := y }
  | .line x0 y0 x1 y1 => some { bareFields 0x06 with x0 := x0, y0 := y0, x1 := x1, y1 := y1 }
  | .box x0 y0 x1 y1 => some { bareFields 0x07 with x0 := x0, y0 := y0, x1 := x1, y1 := y1 }
  | .bitblit x0 y0 cols rows bmp =>
    some { bareFields 0x08 with x0 := x0, y0 := y0, x1 := cols, y1 := rows, bmp := bmp }
  | .clear colour => some { bareFields 0x09 with imm2 := colourCode colour }
  | .evenptr => some (bareFields 0x0A)
  | .oddptr => some (bareFields 0x0B)
  | .circle => some (bareFields 0x0C)
  | .fill => some (bareFields 0x0D)
  | .text => some (bareFields 0x0E)
  | .fbinit => some (bareFields 0x10)
  | .start => some (bareFields 0x11)
  | .eqpre _ _ | .vsync _ _ | .eqpost _ _ | .blankpre _ _ | .actfirst _ _ | .active _ _ | .blankpost _ _ | .closeout _ _ =>
    none

/-- The line word of a line operation (R91); a command has none. -/
def encodeLine : Instr → Option (BitVec 10)
  | .eqpre f n | .vsync f n | .eqpost f n | .blankpre f n | .actfirst f n | .active f n | .blankpost f n | .closeout f n =>
    some (lineWordOf f n)
  | .width | .height | .retrace | .setact _ | .setpixel _ _ | .line _ _ _ _ | .box _ _ _ _ | .bitblit _ _ _ _ _
  | .clear _ | .evenptr | .oddptr | .circle | .fill | .text | .fbinit | .start => none

/-- The word of an instruction, in its own format. -/
def encode (i : Instr) : Code :=
  match encodeLine i, encodeFields i with
  | some lw, _ => .line lw
  | none, some c => .cmd (joinFrame c)
  | none, none => .cmd 0

/-! ### The tables of R93 and R97 as the spec prints them -/

/-- One row: a mnemonic, and the words with `(w &&& mask) = pattern`. -/
structure TableRow (w : Nat) where
  mnemonic : String
  pattern : BitVec w
  mask : BitVec w
deriving DecidableEq, Repr

/-- Whether the word is the row's. -/
def TableRow.matches {w : Nat} (r : TableRow w) (x : BitVec w) : Bool := decide (x &&& r.mask = r.pattern)

/-- The 26 rows of R93. -/
def lineRows : List (TableRow 10) :=
  [⟨"EQPRE", 0x000, 0x1FE⟩, ⟨"EQPRE", 0x002, 0x1FF⟩, ⟨"VSYNC", 0x003, 0x1FF⟩, ⟨"VSYNC", 0x004, 0x1FE⟩,
   ⟨"EQPOST", 0x006, 0x1FE⟩, ⟨"EQPOST", 0x008, 0x1FF⟩, ⟨"BLANKPRE", 0x009, 0x1FF⟩, ⟨"BLANKPRE", 0x00A, 0x1FE⟩,
   ⟨"BLANKPRE", 0x00C, 0x1FC⟩, ⟨"BLANKPRE", 0x010, 0x1F8⟩, ⟨"BLANKPRE", 0x018, 0x1FC⟩, ⟨"BLANKPRE", 0x01C, 0x1FE⟩,
   ⟨"ACTFIRST", 0x01E, 0x1FF⟩] ++
  [⟨"ACTIVE", 0x01F, 0x1FF⟩, ⟨"ACTIVE", 0x020, 0x1E0⟩, ⟨"ACTIVE", 0x040, 0x1C0⟩, ⟨"ACTIVE", 0x080, 0x1C0⟩,
   ⟨"ACTIVE", 0x0C0, 0x1E0⟩, ⟨"ACTIVE", 0x0E0, 0x1F0⟩, ⟨"ACTIVE", 0x0F0, 0x1FC⟩, ⟨"ACTIVE", 0x0F4, 0x1FE⟩,
   ⟨"BLANKPOST", 0x0F6, 0x1FE⟩, ⟨"BLANKPOST", 0x0F8, 0x1F8⟩, ⟨"BLANKPOST", 0x100, 0x1FC⟩, ⟨"BLANKPOST", 0x104, 0x1FF⟩,
   ⟨"CLOSEOUT", 0x105, 0x1FF⟩]

/-- The 16 rows of R97. `SETACT` has the further condition `IMM2 ≠ 3`. -/
def cmdRows : List (TableRow 128) :=
  [⟨"WIDTH", 0x01000000000000000000000000000000, 0xFFFFFFFFFFFFFFFFFFFFFFFFFFFFFFFF⟩,
   ⟨"HEIGHT", 0x02000000000000000000000000000000, 0xFFFFFFFFFFFFFFFFFFFFFFFFFFFFFFFF⟩,
   ⟨"RETRACE", 0x03000000000000000000000000000000, 0xFFFFFFFFFFFFFFFFFFFFFFFFFFFFFFFF⟩,
   ⟨"SETACT", 0x04000000000000000000000000000000, 0xFFFFFFFCFFFFFFFFFFFFFFFFFFFFFFFF⟩,
   ⟨"SETPIXEL", 0x05000000000000000000000000000000, 0xFFFFFFFF00000000FFFFFFFFFFFFFFFF⟩,
   ⟨"LINE", 0x06000000000000000000000000000000, 0xFFFFFFFF0000000000000000FFFFFFFF⟩,
   ⟨"BOX", 0x07000000000000000000000000000000, 0xFFFFFFFF0000000000000000FFFFFFFF⟩,
   ⟨"BITBLIT", 0x08000000000000000000000000000000, 0xFFFFFFFF000000000000000000000000⟩,
   ⟨"CLEAR", 0x09000000000000000000000000000000, 0xFFFFFFFEFFFFFFFFFFFFFFFFFFFFFFFF⟩,
   ⟨"EVENPTR", 0x0A000000000000000000000000000000, 0xFFFFFFFFFFFFFFFFFFFFFFFFFFFFFFFF⟩,
   ⟨"ODDPTR", 0x0B000000000000000000000000000000, 0xFFFFFFFFFFFFFFFFFFFFFFFFFFFFFFFF⟩,
   ⟨"CIRCLE", 0x0C000000000000000000000000000000, 0xFF000000000000000000000000000000⟩,
   ⟨"FILL", 0x0D000000000000000000000000000000, 0xFF000000000000000000000000000000⟩,
   ⟨"TEXT", 0x0E000000000000000000000000000000, 0xFF000000000000000000000000000000⟩,
   ⟨"FBINIT", 0x10000000000000000000000000000000, 0xFFFFFFFFFFFFFFFFFFFFFFFFFFFFFFFF⟩,
   ⟨"START", 0x11000000000000000000000000000000, 0xFFFFFFFFFFFFFFFFFFFFFFFFFFFFFFFF⟩]

/-- The mnemonic of R92 or R96. -/
def Instr.mnemonic : Instr → String
  | .eqpre _ _ => "EQPRE"
  | .vsync _ _ => "VSYNC"
  | .eqpost _ _ => "EQPOST"
  | .blankpre _ _ => "BLANKPRE"
  | .actfirst _ _ => "ACTFIRST"
  | .active _ _ => "ACTIVE"
  | .blankpost _ _ => "BLANKPOST"
  | .closeout _ _ => "CLOSEOUT"
  | .width => "WIDTH"
  | .height => "HEIGHT"
  | .retrace => "RETRACE"
  | .setact _ => "SETACT"
  | .setpixel _ _ => "SETPIXEL"
  | .line _ _ _ _ => "LINE"
  | .box _ _ _ _ => "BOX"
  | .bitblit _ _ _ _ _ => "BITBLIT"
  | .clear _ => "CLEAR"
  | .evenptr => "EVENPTR"
  | .oddptr => "ODDPTR"
  | .circle => "CIRCLE"
  | .fill => "FILL"
  | .text => "TEXT"
  | .fbinit => "FBINIT"
  | .start => "START"

end Sys2Proof
end

