-- ==== Sys2Proof/Config.lean ====
section
/-! DEFINITION. The open parameters of R7 and the platform's maps, as plain data. The state carries one (log 1), no step changes
it, and a claim about every state is a claim about every configuration. What is computed from them (R7's derived parameters,
R8's well-formedness, the map of R62) is in `Machine/Parameters.lean`. -/

namespace Sys2Proof

/-- The parameters of R7, `RESET_PARITY`, and the platform's part of the two memory maps (R62 to R64). -/
structure Config where
  /-- `WORD_W`, bits of a word -/
  wordW : Nat
  /-- `WORD_SHIFT` -/
  wordShift : Nat
  /-- `X_RES` -/
  xRes : Nat
  /-- `Y_RES` -/
  yRes : Nat
  /-- `LINE_WORDS` -/
  lineWords : Nat
  /-- `HALF_EXT` -/
  halfExt : Nat
  /-- `AVO` -/
  avo : Nat
  /-- `FB_BASE` -/
  fbBase : Addr
  /-- `VSYNC_BASE` -/
  vsyncBase : Addr
  /-- `EQ_BASE` -/
  eqBase : Addr
  /-- `BLANK_BASE` -/
  blankBase : Addr
  /-- `HBLANK_BASE` -/
  hblankBase : Addr
  /-- `RESET_PARITY` -/
  resetParity : Field
  /-- parts of the regions of R62 that the platform leaves unmapped; none on a platform that meets R63 (log 14) -/
  holes : List Region
  /-- the parts of BM the platform maps (R64) -/
  bmMap : List Region
deriving DecidableEq, Repr

/-- `TESTCFG`, the spec's reference configuration (R10). It says nothing of BM: all of BM is mapped here (DESIGN CHOICE, log 7). -/
def Config.testCfg : Config where
  wordW := 32
  wordShift := 5
  xRes := 320
  yRes := 432
  lineWords := 16
  halfExt := 8
  avo := 4
  fbBase := 0x2000
  vsyncBase := 0x1000
  eqBase := 0x1100
  blankBase := 0x1200
  hblankBase := 0x1300
  resetParity := .even
  holes := []
  bmMap := [{ base := 0, size := 2 ^ 32 }]

end Sys2Proof
end

