-- ==== Sys2Proof/Machine/State.lean ====
section
/-! DEFINITION. The machine's state as plain data (`10_state.md`), the schedule that says which agent moves next (log 4), the two
ways a step can stop, and the state after reset (R42). -/

namespace Sys2Proof.Machine

/-- The three kinds of step of the gated pixel write `GPIX` (R181 to R183). -/
inductive PixPhase where
  | entry
  | poll
  | write
deriving DecidableEq, Repr

/-- A point of a line and its error term (R201): exact integers (R17). -/
structure Walk where
  x : Int
  y : Int
  err : Int
deriving DecidableEq, Repr

/-- `CMD_USTATE`: what the command in progress needs to resume (R33). The end points and counts are read again from `CMD_FRAME`. -/
inductive UState where
  /-- presented, no step taken yet -/
  | first
  /-- `SETPIXEL`: the phase -/
  | pixel (ph : PixPhase)
  /-- `LINE`: the point and error term, and the phase of that point's `GPIX` -/
  | line (w : Walk) (ph : PixPhase)
  /-- `BOX`: the edge index, then as `LINE` -/
  | box (edge : Fin 4) (w : Walk) (ph : PixPhase)
  /-- `BITBLIT`: about to read byte `j` of bitmap row `row` -/
  | blitFetch (row j : Nat)
  /-- `BITBLIT`: at column `col` of row `row`, with the byte last read -/
  | blitBit (row col : Nat) (byte : BitVec 8) (ph : PixPhase)
  /-- `CLEAR`: the next word to write -/
  | clear (row word : Nat)
  /-- `FBINIT`, first part (R186): the next word to write -/
  | fbZero (row word : Nat)
  /-- `FBINIT`, second part (R187): the next word to write -/
  | fbPrefix (row word : Nat)
  /-- `FBINIT`, third part (R188) -/
  | fbReady
deriving DecidableEq, Repr

/-- One record of `OUT` (R155): the words already read, in order. -/
structure Record where
  src : Addr
  len : BitVec 32
  words : List WordVal
deriving DecidableEq, Repr

/-- WM: the listed words, address strictly rising, none of them 0, which is what an unlisted word reads as (log 6). -/
abbrev WordMem := List (Nat × WordVal)

/-- BM: the listed bytes in the same form (log 7). -/
abbrev ByteMem := List Host.Cell

/-- The values reset leaves unspecified (R42): any of them may come out, so they are the environment's (log 8). `fb` lists the
framebuffer words that change at an `rst` turn, by address. -/
structure Draws where
  srcPtr : Addr
  xferLen : BitVec 32
  pixact : PixAct
  dmaAddr : Addr
  dmaRemain : BitVec 32
  cmdFrame : BitVec 128
  ustate : UState
  fb : WordMem
deriving DecidableEq, Repr

/-- One entry of the schedule: which agent takes its next step (R11, R12), or a pulse on `rst` (R41). -/
inductive Turn where
  /-- HOST presents this frame (R170) -/
  | host (frame : BitVec 128)
  /-- CMD takes its next step -/
  | cmd
  /-- XFER takes its next step, `BEAT` or `DONE` -/
  | xfer
  /-- SEQ takes its step, `LINESTEP` -/
  | seq
  /-- `rst` is asserted, with the values it leaves where R42 fixes none -/
  | rst (d : Draws)
deriving DecidableEq, Repr

/-- The machine: every register of R20, the two memories of R60, the observations of R13, and two fields of the model's own,
the configuration (log 1) and the schedule (log 4). -/
structure State where
  /-- the open parameters (R7); no step changes them -/
  cfg : Config
  /-- `SCAN_LINE` (R21) -/
  scanLine : BitVec 9
  /-- `FIELD` (R22) -/
  field : Field
  /-- `VRETRACE` (R23) -/
  vretrace : Bool
  /-- `SRC_PTR` (R24) -/
  srcPtr : Addr
  /-- `XFER_LEN` (R25) -/
  xferLen : BitVec 32
  /-- `RUN` (R26) -/
  run : Bool
  /-- `PIXACT` (R28) -/
  pixact : PixAct
  /-- `FB_READY` (R29) -/
  fbReady : Bool
  /-- `DMA_ADDR` (R30) -/
  dmaAddr : Addr
  /-- `DMA_REMAIN` (R30) -/
  dmaRemain : BitVec 32
  /-- `DMA_BUSY` (R31) -/
  dmaBusy : Bool
  /-- `IRQ_PENDING` (R32) -/
  irqPending : Bool
  /-- `CMD_BUSY` (R33) -/
  cmdBusy : Bool
  /-- `CMD_FRAME` (R33) -/
  cmdFrame : BitVec 128
  /-- `CMD_USTATE` (R33) -/
  ustate : UState
  /-- word memory: framebuffer and tables (R34, R36) -/
  wm : WordMem
  /-- bitmap memory (R60, R64) -/
  bm : ByteMem
  /-- `OUT`, oldest record first (R13, R155) -/
  out : List Record
  /-- the response words on `rsp`, oldest first (R13, R99) -/
  rsp : List (BitVec 32)
  /-- the schedule, next turn first -/
  turns : List Turn
deriving DecidableEq, Repr

/-- R14's outcome "stuck": the agent whose turn it is has no enabled step. Every one is safe: the run stops where the hardware's
other agents go on, and a schedule that gives the turn to one of them shows that run (log 5). -/
inductive Fault where
  /-- SEQ's turn with `IRQ_PENDING = 0` (R120, R236); raised by `seqTurn`; safe -/
  | seqNotEnabled
  /-- XFER's turn with `DMA_BUSY = 0` (R154); raised by `xferTurn`; safe -/
  | xferNotEnabled
  /-- a `BEAT` at a word address in no mapped region (R152, T6); raised by `xferTurn`; safe -/
  | xferUnmapped
  /-- CMD's turn with `CMD_BUSY = 0`; raised by `cmdTurn`; safe -/
  | cmdNotEnabled
  /-- HOST's turn with `CMD_BUSY = 1` (R170, T9); raised by `hostTurn`; safe -/
  | hostNotEnabled
  /-- CMD reads or writes an unmapped word of WM (T7); raised by `FBINIT`, `CLEAR` and the pixel write; safe -/
  | cmdUnmappedWord
  /-- CMD reads an unmapped byte of BM (R64, R207, T7); raised by `BITBLIT`; safe -/
  | cmdUnmappedByte
deriving DecidableEq, Repr

/-- R14's outcome "refused": the model gives no meaning. Every one is safe. -/
inductive Refusal where
  /-- an operation without a meaning in this model; raised by `exec` only; safe -/
  | notModelled (mnemonic : String)
  /-- a configuration that breaks R8 (T8); raised by `step`; safe -/
  | configIllFormed
  /-- a command frame that matches no row of R97 (R104(a), T4); raised by HOST's and CMD's turns; safe -/
  | reservedFrame
  /-- a cursor with `SCAN_LINE` in 262 to 511 (R104(b), T5); raised by `LINESTEP`; safe -/
  | reservedLine
  /-- `ARM` with `DMA_BUSY = 1` (R151); raised by `LINESTEP`; safe -/
  | armWhileBusy
  /-- `CMD_USTATE` belongs to another command: reached by no run (log 11); raised by the commands of several steps; safe -/
  | foreignMicroState
deriving DecidableEq, Repr

/-- What a step or a meaning answers. -/
abbrev Result := Host.Outcome State Fault Refusal

/-- The state after reset (R42) for a configuration, the contents of the two memories (tables and bitmaps are parameters, the
framebuffer is unspecified) and the unspecified registers. -/
def State.resetWith (c : Config) (wm : WordMem) (bm : ByteMem) (d : Draws) : State where
  cfg := c
  scanLine := 0
  field := c.resetParity
  vretrace := false
  srcPtr := d.srcPtr
  xferLen := d.xferLen
  run := false
  pixact := d.pixact
  fbReady := false
  dmaAddr := d.dmaAddr
  dmaRemain := d.dmaRemain
  dmaBusy := false
  irqPending := false
  cmdBusy := false
  cmdFrame := d.cmdFrame
  ustate := d.ustate
  wm := wm
  bm := bm
  out := []
  rsp := []
  turns := []

/-- The draws `State.reset` takes: zero, `Set`, and the micro-state before a first step (DESIGN CHOICE, log 8). -/
def Draws.zero : Draws where
  srcPtr := 0
  xferLen := 0
  pixact := .set
  dmaAddr := 0
  dmaRemain := 0
  cmdFrame := 0
  ustate := .first
  fb := []

/-- The machine right after reset (R42) on `TESTCFG` (R10), both memories with nothing listed (logs 1, 6, 7, 8, 9). -/
def State.reset : State := State.resetWith Config.testCfg [] [] Draws.zero

end Sys2Proof.Machine
end

