-- ==== Sys2Proof/Machine/Flags.lean ====
section
/-! DEFINITION. The one flag an operation computes, `VRETRACE` (R23), and the cursor that decides it. -/

namespace Sys2Proof.Machine

/-- `VRETRACE` after `EQPRE`: raised in an odd field, untouched in an even one (R122). -/
def retraceAfterEqpre (f : Field) (v : Bool) : Bool :=
  match f with
  | .odd => true
  | .even => v

/-- `VRETRACE` after `ACTFIRST`, in either field (R126). -/
def retraceAfterActfirst : Bool := false

/-- The other field (R22). -/
def otherField : Field → Field
  | .even => .odd
  | .odd => .even

/-- `SCAN_LINE` after the advance of R121. -/
def nextLine (n : BitVec 9) : BitVec 9 := if n = 261#9 then 0#9 else n + 1#9

/-- `FIELD` after the advance of R121. -/
def nextField (f : Field) (n : BitVec 9) : Field := if n = 261#9 then otherField f else f

end Sys2Proof.Machine
end

