-- ==== Sys2Proof/Machine/Parameters.lean ====
section
/-! DEFINITION. What is computed from the parameters: the derived ones of R7, the framebuffer's addresses (R34, R35), the map of
WM and of BM (R62, R64) and the well-formedness of a configuration (R8). -/

namespace Sys2Proof

/-- Whether the region holds address `a`. -/
def Region.contains (r : Region) (a : Nat) : Bool := decide (r.base ≤ a) && decide (a < r.base + r.size)

/-- Two regions with no address in common. -/
def Region.disjoint (r q : Region) : Bool := decide (r.base + r.size ≤ q.base) || decide (q.base + q.size ≤ r.base)

/-- `HALF_WORDS = LINE_WORDS / 2` (R7). -/
def Config.halfWords (c : Config) : Nat := c.lineWords / 2

/-- `WORD_MASK = WORD_W - 1` (R7). -/
def Config.wordMask (c : Config) : Nat := c.wordW - 1

/-- `XW = ceil (X_RES / WORD_W)`, the words of a row that hold pixels (R7, D5). -/
def Config.xw (c : Config) : Nat := (c.xRes + c.wordW - 1) / c.wordW

/-- `FBW (r, i)`, the word address of word `i` of framebuffer row `r` (R34), modulo `2 ^ ADDR_W` (R16). -/
def Config.fbw (c : Config) (r i : Nat) : Addr := c.fbBase + BitVec.ofNat 32 (r * c.lineWords + i)

/-- `EVEN_PTR`, row 1 (R35). -/
def Config.evenPtr (c : Config) : Addr := c.fbBase + BitVec.ofNat 32 c.lineWords

/-- `ODD_PTR`, row 0 (R35). -/
def Config.oddPtr (c : Config) : Addr := c.fbBase

/-- The vertical-sync table (R62). -/
def Config.vsyncRegion (c : Config) : Region := { base := c.vsyncBase.toNat, size := c.lineWords }

/-- The equalizing table with its extension (R62, R63). -/
def Config.eqRegion (c : Config) : Region := { base := c.eqBase.toNat, size := c.lineWords + c.halfExt }

/-- The blank-line table (R62). -/
def Config.blankRegion (c : Config) : Region := { base := c.blankBase.toNat, size := c.lineWords }

/-- The half-line blank table (R62). -/
def Config.hblankRegion (c : Config) : Region := { base := c.hblankBase.toNat, size := c.halfWords }

/-- The framebuffer (R62). -/
def Config.fbRegion (c : Config) : Region := { base := c.fbBase.toNat, size := c.yRes * c.lineWords }

/-- The read-only regions of R62. -/
def Config.tables (c : Config) : List Region := [c.vsyncRegion, c.eqRegion, c.blankRegion, c.hblankRegion]

/-- The five regions of R62. -/
def Config.regions (c : Config) : List Region := c.fbRegion :: c.tables

/-- Whether word address `a` is mapped: it lies in a region of R62, and the platform has not left it out (R63, log 14). -/
def Config.mapped (c : Config) (a : Addr) : Bool :=
  c.regions.any (·.contains a.toNat) && !c.holes.any (·.contains a.toNat)

/-- Whether the platform maps byte address `b` of BM (R64). -/
def Config.bmMapped (c : Config) (b : Addr) : Bool := c.bmMap.any (·.contains b.toNat)

/-- R8, with R7's "at least 1" for `X_RES`: the configurations the model gives a meaning to. -/
def Config.wf (c : Config) : Bool :=
  -- (a)
  decide (c.wordW = 2 ^ c.wordShift) && decide (8 ≤ c.wordW)
  -- (b)
  && decide (c.lineWords % 2 = 0) && decide (1 ≤ c.halfWords)
  -- (c)
  && decide (c.avo + c.xw ≤ c.lineWords) && decide (1 ≤ c.xRes)
  -- (d)
  && decide (432 ≤ c.yRes)
  -- (e)
  && c.regions.all (fun r => decide (r.base + r.size ≤ 2 ^ 32)) && c.tables.all (fun r => c.fbRegion.disjoint r)
  -- (f)
  && decide (1 ≤ c.halfExt)

/-- A platform that maps all of R62, the equalizing extension included (R63). -/
def Config.platformComplete (c : Config) : Bool := c.holes.isEmpty

end Sys2Proof
end

