-- ==== Sys2Proof/Machine/Operands.lean ====
section
/-! DEFINITION. Operand assembly (R95), the pixel mapping and its bounds (R37, R38), the pixel action (R183), the bitmap's
addresses and bits (R40, R207), the geometry of a line and of a box (R201, R204). -/

namespace Sys2Proof.Machine

/-- `sext_16` (R16, R95). -/
def sext16 (v : BitVec 16) : Int := v.toInt

/-- `zext_16` (R16, R95). -/
def zext16 (v : BitVec 16) : Nat := v.toNat

/-- The word `CLEAR` writes: all ones or all zeros (R185, R98). -/
def colourPattern (c : Config) (colour : Bool) : WordVal := if colour then (BitVec.allOnes c.wordW).toNat else 0

/-- R38's bounds test, on exact integers. -/
def inBounds (c : Config) (x y : Int) : Bool :=
  decide (0 ≤ x) && decide (x < c.xRes) && decide (0 ≤ y) && decide (y < c.yRes)

/-- The word index of column `x` within its row (R37). -/
def wordIndex (c : Config) (x : Nat) : Nat := (x >>> c.wordShift) + c.avo

/-- The bit of column `x` within its word (R37): `x = 0` is the most significant. -/
def bitIndex (c : Config) (x : Nat) : Nat := c.wordW - 1 - (x &&& c.wordMask)

/-- The word address of pixel `(x, y)` (R37). -/
def pixelAddr (c : Config) (x y : Nat) : Addr := c.fbw y (wordIndex c x)

/-- The mask of column `x`: a word with one bit set (R183). -/
def pixelMask (c : Config) (x : Nat) : BitVec c.wordW := 1#c.wordW <<< bitIndex c x

/-- "`Set` ORs the bit in, `Clear` ANDs it out, `Flip` XORs it" (R183), on words of any width. -/
def applyAction {w : Nat} (a : PixAct) (word mask : BitVec w) : BitVec w :=
  match a with
  | .set => word ||| mask
  | .clear => word &&& ~~~mask
  | .flip => word ^^^ mask

/-- The value the write step of R183 leaves in the pixel's word, from the value it finds there. -/
def pixelResult (c : Config) (a : PixAct) (x : Nat) (v : WordVal) : WordVal :=
  (applyAction a (BitVec.ofNat c.wordW v) (pixelMask c x)).toNat

/-- `ceil (cols / 8)`, the bytes of one bitmap row (R40). -/
def blitStride (cols : Nat) : Nat := (cols + 7) / 8

/-- The byte address of byte `j` of bitmap row `row` (R206, R207), modulo `2 ^ ADDR_W` (R16). -/
def blitAddr (bmp : Addr) (cols row j : Nat) : Addr := bmp + BitVec.ofNat 32 (row * blitStride cols + j)

/-- The bitmap's pixel at column `col`, from the byte that holds it: bits are MSB first (R40). -/
def blitPixel (byte : BitVec 8) (col : Nat) : Bool := byte.getLsbD (7 - col % 8)

/-- A directed line segment. -/
structure Seg where
  x0 : Int
  y0 : Int
  x1 : Int
  y1 : Int
deriving DecidableEq, Repr

/-- `dx` of R201. -/
def Seg.dx (g : Seg) : Int := |g.x1 - g.x0|

/-- `dy` of R201, never positive. -/
def Seg.dy (g : Seg) : Int := -|g.y1 - g.y0|

/-- `sx` of R201. -/
def Seg.sx (g : Seg) : Int := if g.x0 < g.x1 then 1 else -1

/-- `sy` of R201. -/
def Seg.sy (g : Seg) : Int := if g.y0 < g.y1 then 1 else -1

/-- The first point of the line, with the first error term (R201). -/
def Seg.begin (g : Seg) : Walk := { x := g.x0, y := g.y0, err := g.dx + g.dy }

/-- The exit test of R201's loop. -/
def Seg.isEnd (g : Seg) (w : Walk) : Bool := decide (w.x = g.x1) && decide (w.y = g.y1)

/-- One turn of R201's loop after the exit test: both tests use the same `e2`. -/
def Seg.advance (g : Seg) (w : Walk) : Walk :=
  let e2 := 2 * w.err
  let ex := if e2 ≥ g.dy then g.dy else 0
  let ey := if e2 ≤ g.dx then g.dx else 0
  { x := if e2 ≥ g.dy then w.x + g.sx else w.x
    y := if e2 ≤ g.dx then w.y + g.sy else w.y
    err := w.err + ex + ey }

/-- The segment of a `LINE`'s operands (R95, R201). -/
def lineSeg (x0 y0 x1 y1 : BitVec 16) : Seg :=
  { x0 := sext16 x0, y0 := sext16 y0, x1 := sext16 x1, y1 := sext16 y1 }

/-- The four edges of a box, in the order and direction of R204. -/
def boxEdge (g : Seg) (e : Fin 4) : Seg :=
  match e with
  | 0 => { x0 := g.x0, y0 := g.y0, x1 := g.x1, y1 := g.y0 }
  | 1 => { x0 := g.x1, y0 := g.y0, x1 := g.x1, y1 := g.y1 }
  | 2 => { x0 := g.x1, y0 := g.y1, x1 := g.x0, y1 := g.y1 }
  | 3 => { x0 := g.x0, y0 := g.y1, x1 := g.x0, y1 := g.y0 }

end Sys2Proof.Machine
end

