-- ==== Sys2Proof/Machine/Ops.lean ====
section
/-! DEFINITION. The operations the meanings share: the two memories, the response, the gated pixel write (R181 to R183), the
engine's registers (R151 to R153) and the handler `LINESTEP` (R120), which is how the one interrupt is taken and acknowledged
(R234, R236, R239, R240). The block raises no exception (R230), so there is no exception entry. -/

namespace Sys2Proof.Machine

/-! ### Memory as a sorted list of cells -/

/-- The value at `a`; an unlisted address reads as `dflt`. -/
def Memory.read {α : Type} (dflt : α) : List (Nat × α) → Nat → α
  | [], _ => dflt
  | (k, v) :: rest, a => if a = k then v else Memory.read dflt rest a

/-- `v` at `a`, every other address as before; the list stays in canonical form. -/
def Memory.write {α : Type} [DecidableEq α] (dflt : α) : List (Nat × α) → Nat → α → List (Nat × α)
  | [], a, v => if v = dflt then [] else [(a, v)]
  | (k, u) :: rest, a, v =>
    if a < k then (if v = dflt then (k, u) :: rest else (a, v) :: (k, u) :: rest)
    else if a = k then (if v = dflt then rest else (a, v) :: rest)
    else (k, u) :: Memory.write dflt rest a v

/-- Whether every address of the list is above `lo`'s, strictly rising. -/
def Memory.rising {α : Type} : List (Nat × α) → Bool
  | [] => true
  | (k, _) :: rest => rest.all (fun c => decide (k < c.1)) && Memory.rising rest

/-- The canonical form: addresses strictly rising and below `2 ^ 32`, no entry equal to what an unlisted address reads as, and
every value `good`. -/
def Memory.canonical {α : Type} [DecidableEq α] (dflt : α) (good : α → Bool) (m : List (Nat × α)) : Bool :=
  Memory.rising m && m.all (fun c => decide (c.1 < 2 ^ 32) && decide (c.2 ≠ dflt) && good c.2)

/-- What an unlisted word of WM reads as (DESIGN CHOICE, log 6). -/
def wmDefault : WordVal := 0

/-- What an unlisted byte of BM reads as (DESIGN CHOICE, log 7). -/
def bmDefault : BitVec 8 := 0

/-- Both memories in canonical form, every word of WM within `WORD_W` bits. -/
def Memory.wf (w : Nat) (wm : WordMem) (bm : ByteMem) : Bool :=
  Memory.canonical wmDefault (fun v => decide (v < 2 ^ w)) wm && Memory.canonical bmDefault (fun _ => true) bm

/-- `MemRead (WM, a)` (R16). -/
def State.readWord (s : State) (a : Addr) : WordVal := Memory.read wmDefault s.wm a.toNat

/-- `MemRead (BM, b)` (R16). -/
def State.readByte (s : State) (b : Addr) : BitVec 8 := Memory.read bmDefault s.bm b.toNat

/-! ### Named updates of the state -/

/-- `MemWrite (WM, a, v)` (R16). -/
def State.storeWord (s : State) (a : Addr) (v : WordVal) : State := { s with wm := Memory.write wmDefault s.wm a.toNat v }

/-- `respond (v)`: the response word goes out and the command port is free (R170). The micro-state goes back to its value before a
first step (log 11). -/
def State.respond (s : State) (v : BitVec 32) : State := { s with rsp := s.rsp ++ [v], cmdBusy := false, ustate := .first }

/-- CMD's place in the command in progress (R33). -/
def State.setMicro (s : State) (u : UState) : State := { s with ustate := u }

/-- HOST presents a frame (R170). -/
def State.present (s : State) (f : BitVec 128) : State := { s with cmdBusy := true, cmdFrame := f, ustate := .first }

/-- `PIXACT <- mode` (R180). -/
def State.setPixact (s : State) (a : PixAct) : State := { s with pixact := a }

/-- `FB_READY <- 1` (R188). -/
def State.markReady (s : State) : State := { s with fbReady := true }

/-- `RUN <- 1` (R189). -/
def State.markRun (s : State) : State := { s with run := true }

/-- `SRC_PTR <- src; XFER_LEN <- len`, what a line operation computes (R122 to R129). -/
def State.setTransfer (s : State) (src : Addr) (len : Nat) : State := { s with srcPtr := src, xferLen := BitVec.ofNat 32 len }

/-- `VRETRACE <- v` (R122, R126). -/
def State.setRetrace (s : State) (v : Bool) : State := { s with vretrace := v }

/-- The cursor advance (R121): the block's only control transfer. -/
def State.advanceCursor (s : State) : State :=
  { s with scanLine := nextLine s.scanLine, field := nextField s.field s.scanLine }

/-- The register writes of `ARM (SRC_PTR, XFER_LEN)` (R151): the engine is loaded, the completion acknowledged, and a record opened. -/
def State.openTransfer (s : State) : State :=
  { s with
    dmaAddr := s.srcPtr
    dmaRemain := s.xferLen
    dmaBusy := true
    irqPending := false
    out := s.out ++ [{ src := s.srcPtr, len := s.xferLen, words := [] }] }

/-- `OUT.last.words.append (w)` (R152). -/
def appendWord : List Record → WordVal → List Record
  | [], _ => []
  | [r], w => [{ r with words := r.words ++ [w] }]
  | r :: q :: rest, w => r :: appendWord (q :: rest) w

/-- The effect of `BEAT` (R152). -/
def State.emitWord (s : State) : State :=
  { s with
    dmaAddr := s.dmaAddr + 1
    dmaRemain := s.dmaRemain - 1
    out := appendWord s.out (s.readWord s.dmaAddr) }

/-- The effect of `DONE` (R153): the completion interrupt is raised. -/
def State.raiseCompletion (s : State) : State := { s with dmaBusy := false, irqPending := true }

/-- The schedule left after a turn. -/
def State.setTurns (s : State) (ts : List Turn) : State := { s with turns := ts }

/-! ### Sequencing -/

/-- The second step on the state the first one answers. -/
def andThen (r : Result) (k : State → Result) : Result :=
  match r with
  | .next s => k s
  | .fault e => .fault e
  | .refused e => .refused e

/-- A drawing command's first step: with `FB_READY = 0` it responds 0 and does nothing else (R171). -/
def ifReady (s : State) (k : State → Result) : Result := if s.fbReady then k s else .next (s.respond 0)

/-- A write of one word by CMD; an unmapped word leaves CMD stuck (T7, log 14). -/
def storeStep (s : State) (a : Addr) (v : WordVal) (k : State → Result) : Result :=
  if s.cfg.mapped a then k (s.storeWord a v) else .fault .cmdUnmappedWord

/-- The write step of the gated pixel write (R183). -/
def gpixWrite (x y : Int) (s : State) (k : State → Result) : Result :=
  let a := pixelAddr s.cfg x.toNat y.toNat
  storeStep s a (pixelResult s.cfg s.pixact x.toNat (s.readWord a)) k

/-- One step of `GPIX (x, y)` (R181 to R183): `at_ ph` is the micro-state of this pixel in phase `ph`, and `k` is what the command
does in the same step once the pixel is finished. -/
def gpixStep (x y : Int) (ph : PixPhase) (at_ : PixPhase → UState) (s : State) (k : State → Result) : Result :=
  match ph with
  | .entry => if inBounds s.cfg x y then .next (s.setMicro (at_ .poll)) else k s
  | .poll => if s.vretrace then .next (s.setMicro (at_ .write)) else .next s
  | .write => gpixWrite x y s k

/-- One step of R201's loop at the point of `w`: a step of its `GPIX`, and when that is finished the exit test and the advance. -/
def walkStep (g : Seg) (w : Walk) (ph : PixPhase) (at_ : Walk → PixPhase → UState) (s : State) (k : State → Result) : Result :=
  gpixStep w.x w.y ph (at_ w) s fun t => if g.isEnd w then k t else .next (t.setMicro (at_ (g.advance w) .entry))

/-- The line word: the current value of the cursor (R90, R91). -/
def State.lineWord (s : State) : BitVec 10 := lineWordOf s.field s.scanLine

/-- `ARM (SRC_PTR, XFER_LEN)`; a state with a transfer in flight is refused (R151). -/
def armTransfer (s : State) : Result := if s.dmaBusy then .refused .armWhileBusy else .next s.openTransfer

/-- The body of `LINESTEP` (R120): select by the cursor before the advance, execute, advance, `ARM`. `op` executes the operation. -/
def lineStepWith (op : Instr → State → Result) (s : State) : Result :=
  match decodeLine s.lineWord with
  | .ok i => andThen (op i s) fun t => armTransfer t.advanceCursor
  | .error _ => .refused .reservedLine

end Sys2Proof.Machine
end

