-- ==== Sys2Proof/Machine/Bulk.lean ====
section
/-! DEFINITION. The two bulk operations on the framebuffer, one word a step and not gated: `CLEAR` (R185) and `FBINIT` (R186 to
R188). -/

namespace Sys2Proof.Machine

/-- The word after word `i` of row `r`, rows and words ascending, when a row's words run from `lo` to `hi - 1`; none after the last. -/
def nextWord (lo hi rows r i : Nat) : Option (Nat × Nat) :=
  if i + 1 < hi then some (r, i + 1) else if r + 1 < rows then some (r + 1, lo) else none

/-- One word of `CLEAR`; the response goes out with the last. -/
def clearStep (colour : Bool) (r i : Nat) (s : State) : Result :=
  storeStep s (s.cfg.fbw r i) (colourPattern s.cfg colour) fun t =>
    match nextWord s.cfg.avo (s.cfg.avo + s.cfg.xw) s.cfg.yRes r i with
    | some (r', i') => .next (t.setMicro (.clear r' i'))
    | none => .next (t.respond 0)

/-- `CLEAR` (R185): the first step tests `FB_READY` (R171), then one step a word. -/
def execClear (colour : Bool) (s : State) : Result :=
  match s.ustate with
  | .first => ifReady s fun t => .next (t.setMicro (.clear 0 t.cfg.avo))
  | .clear r i => clearStep colour r i s
  | .pixel _ | .line _ _ | .box _ _ _ | .blitFetch _ _ | .blitBit _ _ _ _ | .fbZero _ _ | .fbPrefix _ _ | .fbReady =>
    .refused .foreignMicroState

/-- Where `FBINIT` goes after the zero-fill: when `AVO = 0` the second part writes nothing (R187). -/
def afterZeroFill (c : Config) : UState := if 0 < c.avo then .fbPrefix 0 0 else .fbReady

/-- One word of the zero-fill (R186). -/
def fbZeroStep (r i : Nat) (s : State) : Result :=
  storeStep s (s.cfg.fbw r i) 0 fun t =>
    match nextWord 0 s.cfg.lineWords s.cfg.yRes r i with
    | some (r', i') => .next (t.setMicro (.fbZero r' i'))
    | none => .next (t.setMicro (afterZeroFill s.cfg))

/-- The word of the blank-line table that prefix word `i` receives (R187). -/
def blankWordAddr (c : Config) (i : Nat) : Addr := c.blankBase + BitVec.ofNat 32 i

/-- One word of the prefix copy (R187): a read of the blank table and a write, in one step. -/
def fbPrefixStep (r i : Nat) (s : State) : Result :=
  if s.cfg.mapped (blankWordAddr s.cfg i) then
    storeStep s (s.cfg.fbw r i) (s.readWord (blankWordAddr s.cfg i)) fun t =>
      match nextWord 0 s.cfg.avo s.cfg.yRes r i with
      | some (r', i') => .next (t.setMicro (.fbPrefix r' i'))
      | none => .next (t.setMicro .fbReady)
  else .fault .cmdUnmappedWord

/-- `FBINIT` (R186 to R188): a second one is a no-op; the last step sets `FB_READY` and responds. -/
def execFbinit (s : State) : Result :=
  match s.ustate with
  | .first => if s.fbReady then .next (s.respond 0) else .next (s.setMicro (.fbZero 0 0))
  | .fbZero r i => fbZeroStep r i s
  | .fbPrefix r i => fbPrefixStep r i s
  | .fbReady => .next (s.markReady.respond 0)
  | .pixel _ | .line _ _ | .box _ _ _ | .blitFetch _ _ | .blitBit _ _ _ _ | .clear _ _ => .refused .foreignMicroState

end Sys2Proof.Machine
end

