-- ==== Sys2Proof/Machine/LineOps.lean ====
section
/-! DEFINITION. The eight line operations (R122 to R129). `f` and `n` are the fields of the line word that selected the operation:
`FIELD` and `SCAN_LINE` before the advance (R120). What `LINESTEP` does around an operation, the cursor advance and the `ARM`, is
`lineStepWith` (R120). -/

namespace Sys2Proof.Machine

/-- `EQPRE` (R122). -/
def execEqpre (f : Field) (_n : BitVec 9) (s : State) : Result :=
  .next ((s.setTransfer s.cfg.eqBase s.cfg.lineWords).setRetrace (retraceAfterEqpre f s.vretrace))

/-- `VSYNC` (R123). -/
def execVsync (_f : Field) (_n : BitVec 9) (s : State) : Result := .next (s.setTransfer s.cfg.vsyncBase s.cfg.lineWords)

/-- The length of a post-equalizing line (R124): line 8 of an even field is extended. -/
def eqpostLength (c : Config) (f : Field) (n : BitVec 9) : Nat :=
  if n = 8#9 ∧ f = .even then c.lineWords + c.halfExt else c.lineWords

/-- `EQPOST` (R124). -/
def execEqpost (f : Field) (n : BitVec 9) (s : State) : Result := .next (s.setTransfer s.cfg.eqBase (eqpostLength s.cfg f n))

/-- `BLANKPRE` (R125). -/
def execBlankpre (_f : Field) (_n : BitVec 9) (s : State) : Result := .next (s.setTransfer s.cfg.blankBase s.cfg.lineWords)

/-- The accessor of the field: the even field starts at row 1 (R35, R126). -/
def fieldPointer (c : Config) (f : Field) : Addr :=
  match f with
  | .even => c.evenPtr
  | .odd => c.oddPtr

/-- `ACTFIRST` (R126). -/
def execActfirst (f : Field) (_n : BitVec 9) (s : State) : Result :=
  .next ((s.setTransfer (fieldPointer s.cfg f) s.cfg.lineWords).setRetrace retraceAfterActfirst)

/-- `ACTIVE` (R127): two strides on, modulo `2 ^ ADDR_W`. -/
def execActive (_f : Field) (_n : BitVec 9) (s : State) : Result :=
  .next (s.setTransfer (s.srcPtr + BitVec.ofNat 32 (2 * s.cfg.lineWords)) s.cfg.lineWords)

/-- `BLANKPOST` (R128). -/
def execBlankpost (_f : Field) (_n : BitVec 9) (s : State) : Result := .next (s.setTransfer s.cfg.blankBase s.cfg.lineWords)

/-- `CLOSEOUT` (R129): in an even field nothing changes. -/
def execCloseout (f : Field) (_n : BitVec 9) (s : State) : Result :=
  match f with
  | .odd => .next (s.setTransfer s.cfg.hblankBase s.cfg.halfWords)
  | .even => .next s

/-- The line operation of a decoded line word, for the `LINESTEP` body that `START` runs (R189). A line word never decodes to a
command. -/
def execLineOp (i : Instr) (s : State) : Result :=
  match i with
  | .eqpre f n => execEqpre f n s
  | .vsync f n => execVsync f n s
  | .eqpost f n => execEqpost f n s
  | .blankpre f n => execBlankpre f n s
  | .actfirst f n => execActfirst f n s
  | .active f n => execActive f n s
  | .blankpost f n => execBlankpost f n s
  | .closeout f n => execCloseout f n s
  | .width | .height | .retrace | .setact _ | .setpixel _ _ | .line _ _ _ _ | .box _ _ _ _ | .bitblit _ _ _ _ _
  | .clear _ | .evenptr | .oddptr | .circle | .fill | .text | .fbinit | .start => .refused .reservedLine

end Sys2Proof.Machine
end

