-- ==== Sys2Proof/Machine/Pixel.lean ====
section
/-! DEFINITION. `SETPIXEL`, one gated pixel write (R184). -/

namespace Sys2Proof.Machine

/-- A step of `SETPIXEL`'s `GPIX` in a given phase; the response goes out in the step that finishes the pixel. -/
def setpixelStep (x y : BitVec 16) (ph : PixPhase) (s : State) : Result :=
  gpixStep (sext16 x) (sext16 y) ph .pixel s fun t => .next (t.respond 0)

/-- `SETPIXEL` (R184): the `FB_READY` test and the entry are the first step (R171, R181). -/
def execSetpixel (x y : BitVec 16) (s : State) : Result :=
  match s.ustate with
  | .first => ifReady s (setpixelStep x y .entry)
  | .pixel ph => setpixelStep x y ph s
  | .line _ _ | .box _ _ _ | .blitFetch _ _ | .blitBit _ _ _ _ | .clear _ _ | .fbZero _ _ | .fbPrefix _ _ | .fbReady =>
    .refused .foreignMicroState

end Sys2Proof.Machine
end

