-- ==== Sys2Proof/Machine/Query.lean ====
section
/-! DEFINITION. The five queries (R175 to R179) and the pixel action (R180). Each is one step and none tests `FB_READY` (R171).
The response word has 32 bits (R99); a larger value's low 32 bits go out (log 13). -/

namespace Sys2Proof.Machine

/-- `WIDTH` (R175). -/
def execWidth (s : State) : Result := .next (s.respond (BitVec.ofNat 32 s.cfg.xRes))

/-- `HEIGHT` (R176). -/
def execHeight (s : State) : Result := .next (s.respond (BitVec.ofNat 32 s.cfg.yRes))

/-- `RETRACE` (R177): one read of the flag, zero-extended. -/
def execRetrace (s : State) : Result := .next (s.respond (if s.vretrace then 1 else 0))

/-- `EVENPTR` (R178). -/
def execEvenptr (s : State) : Result := .next (s.respond s.cfg.evenPtr)

/-- `ODDPTR` (R179). -/
def execOddptr (s : State) : Result := .next (s.respond s.cfg.oddPtr)

/-- `SETACT` (R180). -/
def execSetact (mode : PixAct) (s : State) : Result := .next ((s.setPixact mode).respond 0)

end Sys2Proof.Machine
end

