-- ==== Sys2Proof/Machine/Raster.lean ====
section
/-! DEFINITION. The compound drawing commands (R200 to R208) and the three empty ones (R210 to R212). A compound command tests
`FB_READY` once, in its first step (R200(a)), and writes every pixel through its own `GPIX` (R200(b)). -/

namespace Sys2Proof.Machine

/-- A step of `LINE` at a point: the response goes out when the last point is finished. -/
def lineWalkStep (g : Seg) (w : Walk) (ph : PixPhase) (s : State) : Result :=
  walkStep g w ph .line s fun t => .next (t.respond 0)

/-- `LINE` (R201). -/
def execLine (x0 y0 x1 y1 : BitVec 16) (s : State) : Result :=
  match s.ustate with
  | .first => ifReady s (lineWalkStep (lineSeg x0 y0 x1 y1) (lineSeg x0 y0 x1 y1).begin .entry)
  | .line w ph => lineWalkStep (lineSeg x0 y0 x1 y1) w ph s
  | .pixel _ | .box _ _ _ | .blitFetch _ _ | .blitBit _ _ _ _ | .clear _ _ | .fbZero _ _ | .fbPrefix _ _ | .fbReady =>
    .refused .foreignMicroState

/-- After the last point of an edge: the first point of the next edge, or the response after the fourth (R204). -/
def boxAfterEdge (g : Seg) (e : Fin 4) (s : State) : Result :=
  if h : e.val + 1 < 4 then
    .next (s.setMicro (.box ⟨e.val + 1, h⟩ (boxEdge g ⟨e.val + 1, h⟩).begin .entry))
  else .next (s.respond 0)

/-- A step of `BOX` at a point of edge `e`. -/
def boxWalkStep (g : Seg) (e : Fin 4) (w : Walk) (ph : PixPhase) (s : State) : Result :=
  walkStep (boxEdge g e) w ph (.box e) s (boxAfterEdge g e)

/-- `BOX` (R204): four lines. -/
def execBox (x0 y0 x1 y1 : BitVec 16) (s : State) : Result :=
  match s.ustate with
  | .first => ifReady s (boxWalkStep (lineSeg x0 y0 x1 y1) 0 (boxEdge (lineSeg x0 y0 x1 y1) 0).begin .entry)
  | .box e w ph => boxWalkStep (lineSeg x0 y0 x1 y1) e w ph s
  | .pixel _ | .line _ _ | .blitFetch _ _ | .blitBit _ _ _ _ | .clear _ _ | .fbZero _ _ | .fbPrefix _ _ | .fbReady =>
    .refused .foreignMicroState

/-- After column `col` of row `row` (R206): the next column of the same byte, the next byte, the next row, or the end. -/
def blitAdvance (cols rows row col : Nat) (byte : BitVec 8) (s : State) : Result :=
  if col + 1 < cols then
    (if (col + 1) % 8 = 0 then .next (s.setMicro (.blitFetch row ((col + 1) / 8)))
     else .next (s.setMicro (.blitBit row (col + 1) byte .entry)))
  else if row + 1 < rows then .next (s.setMicro (.blitFetch (row + 1) 0))
  else .next (s.respond 0)

/-- The read of one bitmap byte (R207); an unmapped byte leaves CMD stuck (R64). -/
def blitFetchStep (bmp : Addr) (cols row j : Nat) (s : State) : Result :=
  if s.cfg.bmMapped (blitAddr bmp cols row j) then
    .next (s.setMicro (.blitBit row (8 * j) (s.readByte (blitAddr bmp cols row j)) .entry))
  else .fault .cmdUnmappedByte

/-- One step at a column: an unset bit is skipped, a set bit is a `GPIX` (R206, R208). -/
def blitBitStep (x0 y0 : Int) (cols rows row col : Nat) (byte : BitVec 8) (ph : PixPhase) (s : State) : Result :=
  if blitPixel byte col then
    gpixStep (x0 + col) (y0 + row) ph (.blitBit row col byte) s (blitAdvance cols rows row col byte)
  else blitAdvance cols rows row col byte s

/-- `BITBLIT` (R206): a descriptor with no columns or no rows is a no-op. -/
def execBitblit (x0 y0 cols rows : BitVec 16) (bmp : Addr) (s : State) : Result :=
  match s.ustate with
  | .first =>
    ifReady s fun t =>
      if zext16 cols = 0 ∨ zext16 rows = 0 then .next (t.respond 0) else .next (t.setMicro (.blitFetch 0 0))
  | .blitFetch row j => blitFetchStep bmp (zext16 cols) row j s
  | .blitBit row col byte ph => blitBitStep (sext16 x0) (sext16 y0) (zext16 cols) (zext16 rows) row col byte ph s
  | .pixel _ | .line _ _ | .box _ _ _ | .clear _ _ | .fbZero _ _ | .fbPrefix _ _ | .fbReady => .refused .foreignMicroState

/-- `CIRCLE` (R210): with or without `FB_READY` it only responds 0 (R171). -/
def execCircle (s : State) : Result := ifReady s fun t => .next (t.respond 0)

/-- `FILL` (R211). -/
def execFill (s : State) : Result := ifReady s fun t => .next (t.respond 0)

/-- `TEXT` (R212). -/
def execText (s : State) : Result := ifReady s fun t => .next (t.respond 0)

end Sys2Proof.Machine
end

