-- ==== Sys2Proof/Machine/Startup.lean ====
section
/-! DEFINITION. `START` (R189): how the first transfer is armed. -/

namespace Sys2Proof.Machine

/-- `START` (R189): a second one is a no-op; the first sets `RUN` and performs the body of `LINESTEP`, in one step. -/
def execStart (s : State) : Result :=
  if s.run then .next (s.respond 0)
  else andThen (lineStepWith execLineOp s.markRun) fun t => .next (t.respond 0)

end Sys2Proof.Machine
end

