-- ==== Sys2Proof/Machine/Dispatch.lean ====
section
/-! DEFINITION. One arm per operation. For a line operation `exec` is the operation inside one `LINESTEP`; for a command it is the
next micro-operation of that command in progress, as `CMD_USTATE` says (R12, R33). -/

namespace Sys2Proof.Machine

def exec (i : Instr) (s : State) : Host.Outcome State Fault Refusal :=
  match i with
  -- format LINE
  | .eqpre f n => Sys2Proof.Machine.execEqpre f n s
  | .vsync f n => Sys2Proof.Machine.execVsync f n s
  | .eqpost f n => Sys2Proof.Machine.execEqpost f n s
  | .blankpre f n => Sys2Proof.Machine.execBlankpre f n s
  | .actfirst f n => Sys2Proof.Machine.execActfirst f n s
  | .active f n => Sys2Proof.Machine.execActive f n s
  | .blankpost f n => Sys2Proof.Machine.execBlankpost f n s
  | .closeout f n => Sys2Proof.Machine.execCloseout f n s
  -- format CMD
  | .width => Sys2Proof.Machine.execWidth s
  | .height => Sys2Proof.Machine.execHeight s
  | .retrace => Sys2Proof.Machine.execRetrace s
  | .setact mode => Sys2Proof.Machine.execSetact mode s
  | .setpixel x y => Sys2Proof.Machine.execSetpixel x y s
  | .line x0 y0 x1 y1 => Sys2Proof.Machine.execLine x0 y0 x1 y1 s
  | .box x0 y0 x1 y1 => Sys2Proof.Machine.execBox x0 y0 x1 y1 s
  | .bitblit x0 y0 cols rows bmp => Sys2Proof.Machine.execBitblit x0 y0 cols rows bmp s
  | .clear colour => Sys2Proof.Machine.execClear colour s
  | .evenptr => Sys2Proof.Machine.execEvenptr s
  | .oddptr => Sys2Proof.Machine.execOddptr s
  | .circle => Sys2Proof.Machine.execCircle s
  | .fill => Sys2Proof.Machine.execFill s
  | .text => Sys2Proof.Machine.execText s
  | .fbinit => Sys2Proof.Machine.execFbinit s
  | .start => Sys2Proof.Machine.execStart s

end Sys2Proof.Machine
end

