-- ==== Sys2Proof/Machine/Turns.lean ====
section
/-! DEFINITION. The steps of the four agents (R12) and the `rst` port (R41). -/

namespace Sys2Proof.Machine

/-- HOST presents a frame when the port is free; a frame that decodes to nothing is refused (R170). -/
def hostTurn (f : BitVec 128) (s : State) : Result :=
  if s.cmdBusy then .fault .hostNotEnabled
  else
    match decodeFrame f with
    | .ok _ => .next (s.present f)
    | .error _ => .refused .reservedFrame

/-- CMD takes the next micro-operation of the command in progress. -/
def cmdTurn (s : State) : Result :=
  if s.cmdBusy then
    match decodeFrame s.cmdFrame with
    | .ok i => exec i s
    | .error _ => .refused .reservedFrame
  else .fault .cmdNotEnabled

/-- XFER takes `BEAT` (R152) or `DONE` (R153); idle, it has no step (R154). -/
def xferTurn (s : State) : Result :=
  if s.dmaBusy then
    (if s.dmaRemain = 0 then .next s.raiseCompletion
     else if s.cfg.mapped s.dmaAddr then .next s.emitWord
     else .fault .xferUnmapped)
  else .fault .xferNotEnabled

/-- SEQ takes `LINESTEP` when the completion is pending (R120, R236). -/
def seqTurn (s : State) : Result := if s.irqPending then lineStepWith exec s else .fault .seqNotEnabled

/-- WM after `rst`: the tables as they were, and in the framebuffer any words at all (R42). -/
def redrawFramebuffer (c : Config) (wm fb : WordMem) : WordMem :=
  fb.foldl (fun m e => if c.fbRegion.contains e.1 then Memory.write wmDefault m e.1 (e.2 % 2 ^ c.wordW) else m) wm

/-- `rst` puts every register at its R42 value (R41, R260); the schedule stays (log 9). -/
def rstTurn (d : Draws) (s : State) : Result :=
  .next ((State.resetWith s.cfg (redrawFramebuffer s.cfg s.wm d.fb) s.bm d).setTurns s.turns)

/-- The step of the agent whose turn it is. -/
def takeTurn (t : Turn) (s : State) : Result :=
  match t with
  | .host f => hostTurn f s
  | .cmd => cmdTurn s
  | .xfer => xferTurn s
  | .seq => seqTurn s
  | .rst d => rstTurn d s

/-- The next entry of the schedule; when there is none no agent moves (log 4). -/
def runSchedule (s : State) : Result :=
  match s.turns with
  | [] => .next s
  | t :: ts => takeTurn t (s.setTurns ts)

/-- `s` with the line word `lw` as the cursor and its completion pending, so that SEQ's turn runs it. -/
def placeLine (s : State) (lw : BitVec 10) : State :=
  { s with
    field := lineField lw
    scanLine := lineScan lw
    dmaBusy := false
    irqPending := true
    turns := .seq :: s.turns }

/-- `s` with the frame `f` presented and CMD's turn next. -/
def placeFrame (s : State) (f : BitVec 128) : State := (s.present f).setTurns (.cmd :: s.turns)

end Sys2Proof.Machine
end

