-- ==== Sys2Proof/Machine/Step.lean ====
section
/-! DEFINITION. One step of the machine, and the placing of one instruction where the next step runs it. -/

namespace Sys2Proof.Machine

/-- One step: an ill-formed configuration is refused (R8); otherwise the next entry of the schedule. -/
def step (s : State) : Host.Outcome State Fault Refusal :=
  if s.cfg.wf then runSchedule s else .refused .configIllFormed

/-- `s` with the instruction of `w` (numbered as `spec/opcode_table.json` numbers it) where `step` takes its next one: a line word
is the cursor (R90), a command frame is `CMD_FRAME` (R33) (log 16). -/
def State.withFetchWord (s : State) (nbits w : Nat) : State :=
  if nbits ≤ 16 then placeLine s (BitVec.ofNat 10 w) else placeFrame s (BitVec.ofNat 128 w)

end Sys2Proof.Machine
end

