-- ==== Sys2Proof/Safety.lean ====
section
/-! DEFINITION. The terms claims are stated in: running a schedule, which agents can move, the invariants of R131, R132, R155,
R187 and R238, the pure table of R130, and what the drawing commands leave in the framebuffer. -/

namespace Sys2Proof.Machine

/-! ### Runs -/

/-- `k` steps. -/
def runFor : Nat → State → Result
  | 0, s => .next s
  | k + 1, s => andThen (step s) (runFor k)

/-- The run in which the agents move in the order `ts`. A run of the block is such a run for some `ts` (R12, R70). -/
def runTurns (ts : List Turn) (s : State) : Result := runFor ts.length (s.setTurns ts)

/-- One scan line with no CMD step in between (`runline` of `95_test_vectors.md`): the words left in the transfer, its completion,
and the handler. -/
def lineTurns (s : State) : List Turn := List.replicate (s.dmaRemain.toNat + 1) .xfer ++ [.seq]

/-- `k` scan lines one after the other. -/
def runLines : Nat → State → Result
  | 0, s => .next s
  | k + 1, s => andThen (runTurns (lineTurns s) s) (runLines k)

/-! ### Which agents can move (R12, R154, R236, R247) -/

/-- XFER has an enabled step. -/
def xferEnabled (s : State) : Bool := s.dmaBusy && (decide (s.dmaRemain = 0) || s.cfg.mapped s.dmaAddr)

/-- SEQ has an enabled step. -/
def seqEnabled (s : State) : Bool := s.irqPending

/-- An endless run: state `k` takes the turn `σ k` and answers state `k + 1`. Any order of enabled agents is such a run (R12, T11). -/
def EndlessRun (σ : Nat → Turn) (ρ : Nat → State) : Prop := ∀ k, step ((ρ k).setTurns [σ k]) = .next (ρ (k + 1))

/-- Weak fairness, all the spec assumes of the pace of the agents (R159, R236, T11): a `BEAT` or `DONE` that stays enabled is eventually
taken, and so is a `LINESTEP`. CMD and HOST have no such claim on a turn (R280). -/
structure WeaklyFair (σ : Nat → Turn) (ρ : Nat → State) : Prop where
  xfer : ∀ k, (∀ j, k ≤ j → xferEnabled (ρ j) = true) → ∃ j, k ≤ j ∧ σ j = .xfer
  seq : ∀ k, (∀ j, k ≤ j → seqEnabled (ρ j) = true) → ∃ j, k ≤ j ∧ σ j = .seq

/-- The phase of the gated pixel write in progress. -/
def UState.phase : UState → Option PixPhase
  | .pixel ph => some ph
  | .line _ ph => some ph
  | .box _ _ ph => some ph
  | .blitBit _ _ _ ph => some ph
  | .first | .blitFetch _ _ | .clear _ _ | .fbZero _ _ | .fbPrefix _ _ | .fbReady => none

/-- The same place in the command, in another phase of its pixel write. -/
def UState.withPhase (u : UState) (ph : PixPhase) : UState :=
  match u with
  | .pixel _ => .pixel ph
  | .line w _ => .line w ph
  | .box e w _ => .box e w ph
  | .blitBit row col byte _ => .blitBit row col byte ph
  | .first | .blitFetch _ _ | .clear _ _ | .fbZero _ _ | .fbPrefix _ _ | .fbReady => u

/-- R247's hang: CMD polls, the flag is down, and neither XFER nor SEQ can move. It is not a final state. -/
def hung (s : State) : Bool :=
  s.cmdBusy && decide (s.ustate.phase = some .poll) && !s.vretrace && !xferEnabled s && !seqEnabled s

/-- A drawing command waits at the gate of a sequencer that was never started (R271). -/
def hungBeforeStart (s : State) : Bool := hung s && !s.run && !s.dmaBusy

/-! ### The cursor and the table (R121, R130, R131) -/

/-- The cursor advance of R121 on its own. -/
def advance (p : Field × BitVec 9) : Field × BitVec 9 := (nextField p.1 p.2, nextLine p.2)

/-- The cursor before the `k`-th `LINESTEP`, counting from 0 at `START` (V3). -/
def cursorAt (c : Config) (k : Nat) : Field × Nat :=
  (if k / 262 % 2 = 0 then c.resetParity else otherField c.resetParity, k % 262)

/-- The row of the framebuffer that scan line `n` of an active phase transfers (R127, R131). -/
def fieldRow (f : Field) (n : Nat) : Nat :=
  match f with
  | .even => 2 * (n - 30) + 1
  | .odd => 2 * (n - 30)

/-- R131: the source armed at cursor `(f, n)`. -/
def armedSrc (c : Config) (f : Field) (n : Nat) : Addr :=
  if n < 3 then c.eqBase
  else if n < 6 then c.vsyncBase
  else if n < 9 then c.eqBase
  else if n < 30 then c.blankBase
  else if n < 246 then c.fbw (fieldRow f n) 0
  else if n < 261 then c.blankBase
  else if f = .odd then c.hblankBase
  else c.blankBase

/-- R131: the length armed at cursor `(f, n)`. -/
def armedLen (c : Config) (f : Field) (n : Nat) : Nat :=
  if f = .even ∧ n = 8 then c.lineWords + c.halfExt
  else if f = .odd ∧ n = 261 then c.halfWords
  else c.lineWords

/-- R130's first component. -/
inductive BufferKind where
  | equalizing
  | vsync
  | blank
  | halfBlank
  | row (k : Nat)
  | unchanged
deriving DecidableEq, Repr

/-- R130's second component. -/
inductive TransferLength where
  | full
  | fullPlusExt
  | half
  | unchanged
deriving DecidableEq, Repr

/-- R130's third component. -/
inductive NextRetrace where
  | raise
  | lower
  | keep
deriving DecidableEq, Repr

/-- The pure function of R130, as its table lists it. -/
def linePlan (f : Field) (n : Nat) : BufferKind × TransferLength × NextRetrace :=
  if n < 3 then (.equalizing, .full, match f with | .even => .keep | .odd => .raise)
  else if n < 6 then (.vsync, .full, .keep)
  else if n < 9 then (.equalizing, if n = 8 ∧ f = .even then .fullPlusExt else .full, .keep)
  else if n < 30 then (.blank, .full, .keep)
  else if n = 30 then (.row (fieldRow f 30), .full, .lower)
  else if n < 246 then (.row (fieldRow f n), .full, .keep)
  else if n < 261 then (.blank, .full, .keep)
  else match f with | .even => (.unchanged, .unchanged, .keep) | .odd => (.halfBlank, .half, .keep)

/-- The address of a buffer kind; `prev` is `SRC_PTR` before. -/
def BufferKind.addr (c : Config) (prev : Addr) : BufferKind → Addr
  | .equalizing => c.eqBase
  | .vsync => c.vsyncBase
  | .blank => c.blankBase
  | .halfBlank => c.hblankBase
  | .row k => c.fbw k 0
  | .unchanged => prev

/-- The length of a transfer kind; `prev` is `XFER_LEN` before. -/
def TransferLength.words (c : Config) (prev : BitVec 32) : TransferLength → BitVec 32
  | .full => BitVec.ofNat 32 c.lineWords
  | .fullPlusExt => BitVec.ofNat 32 (c.lineWords + c.halfExt)
  | .half => BitVec.ofNat 32 c.halfWords
  | .unchanged => prev

/-- The flag after; `prev` is `VRETRACE` before. -/
def NextRetrace.flag (prev : Bool) : NextRetrace → Bool
  | .raise => true
  | .lower => false
  | .keep => prev

/-! ### Invariants -/

/-- R132: the cursors at which `VRETRACE` is 1. -/
def retraceWindow (f : Field) (n : Nat) : Bool := decide (f = .odd) && decide (1 ≤ n) && decide (n ≤ 30)

/-- R132 with the bound of R21. -/
def RetraceInv (s : State) : Prop := s.scanLine.toNat < 262 ∧ s.vretrace = retraceWindow s.field s.scanLine.toNat

/-- R237, R238: before `START` the engine is idle and nothing is pending; afterwards either a transfer is in flight or its completion
is pending, never both. -/
def EngineInv (s : State) : Prop :=
  (s.run = false → s.dmaBusy = false ∧ s.irqPending = false) ∧ (s.run = true → s.dmaBusy = !s.irqPending)

/-- R155 and R131: the cursor and every record's source and length are a function of the number of records. -/
def SignalInv (s : State) : Prop :=
  (s.field, s.scanLine.toNat) = cursorAt s.cfg s.out.length ∧
  (∀ k r, s.out[k]? = some r →
    r.src = armedSrc s.cfg (cursorAt s.cfg k).1 (cursorAt s.cfg k).2 ∧
    r.len = BitVec.ofNat 32 (armedLen s.cfg (cursorAt s.cfg k).1 (cursorAt s.cfg k).2)) ∧
  (s.run = false → s.out = []) ∧
  (s.run = true → ∃ r, s.out.getLast? = some r ∧ r.src = s.srcPtr ∧ r.len = s.xferLen)

/-- A record with all its words (R155). -/
def Record.complete (r : Record) : Prop := r.words.length = r.len.toNat

/-- R151 to R155: every record but the one in flight is complete, and the one in flight has as many words as the engine has left
`SRC_PTR` behind. -/
def RecordsInv (s : State) : Prop :=
  (∀ r ∈ s.out.dropLast, r.complete) ∧
  (s.dmaBusy = false → ∀ r ∈ s.out, r.complete) ∧
  (s.dmaBusy = true → ∃ r, s.out.getLast? = some r ∧
    r.words.length + s.dmaRemain.toNat = r.len.toNat ∧ s.dmaAddr = r.src + BitVec.ofNat 32 r.words.length)

/-- Both memories in canonical form. -/
def MemoryInv (s : State) : Prop := Memory.wf s.cfg.wordW s.wm s.bm = true

/-- The micro-states of each command, with every index in its range (R33). -/
def microOk (c : Config) (i : Instr) (u : UState) : Bool :=
  match u with
  | .first => true
  | .pixel ph =>
    match i with
    | .setpixel x y => decide (ph = .entry) || inBounds c (sext16 x) (sext16 y)
    | _ => false
  | .line w ph =>
    match i with
    | .line _ _ _ _ => decide (ph = .entry) || inBounds c w.x w.y
    | _ => false
  | .box _ w ph =>
    match i with
    | .box _ _ _ _ => decide (ph = .entry) || inBounds c w.x w.y
    | _ => false
  | .blitFetch row j =>
    match i with
    | .bitblit _ _ cols rows _ => decide (row < zext16 rows) && decide (8 * j < zext16 cols)
    | _ => false
  | .blitBit row col byte ph =>
    match i with
    | .bitblit x0 y0 cols rows _ =>
      decide (row < zext16 rows) && decide (col < zext16 cols) &&
        (decide (ph = .entry) || (blitPixel byte col && inBounds c (sext16 x0 + col) (sext16 y0 + row)))
    | _ => false
  | .clear r j =>
    match i with
    | .clear _ => decide (r < c.yRes) && decide (c.avo ≤ j) && decide (j < c.avo + c.xw)
    | _ => false
  | .fbZero r j =>
    match i with
    | .fbinit => decide (r < c.yRes) && decide (j < c.lineWords)
    | _ => false
  | .fbPrefix r j =>
    match i with
    | .fbinit => decide (r < c.yRes) && decide (j < c.avo)
    | _ => false
  | .fbReady =>
    match i with
    | .fbinit => true
    | _ => false

/-- What the command in progress can be: its frame decodes, its micro-state is its own, a drawing command past its first step has
`FB_READY = 1`, and `FBINIT` past its first step has `FB_READY = 0` (R33, R170, R171, R188). -/
def CommandInv (s : State) : Prop :=
  s.cmdBusy = true → ∃ i, decodeFrame s.cmdFrame = .ok i ∧ i.isLine = false ∧ microOk s.cfg i s.ustate = true ∧
    (s.ustate ≠ .first → s.fbReady = !decide (i = .fbinit))

/-- Word `i` of row `r` holds word `i` of the blank-line table (R187). -/
def prefixSeeded (s : State) (r i : Nat) : Prop := s.readWord (s.cfg.fbw r i) = s.readWord (blankWordAddr s.cfg i)

/-- R187, R188, R266: once `FB_READY` is 1 every prefix word is seeded; while `FBINIT` copies, the words before its place are. -/
def PrefixInv (s : State) : Prop :=
  (s.fbReady = true → ∀ r i, r < s.cfg.yRes → i < s.cfg.avo → prefixSeeded s r i) ∧
  (s.cmdBusy = true → s.fbReady = false → s.ustate = .fbReady →
    ∀ r i, r < s.cfg.yRes → i < s.cfg.avo → prefixSeeded s r i) ∧
  (∀ r j, s.cmdBusy = true → s.fbReady = false → s.ustate = .fbPrefix r j →
    ∀ r' i, r' < s.cfg.yRes → i < s.cfg.avo → (r' < r ∨ (r' = r ∧ i < j)) → prefixSeeded s r' i)

/-! ### Where a command's next step stores -/

/-- The word of WM the next step of the command stores to, if it stores (R183, R185 to R187): the expressions are the meanings' own. -/
def storeTarget (c : Config) (i : Instr) (u : UState) : Option Addr :=
  match i, u with
  | .setpixel x y, .pixel .write => some (pixelAddr c (sext16 x).toNat (sext16 y).toNat)
  | .line _ _ _ _, .line w .write => some (pixelAddr c w.x.toNat w.y.toNat)
  | .box _ _ _ _, .box _ w .write => some (pixelAddr c w.x.toNat w.y.toNat)
  | .bitblit x0 y0 _ _ _, .blitBit row col byte .write =>
    if blitPixel byte col then some (pixelAddr c (sext16 x0 + col).toNat (sext16 y0 + row).toNat) else none
  | .clear _, .clear r j => some (c.fbw r j)
  | .fbinit, .fbZero r j => some (c.fbw r j)
  | .fbinit, .fbPrefix r j => some (c.fbw r j)
  | _, _ => none

/-- The pixel of the gated pixel write in progress (R184, R201, R204, R206). -/
def pixelPoint (i : Instr) (u : UState) : Option (Int × Int) :=
  match i, u with
  | .setpixel x y, .pixel _ => some (sext16 x, sext16 y)
  | .line _ _ _ _, .line w _ => some (w.x, w.y)
  | .box _ _ _ _, .box _ w _ => some (w.x, w.y)
  | .bitblit x0 y0 _ _ _, .blitBit row col _ _ => some (sext16 x0 + col, sext16 y0 + row)
  | _, _ => none

/-- Whether the place in the command has a pixel to write: an unset bit of a bitmap has none (R206, R208(a)). -/
def UState.wanted : UState → Bool
  | .blitBit _ col byte _ => blitPixel byte col
  | .first | .pixel _ | .line _ _ | .box _ _ _ | .blitFetch _ _ | .clear _ _ | .fbZero _ _ | .fbPrefix _ _ | .fbReady => true

/-- Where a line goes after the point of `w`: to its next point, or out of its loop (R201). -/
def Seg.after (g : Seg) (w : Walk) : Option Walk := if g.isEnd w then none else some (g.advance w)

/-- Where a drawing command goes when it has finished, dropped or skipped the pixel at its place, in the order of R201, R204 and
R208(d); none when that was its last. -/
def nextPlace (i : Instr) (u : UState) : Option UState :=
  match i, u with
  | .line x0 y0 x1 y1, .line w _ => ((lineSeg x0 y0 x1 y1).after w).map fun w' => .line w' .entry
  | .box x0 y0 x1 y1, .box e w _ =>
    match (boxEdge (lineSeg x0 y0 x1 y1) e).after w with
    | some w' => some (.box e w' .entry)
    | none => if e = 3 then none else some (.box (e + 1) (boxEdge (lineSeg x0 y0 x1 y1) (e + 1)).begin .entry)
  | .bitblit _ _ cols rows _, .blitBit row col byte _ =>
    if col + 1 < cols.toNat then
      some (if (col + 1) % 8 = 0 then .blitFetch row ((col + 1) / 8) else .blitBit row (col + 1) byte .entry)
    else if row + 1 < rows.toNat then some (.blitFetch (row + 1) 0)
    else none
  | _, _ => none

/-- Going on to a place of the command, or responding 0 after the last (logs 10, 11). -/
def State.moveOn (s : State) : Option UState → State
  | some u => s.setMicro u
  | none => s.respond 0

/-- The Rasterizer entry points, which test `FB_READY` in their first step (R171). -/
def isDrawing : Instr → Bool
  | .setpixel _ _ | .line _ _ _ _ | .box _ _ _ _ | .bitblit _ _ _ _ _ | .clear _ | .circle | .fill | .text => true
  | .eqpre _ _ | .vsync _ _ | .eqpost _ _ | .blankpre _ _ | .actfirst _ _ | .active _ _ | .blankpost _ _ | .closeout _ _
  | .width | .height | .retrace | .setact _ | .evenptr | .oddptr | .fbinit | .start => false

/-! ### What the drawing commands leave in the framebuffer -/

/-- Whether pixel `(x, y)` is lit (R37). -/
def pixelLit (c : Config) (wm : WordMem) (x y : Nat) : Bool :=
  (Memory.read wmDefault wm (pixelAddr c x y).toNat).testBit (bitIndex c x)

/-- "the action mode determines how a set bit affects the framebuffer" (R183, R206), on one pixel. -/
def actOnPixel (a : PixAct) (lit : Bool) : Bool :=
  match a with
  | .set => true
  | .clear => false
  | .flip => !lit

/-- The word memory after the write step of one gated pixel write at point `p`; a point out of range is dropped (R181, R183). -/
def plot (c : Config) (a : PixAct) (wm : WordMem) (p : Int × Int) : WordMem :=
  if inBounds c p.1 p.2 then
    Memory.write wmDefault wm (pixelAddr c p.1.toNat p.2.toNat).toNat
      (pixelResult c a p.1.toNat (Memory.read wmDefault wm (pixelAddr c p.1.toNat p.2.toNat).toNat))
  else wm

/-- The word memory after the gated pixel writes of the points, in order. -/
def plotAll (c : Config) (a : PixAct) (wm : WordMem) (ps : List (Int × Int)) : WordMem := ps.foldl (plot c a) wm

/-- `max (|x1 - x0|, |y1 - y0|)` (R202). -/
def Seg.span (g : Seg) : Nat := max (g.x1 - g.x0).natAbs (g.y1 - g.y0).natAbs

/-- The points `LINE` visits, in order (R201, R202). -/
def Seg.points (g : Seg) : List (Int × Int) :=
  (List.range (g.span + 1)).map fun k => ((g.advance^[k] g.begin).x, (g.advance^[k] g.begin).y)

/-- The points `BOX` visits, in order (R204). -/
def boxPoints (g : Seg) : List (Int × Int) :=
  (boxEdge g 0).points ++ (boxEdge g 1).points ++ (boxEdge g 2).points ++ (boxEdge g 3).points

/-- Whether bit `col` of bitmap row `row` is set (R40). -/
def bitmapLit (bm : ByteMem) (bmp : Addr) (cols row col : Nat) : Bool :=
  blitPixel (Memory.read bmDefault bm (blitAddr bmp cols row (col / 8)).toNat) col

/-- The points `BITBLIT` visits, in order: the set bits, rows top to bottom, columns left to right (R206, R208(d)). -/
def blitPoints (bm : ByteMem) (x0 y0 : Int) (cols rows : Nat) (bmp : Addr) : List (Int × Int) :=
  (List.range rows).flatMap fun row =>
    ((List.range cols).filter (bitmapLit bm bmp cols row)).map fun (col : Nat) => (x0 + (col : Int), y0 + (row : Int))

/-- CMD turns that a point costs while `VRETRACE = 1`: the entry alone when it is out of range (R203), else entry, poll and write. -/
def pointCost (c : Config) (p : Int × Int) : Nat := if inBounds c p.1 p.2 then 3 else 1

/-- The state a drawing command leaves when it has run to its end: the framebuffer, the response 0, and a free command port. -/
def drawn (s : State) (wm : WordMem) : State := { ((s.respond 0).setTurns []) with wm := wm }

end Sys2Proof.Machine
end

