-- ==== Sys2Proof/Certificates/Slice0/Obligations.lean ====
section
/-! DEFINITION. The statements for the provers. Every statement ranges over all configurations (the state carries one), all memory
contents and all schedules. `ustate := u` with `u` bound by `∃` leaves the micro-state open where the spec leaves it open (R33). -/

open Sys2Proof Sys2Proof.Machine

/-! ### Encodings -/

/-- Decoding what the encoder writes gives the instruction back, for every well-formed instruction (R91, R94 to R97). -/
def Obligations.DecodeOfEncodeIsTheInstruction : Prop := ∀ i : Instr, i.wf = true → decode (encode i) = .ok i

/-- R97: a frame decodes to a command exactly when `(F & mask) == match` for its row, and for `SETACT` additionally `IMM2 != 3`. -/
def Obligations.FrameDecodesByItsTableRow : Prop :=
  ∀ (f : BitVec 128) (m : String),
    (∃ i, decodeFrame f = .ok i ∧ i.mnemonic = m) ↔
      (∃ r ∈ cmdRows, r.mnemonic = m ∧ r.matches f = true) ∧ (m = "SETACT" → (splitFrame f).imm2 ≠ 3)

/-- R93: a line word decodes to an operation exactly when it matches one of that operation's rows. -/
def Obligations.LineWordDecodesByItsTableRow : Prop :=
  ∀ (lw : BitVec 10) (m : String),
    (∃ i, decodeLine lw = .ok i ∧ i.mnemonic = m) ↔ ∃ r ∈ lineRows, r.mnemonic = m ∧ r.matches lw = true

/-- R104: a frame that matches no row of R97, `SETACT` with `IMM2 = 3`, and a cursor of 262 or more are refused when they are
presented, resumed or reached (the spec's decision D27). -/
def Obligations.ReservedEncodingsAreRefused : Prop :=
  ∀ (s : State) (ts : List Turn), s.cfg.wf = true →
    (∀ f, s.turns = .host f :: ts → s.cmdBusy = false →
      ((∀ r ∈ cmdRows, r.matches f = false) ∨ ((splitFrame f).op = 0x04 ∧ (splitFrame f).imm2 = 3)) →
      step s = .refused .reservedFrame) ∧
    (s.turns = .cmd :: ts → s.cmdBusy = true →
      ((∀ r ∈ cmdRows, r.matches s.cmdFrame = false) ∨
        ((splitFrame s.cmdFrame).op = 0x04 ∧ (splitFrame s.cmdFrame).imm2 = 3)) →
      step s = .refused .reservedFrame) ∧
    (s.turns = .seq :: ts → s.irqPending = true → 262 ≤ s.scanLine.toNat → step s = .refused .reservedLine)

/-- Words of V5, V8, V12, V19, V20, V24, V25, V28, V29 and V30 decode to the operations those vectors name, one at least of every
family (the frames' encoding is the spec's decision D9). -/
def Obligations.VectorWordsDecode : Prop :=
  decodeLine 0x208 = .ok (.eqpost .odd 8) ∧ decodeLine 0x0F5 = .ok (.active .even 245) ∧
  decodeLine 0x305 = .ok (.closeout .odd 261) ∧ decodeLine 0x106 = .error .reservedLine ∧
  decodeFrame (frameOfWords 0x04000002 0 0 0) = .ok (.setact .flip) ∧
  decodeFrame (frameOfWords 0x05000000 0x01AF013F 0 0) = .ok (.setpixel 319 431) ∧
  decodeFrame (frameOfWords 0x06000000 0xFFFFFFFE 0x00010002 0) = .ok (.line (-2) (-1) 2 1) ∧
  decodeFrame (frameOfWords 0x08000000 0x00000000 0x00010008 0x00000100) = .ok (.bitblit 0 0 8 1 0x100) ∧
  decodeFrame (frameOfWords 0x08000000 0x0001001E 0x0002000B 0x200) = .ok (.bitblit 30 1 11 2 0x200) ∧
  decodeFrame (frameOfWords 0x0C123456 0x789ABCDE 0xF0123456 0x789ABCDE) = .ok .circle ∧
  decodeFrame (frameOfWords 0x09000001 0 0 0) = .ok (.clear true) ∧
  decodeFrame (frameOfWords 0x11000000 0 0 0) = .ok .start ∧ decodeFrame (frameOfWords 0x01000000 1 0 0) = .error .mustBeZero

/-! ### Line operations -/

/-- R122. -/
def Obligations.EqpreArmsEqualizingTable : Prop :=
  ∀ (f : Field) (n : BitVec 9) (s : State),
    (n.toNat < 3 → decodeLine (lineWordOf f n) = .ok (.eqpre f n)) ∧
    exec (.eqpre f n) s = .next
      { s with
        srcPtr := s.cfg.eqBase
        xferLen := BitVec.ofNat 32 s.cfg.lineWords
        vretrace := if f = .odd then true else s.vretrace }

/-- R123, R125, R128: in both fields, a full line of the fixed table, and no flag. -/
def Obligations.FixedTableLinesArmTheirTable : Prop :=
  ∀ (f : Field) (n : BitVec 9) (s : State),
    (3 ≤ n.toNat → n.toNat < 6 → decodeLine (lineWordOf f n) = .ok (.vsync f n)) ∧
    exec (.vsync f n) s = .next { s with srcPtr := s.cfg.vsyncBase, xferLen := BitVec.ofNat 32 s.cfg.lineWords } ∧
    (9 ≤ n.toNat → n.toNat < 30 → decodeLine (lineWordOf f n) = .ok (.blankpre f n)) ∧
    exec (.blankpre f n) s = .next { s with srcPtr := s.cfg.blankBase, xferLen := BitVec.ofNat 32 s.cfg.lineWords } ∧
    (246 ≤ n.toNat → n.toNat < 261 → decodeLine (lineWordOf f n) = .ok (.blankpost f n)) ∧
    exec (.blankpost f n) s = .next { s with srcPtr := s.cfg.blankBase, xferLen := BitVec.ofNat 32 s.cfg.lineWords }

/-- R124: the last line of the phase is extended in an even field only. -/
def Obligations.EqpostExtendsLineEightOfEvenField : Prop :=
  ∀ (f : Field) (n : BitVec 9) (s : State),
    (6 ≤ n.toNat → n.toNat < 9 → decodeLine (lineWordOf f n) = .ok (.eqpost f n)) ∧
    exec (.eqpost f n) s = .next
      { s with
        srcPtr := s.cfg.eqBase
        xferLen := if n.toNat = 8 ∧ f = .even then BitVec.ofNat 32 (s.cfg.lineWords + s.cfg.halfExt)
          else BitVec.ofNat 32 s.cfg.lineWords }

/-- R126: the field's accessor, a full line, and the flag lowered in both fields. -/
def Obligations.ActfirstArmsFieldAndLowersRetrace : Prop :=
  ∀ (f : Field) (n : BitVec 9) (s : State),
    (n.toNat = 30 → decodeLine (lineWordOf f n) = .ok (.actfirst f n)) ∧
    exec (.actfirst f n) s = .next
      { s with
        srcPtr := if f = .even then s.cfg.fbBase + BitVec.ofNat 32 s.cfg.lineWords else s.cfg.fbBase
        xferLen := BitVec.ofNat 32 s.cfg.lineWords
        vretrace := false }

/-- R127: two full-line strides on, modulo `2 ^ ADDR_W`. -/
def Obligations.ActiveAdvancesTwoStrides : Prop :=
  ∀ (f : Field) (n : BitVec 9) (s : State),
    (31 ≤ n.toNat → n.toNat < 246 → decodeLine (lineWordOf f n) = .ok (.active f n)) ∧
    exec (.active f n) s = .next
      { s with
        srcPtr := s.srcPtr + BitVec.ofNat 32 (2 * s.cfg.lineWords)
        xferLen := BitVec.ofNat 32 s.cfg.lineWords }

/-- R129: the half line of an odd field; in an even field nothing changes. -/
def Obligations.CloseoutIsAHalfLineOfOddField : Prop :=
  ∀ (f : Field) (n : BitVec 9) (s : State),
    (n.toNat = 261 → decodeLine (lineWordOf f n) = .ok (.closeout f n)) ∧
    exec (.closeout f n) s = .next
      (if f = .odd then { s with srcPtr := s.cfg.hblankBase, xferLen := BitVec.ofNat 32 (s.cfg.lineWords / 2) } else s)

/-- R120, R121, R151: SEQ's turn executes the operation the cursor selects, advances the cursor, and arms the engine with what the
operation left; with a transfer in flight it is refused. -/
def Obligations.StepRunsTheLineOperation : Prop :=
  ∀ (s : State) (ts : List Turn) (i : Instr), s.cfg.wf = true → s.turns = .seq :: ts → s.irqPending = true →
    decodeLine s.lineWord = .ok i →
    (s.dmaBusy = true → step s = .refused .armWhileBusy) ∧
    (s.dmaBusy = false → ∃ u, exec i (s.setTurns ts) = .next u ∧
      step s = .next
        { u with
          scanLine := if s.scanLine = 261 then 0 else s.scanLine + 1
          field := if s.scanLine = 261 then otherField s.field else s.field
          dmaAddr := u.srcPtr
          dmaRemain := u.xferLen
          dmaBusy := true
          irqPending := false
          out := s.out ++ [{ src := u.srcPtr, len := u.xferLen, words := [] }] })

/-- R130: `LINESTEP` at any cursor is the pure table: the source, the length and the flag it leaves are those of `linePlan`. On an
active line the source is the row of the table when `SRC_PTR` was the row before it. -/
def Obligations.LinestepIsThePureTable : Prop :=
  ∀ (s t : State), lineStepWith exec s = .next t →
    t.vretrace = (linePlan s.field s.scanLine.toNat).2.2.flag s.vretrace ∧
    t.xferLen = (linePlan s.field s.scanLine.toNat).2.1.words s.cfg s.xferLen ∧
    ((31 ≤ s.scanLine.toNat → s.scanLine.toNat < 246 →
        s.srcPtr = s.cfg.fbw (fieldRow s.field (s.scanLine.toNat - 1)) 0) →
      t.srcPtr = (linePlan s.field s.scanLine.toNat).1.addr s.cfg s.srcPtr)

/-- R133: the cursor comes back after 524 advances and not before; 262 advances change the field only. -/
def Obligations.CursorHasPeriod524 : Prop :=
  ∀ (f : Field) (n : BitVec 9), n.toNat < 262 →
    advance^[262] (f, n) = (otherField f, n) ∧ advance^[524] (f, n) = (f, n) ∧
    ∀ k, 0 < k → k < 524 → advance^[k] (f, n) ≠ (f, n)

/-- R132: every step keeps the closed form of the retrace flag, whatever the state of the other units. -/
def Obligations.EveryStepKeepsRetraceClosedForm : Prop :=
  ∀ s t : State, RetraceInv s → step s = .next t → RetraceInv t

/-- R237, R238: every step keeps the alternation of transfer and completion. -/
def Obligations.EveryStepKeepsEngineAlternation : Prop :=
  ∀ s t : State, EngineInv s → step s = .next t → EngineInv t

/-- R131, R155: every step keeps the signal on the table: the cursor and each record's source and length depend on the number of
records alone, whatever CMD and HOST do. -/
def Obligations.EveryStepKeepsSignalOnTheTable : Prop :=
  ∀ s t : State, SignalInv s → EngineInv s → step s = .next t → SignalInv t

/-- R151 to R155: every step keeps the records complete but for the one in flight. -/
def Obligations.EveryStepKeepsRecordsComplete : Prop :=
  ∀ s t : State, RecordsInv s → EngineInv s → SignalInv s → step s = .next t → RecordsInv t

/-- R135: on a cursor below 262 and with the engine idle the handler never fails, and it ends by arming the next transfer. -/
def Obligations.HandlerNeverFails : Prop :=
  ∀ (s : State) (ts : List Turn), s.cfg.wf = true → s.turns = .seq :: ts → s.irqPending = true → s.scanLine.toNat < 262 →
    s.dmaBusy = false → ∃ t, step s = .next t ∧ t.dmaBusy = true ∧ t.irqPending = false ∧ t.dmaAddr = t.srcPtr ∧
      t.dmaRemain = t.xferLen ∧ t.run = s.run

/-- R154, R247: on a platform that maps every region, a started sequencer never stalls: XFER or SEQ has an enabled step. -/
def Obligations.StartedSequencerNeverStalls : Prop :=
  ∀ s : State, s.cfg.wf = true → s.cfg.platformComplete = true → s.run = true → EngineInv s → SignalInv s → RecordsInv s →
    xferEnabled s = true ∨ seqEnabled s = true

/-- R75, U10: on a platform that maps every region, a gate that is shut opens within one frame. First along the run of XFER and SEQ
alone: at most 524 scan lines later the retrace flag is 1. Then along EVERY endless run without `rst` that is weakly fair to XFER and
SEQ (R159, R236), whatever HOST and CMD do in between: from any point on, the flag is 1 again, at most 524 `LINESTEP`s later (each
opens one record). -/
def Obligations.GateOpensWithinOneFrame : Prop :=
  (∀ s : State, s.cfg.wf = true → s.cfg.platformComplete = true → s.run = true → s.dmaBusy = true → EngineInv s →
    SignalInv s → RecordsInv s → RetraceInv s → ∃ k t, k ≤ 524 ∧ runLines k s = .next t ∧ t.vretrace = true) ∧
  (∀ (σ : Nat → Turn) (ρ : Nat → State), EndlessRun σ ρ → WeaklyFair σ ρ → (∀ k d, σ k ≠ .rst d) →
    (ρ 0).cfg.platformComplete = true → (ρ 0).run = true → EngineInv (ρ 0) → SignalInv (ρ 0) → RecordsInv (ρ 0) → RetraceInv (ρ 0) →
    ∀ k, ∃ j, k ≤ j ∧ (ρ j).vretrace = true ∧ (ρ j).out.length ≤ (ρ k).out.length + 524)

/-! ### The transfer engine -/

/-- R152: `BEAT` emits the word at `DMA_ADDR`; at an unmapped address XFER is stuck. -/
def Obligations.BeatEmitsOneWord : Prop :=
  ∀ (s : State) (ts : List Turn), s.cfg.wf = true → s.turns = .xfer :: ts → s.dmaBusy = true → s.dmaRemain ≠ 0 →
    (s.cfg.mapped s.dmaAddr = true → step s = .next
      { s with
        dmaAddr := s.dmaAddr + 1
        dmaRemain := s.dmaRemain - 1
        out := appendWord s.out (Memory.read wmDefault s.wm s.dmaAddr.toNat)
        turns := ts }) ∧
    (s.cfg.mapped s.dmaAddr = false → step s = .fault .xferUnmapped)

/-- R153: `DONE` frees the engine and raises the completion. -/
def Obligations.DoneRaisesTheCompletion : Prop :=
  ∀ (s : State) (ts : List Turn), s.cfg.wf = true → s.turns = .xfer :: ts → s.dmaBusy = true → s.dmaRemain = 0 →
    step s = .next { s with dmaBusy := false, irqPending := true, turns := ts }

/-- R154, R236, R170: an agent without an enabled step is stuck: XFER while idle, SEQ with nothing pending, HOST while the port is
busy, CMD while it is free. -/
def Obligations.DisabledAgentsAreStuck : Prop :=
  ∀ (s : State) (ts : List Turn), s.cfg.wf = true →
    (s.turns = .xfer :: ts → s.dmaBusy = false → step s = .fault .xferNotEnabled) ∧
    (s.turns = .seq :: ts → s.irqPending = false → step s = .fault .seqNotEnabled) ∧
    (∀ f, s.turns = .host f :: ts → s.cmdBusy = true → step s = .fault .hostNotEnabled) ∧
    (s.turns = .cmd :: ts → s.cmdBusy = false → step s = .fault .cmdNotEnabled)

/-- R78, R152, R153: a transfer in flight, left to XFER, emits the words that are left at ascending addresses, each once and in
order, and then completes. -/
def Obligations.TransferEmitsAscendingWordsThenCompletes : Prop :=
  ∀ s : State, s.cfg.wf = true → s.dmaBusy = true →
    (∀ j, j < s.dmaRemain.toNat → s.cfg.mapped (s.dmaAddr + BitVec.ofNat 32 j) = true) →
    runTurns (List.replicate (s.dmaRemain.toNat + 1) .xfer) s = .next
      { s with
        dmaAddr := s.dmaAddr + s.dmaRemain
        dmaRemain := 0
        dmaBusy := false
        irqPending := true
        out := ((List.range s.dmaRemain.toNat).map fun j => s.readWord (s.dmaAddr + BitVec.ofNat 32 j)).foldl appendWord s.out
        turns := [] }

/-! ### The command port and the simple commands -/

/-- R170: a frame that decodes is latched, the port is busy, and CMD has not moved yet: its micro-state is the first one (the model's
choice, log 11). -/
def Obligations.HostPresentsAFrame : Prop :=
  ∀ (s : State) (f : BitVec 128) (ts : List Turn) (i : Instr), s.cfg.wf = true → s.turns = .host f :: ts → s.cmdBusy = false →
    decodeFrame f = .ok i →
    step s = .next { s with cmdBusy := true, cmdFrame := f, ustate := .first, turns := ts }

/-- R12, R170: CMD's turn is one micro-operation of the command in `CMD_FRAME`. -/
def Obligations.StepRunsTheCommand : Prop :=
  ∀ (s : State) (ts : List Turn) (i : Instr), s.cfg.wf = true → s.turns = .cmd :: ts → s.cmdBusy = true →
    decodeFrame s.cmdFrame = .ok i → step s = exec i (s.setTurns ts)

/-- R175 to R179, R99: the encodings of the five queries (the spec's decision D9); each answers in one step, in any state, and changes
nothing else. That a width or height of 2^32 or more answers its low 32 bits is the model's choice (log 13). -/
def Obligations.QueriesRespondInOneStep : Prop :=
  (decodeFrame (frameOfWords 0x01000000 0 0 0) = .ok .width ∧ decodeFrame (frameOfWords 0x02000000 0 0 0) = .ok .height ∧
    decodeFrame (frameOfWords 0x03000000 0 0 0) = .ok .retrace ∧ decodeFrame (frameOfWords 0x0A000000 0 0 0) = .ok .evenptr ∧
    decodeFrame (frameOfWords 0x0B000000 0 0 0) = .ok .oddptr) ∧
  ∀ s : State, ∃ u,
    exec .width s = .next { s with rsp := s.rsp ++ [BitVec.ofNat 32 s.cfg.xRes], cmdBusy := false, ustate := u } ∧
    exec .height s = .next { s with rsp := s.rsp ++ [BitVec.ofNat 32 s.cfg.yRes], cmdBusy := false, ustate := u } ∧
    exec .retrace s = .next
      { s with rsp := s.rsp ++ [if s.vretrace = true then 1 else 0], cmdBusy := false, ustate := u } ∧
    exec .evenptr s = .next
      { s with rsp := s.rsp ++ [s.cfg.fbBase + BitVec.ofNat 32 s.cfg.lineWords], cmdBusy := false, ustate := u } ∧
    exec .oddptr s = .next { s with rsp := s.rsp ++ [s.cfg.fbBase], cmdBusy := false, ustate := u }

/-- R180: the encodings of `SETACT` (the spec's decisions D8, D9; mode 3 rejected by D27); it writes `PIXACT` in one step, with or
without `FB_READY` (D21) and at any `VRETRACE`. -/
def Obligations.SetactWritesPixact : Prop :=
  decodeFrame (frameOfWords 0x04000000 0 0 0) = .ok (.setact .set) ∧ decodeFrame (frameOfWords 0x04000001 0 0 0) = .ok (.setact .clear) ∧
  decodeFrame (frameOfWords 0x04000002 0 0 0) = .ok (.setact .flip) ∧
  decodeFrame (frameOfWords 0x04000003 0 0 0) = .error .reservedMode ∧
  ∀ (a : PixAct) (s : State), ∃ u,
    exec (.setact a) s = .next { s with pixact := a, rsp := s.rsp ++ [0], cmdBusy := false, ustate := u }

/-- R210 to R212: a frame with `OP` 0x0C, 0x0D or 0x0E is an empty primitive whatever its other bits are, and the three empty
primitives respond 0 and change nothing else, in every state. -/
def Obligations.EmptyPrimitivesOnlyRespond : Prop :=
  (∀ f : BitVec 128, ((splitFrame f).op = 0x0C → decodeFrame f = .ok .circle) ∧ ((splitFrame f).op = 0x0D → decodeFrame f = .ok .fill) ∧
    ((splitFrame f).op = 0x0E → decodeFrame f = .ok .text)) ∧
  ∀ (i : Instr) (s : State), i = .circle ∨ i = .fill ∨ i = .text →
    ∃ u, exec i s = .next { s with rsp := s.rsp ++ [0], cmdBusy := false, ustate := u }

/-- What never waits at the gate, at any `VRETRACE`. R231's silent no-ops: a drawing command before `FBINIT`, a pixel out of range, a
descriptor with no columns or no rows; each responds 0 in its first step and changes nothing else. The entry step of `SETPIXEL`, `LINE`,
`BOX` and `BITBLIT` at a point (R181, R203, R208(a)): an in-range point of the command goes to its poll, and an out-of-range point or an
unset bit is passed, on to the place `nextPlace` names. And how each of the four comes to its first entry step: `SETPIXEL`, `LINE` and
`BOX` in the step that tests `FB_READY`, `BITBLIT` by way of the read of a byte (R207), which leaves CMD stuck where the byte is unmapped
(R64, the spec's decision D34). Which of these are one step is the model's cut (log 10), which R181 allows. The micro-states named, the
first one at a response among them (`State.moveOn`), are the model's choice too (log 11; R33 leaves them to it). -/
def Obligations.SilentNoOpsOnlyRespond : Prop :=
  (∀ (i : Instr) (s : State), s.ustate = .first →
    ((isDrawing i = true ∧ s.fbReady = false) ∨
     (∃ x y, i = .setpixel x y ∧ inBounds s.cfg x.toInt y.toInt = false) ∨
     (∃ x0 y0 cols rows bmp, i = .bitblit x0 y0 cols rows bmp ∧ (cols = 0 ∨ rows = 0))) →
    ∃ u, exec i s = .next { s with rsp := s.rsp ++ [0], cmdBusy := false, ustate := u }) ∧
  (∀ (i : Instr) (s : State) (x y : Int), i.isLine = false → microOk s.cfg i s.ustate = true → s.ustate.phase = some .entry →
    pixelPoint i s.ustate = some (x, y) →
    exec i s = .next
      (if s.ustate.wanted = true ∧ inBounds s.cfg x y = true then s.setMicro (s.ustate.withPhase .poll)
       else s.moveOn (nextPlace i s.ustate))) ∧
  (∀ s : State, s.ustate = .first → s.fbReady = true →
    (∀ x y, exec (.setpixel x y) s = exec (.setpixel x y) (s.setMicro (.pixel .entry))) ∧
    (∀ x0 y0 x1 y1, exec (.line x0 y0 x1 y1) s =
      exec (.line x0 y0 x1 y1) (s.setMicro (.line (lineSeg x0 y0 x1 y1).begin .entry))) ∧
    (∀ x0 y0 x1 y1, exec (.box x0 y0 x1 y1) s =
      exec (.box x0 y0 x1 y1) (s.setMicro (.box 0 (boxEdge (lineSeg x0 y0 x1 y1) 0).begin .entry))) ∧
    (∀ x0 y0 cols rows bmp, cols ≠ 0 → rows ≠ 0 →
      exec (.bitblit x0 y0 cols rows bmp) s = .next (s.setMicro (.blitFetch 0 0)))) ∧
  (∀ (s : State) (x0 y0 cols rows : BitVec 16) (bmp : Addr) (row j : Nat), s.ustate = .blitFetch row j →
    exec (.bitblit x0 y0 cols rows bmp) s =
      if s.cfg.bmMapped (blitAddr bmp cols.toNat row j) = true then
        .next (s.setMicro (.blitBit row (8 * j) (s.readByte (blitAddr bmp cols.toNat row j)) .entry))
      else .fault .cmdUnmappedByte)

/-- R182: at the gate a drawing command does nothing while the flag is 0, and passes to its write when it reads 1. -/
def Obligations.GateHoldsUntilRetrace : Prop :=
  ∀ (i : Instr) (s : State), i.isLine = false → microOk s.cfg i s.ustate = true → s.ustate.phase = some .poll →
    exec i s = .next (if s.vretrace = true then { s with ustate := s.ustate.withPhase .write } else s)

/-- R183, R37: the write step of any drawing command applies the action to the one bit of its pixel, reads no flag, and goes on to the
place `nextPlace` names: the next point of the line, of the box or of the bitmap in the order of R201, R204 and R208(d), or the response
0 after the last (that it does so in the same step is the model's cut, log 10, and the micro-state at the response log 11). -/
def Obligations.WriteStepPlotsOnePixel : Prop :=
  ∀ (i : Instr) (s : State) (x y : Int), i.isLine = false → microOk s.cfg i s.ustate = true → s.ustate.phase = some .write →
    pixelPoint i s.ustate = some (x, y) → s.cfg.mapped (pixelAddr s.cfg x.toNat y.toNat) = true →
    exec i s = .next (State.moveOn { s with wm := plot s.cfg s.pixact s.wm (x, y) } (nextPlace i s.ustate))

/-- R184, R201, R204, R206, R185, R188: the last micro-operation of each multi-step command: it does its work, responds 0, and frees
the port. That the response leaves in the same step as the last write is the model's cut (log 10). A command whose last point is out of
range, or whose last bit is unset, ends as `SilentNoOpsOnlyRespond` says. -/
def Obligations.MultiStepCommandsFinish : Prop :=
  ∀ s : State,
    (∀ x y, s.ustate = .pixel .write → inBounds s.cfg x.toInt y.toInt = true →
      s.cfg.mapped (pixelAddr s.cfg x.toInt.toNat y.toInt.toNat) = true →
      ∃ u, exec (.setpixel x y) s = .next
        { s with wm := plot s.cfg s.pixact s.wm (x.toInt, y.toInt), rsp := s.rsp ++ [0], cmdBusy := false, ustate := u }) ∧
    (∀ x0 y0 x1 y1 w, s.ustate = .line w .write → w.x = x1.toInt → w.y = y1.toInt → inBounds s.cfg w.x w.y = true →
      s.cfg.mapped (pixelAddr s.cfg w.x.toNat w.y.toNat) = true →
      ∃ u, exec (.line x0 y0 x1 y1) s = .next
        { s with wm := plot s.cfg s.pixact s.wm (w.x, w.y), rsp := s.rsp ++ [0], cmdBusy := false, ustate := u }) ∧
    (∀ x0 y0 x1 y1 w, s.ustate = .box 3 w .write → w.x = x0.toInt → w.y = y0.toInt → inBounds s.cfg w.x w.y = true →
      s.cfg.mapped (pixelAddr s.cfg w.x.toNat w.y.toNat) = true →
      ∃ u, exec (.box x0 y0 x1 y1) s = .next
        { s with wm := plot s.cfg s.pixact s.wm (w.x, w.y), rsp := s.rsp ++ [0], cmdBusy := false, ustate := u }) ∧
    (∀ (x0 y0 cols rows : BitVec 16) (bmp : Addr) (row col : Nat) (byte : BitVec 8), s.ustate = .blitBit row col byte .write →
      row + 1 = rows.toNat → col + 1 = cols.toNat → blitPixel byte col = true →
      inBounds s.cfg (x0.toInt + (col : Int)) (y0.toInt + (row : Int)) = true →
      s.cfg.mapped (pixelAddr s.cfg (x0.toInt + (col : Int)).toNat (y0.toInt + (row : Int)).toNat) = true →
      ∃ u, exec (.bitblit x0 y0 cols rows bmp) s = .next
        { s with
          wm := plot s.cfg s.pixact s.wm (x0.toInt + (col : Int), y0.toInt + (row : Int))
          rsp := s.rsp ++ [0]
          cmdBusy := false
          ustate := u }) ∧
    (∀ colour, s.ustate = .clear (s.cfg.yRes - 1) (s.cfg.avo + s.cfg.xw - 1) → 1 ≤ s.cfg.yRes → 1 ≤ s.cfg.xw →
      s.cfg.mapped (s.cfg.fbw (s.cfg.yRes - 1) (s.cfg.avo + s.cfg.xw - 1)) = true →
      ∃ u, exec (.clear colour) s = .next
        { s with
          wm := Memory.write wmDefault s.wm (s.cfg.fbw (s.cfg.yRes - 1) (s.cfg.avo + s.cfg.xw - 1)).toNat
            (if colour = true then 2 ^ s.cfg.wordW - 1 else 0)
          rsp := s.rsp ++ [0]
          cmdBusy := false
          ustate := u }) ∧
    (s.ustate = .fbReady → ∃ u, exec .fbinit s = .next
        { s with fbReady := true, rsp := s.rsp ++ [0], cmdBusy := false, ustate := u })

/-- R189: the first `START` sets `RUN` and performs the body of `LINESTEP`; from cursor 0 that arms the equalizing table and raises the
flag in an odd field (the spec's decision D14). -/
def Obligations.StartArmsTheFirstTransfer : Prop :=
  ∀ s : State, s.run = false → s.dmaBusy = false →
    (∀ t, lineStepWith exec { s with run := true } = .next t →
      ∃ u, exec .start s = .next { t with rsp := t.rsp ++ [0], cmdBusy := false, ustate := u }) ∧
    (s.scanLine = 0 → ∃ u, exec .start s = .next
      { s with
        run := true
        scanLine := 1
        srcPtr := s.cfg.eqBase
        xferLen := BitVec.ofNat 32 s.cfg.lineWords
        vretrace := if s.field = .odd then true else s.vretrace
        dmaAddr := s.cfg.eqBase
        dmaRemain := BitVec.ofNat 32 s.cfg.lineWords
        dmaBusy := true
        irqPending := false
        out := s.out ++ [{ src := s.cfg.eqBase, len := BitVec.ofNat 32 s.cfg.lineWords, words := [] }]
        rsp := s.rsp ++ [0]
        cmdBusy := false
        ustate := u })

/-- R188, R189: a second `START` and a second `FBINIT` only respond 0 (the spec's decisions D22 and D36). -/
def Obligations.SecondStartupIsANoOp : Prop :=
  ∀ s : State,
    (s.run = true → ∃ u, exec .start s = .next { s with rsp := s.rsp ++ [0], cmdBusy := false, ustate := u }) ∧
    (s.fbReady = true → s.ustate = .first →
      ∃ u, exec .fbinit s = .next { s with rsp := s.rsp ++ [0], cmdBusy := false, ustate := u })

/-! ### Commands run to their end -/

/-- R184, R37, R183: `SETPIXEL` in range during retrace takes three CMD steps and changes that one pixel and no other bit of WM. The
count of three is the model's cut (log 10), and the micro-state at the response its choice (log 11). -/
def Obligations.SetpixelChangesOnePixel : Prop :=
  ∀ (s : State) (x y : BitVec 16), s.cfg.wf = true → s.cfg.platformComplete = true → MemoryInv s → s.cmdBusy = true →
    decodeFrame s.cmdFrame = .ok (.setpixel x y) → s.ustate = .first → s.fbReady = true → s.vretrace = true →
    inBounds s.cfg x.toInt y.toInt = true →
    ∃ wm, runTurns [.cmd, .cmd, .cmd] s = .next (drawn s wm) ∧
      (∀ x' y', x' < s.cfg.xRes → y' < s.cfg.yRes →
        pixelLit s.cfg wm x' y' =
          if (x' : Int) = x.toInt ∧ (y' : Int) = y.toInt then actOnPixel s.pixact (pixelLit s.cfg s.wm x' y')
          else pixelLit s.cfg s.wm x' y') ∧
      (∀ b, b ≠ (pixelAddr s.cfg x.toInt.toNat y.toInt.toNat).toNat → Memory.read wmDefault wm b = Memory.read wmDefault s.wm b) ∧
      (∀ k, k ≠ bitIndex s.cfg x.toInt.toNat →
        (Memory.read wmDefault wm (pixelAddr s.cfg x.toInt.toNat y.toInt.toNat).toNat).testBit k =
          (Memory.read wmDefault s.wm (pixelAddr s.cfg x.toInt.toNat y.toInt.toNat).toNat).testBit k)

/-- R201, R203: `LINE` during retrace plots all its points and no others, in the CMD steps its points cost, and responds (the spec's
decision D23 for the points). The count of steps is the model's cut (log 10), and the micro-state at the response its choice (log 11).
The order of the points is in `SilentNoOpsOnlyRespond` (the first) and `WriteStepPlotsOnePixel` (each next). -/
def Obligations.LineDrawsItsPoints : Prop :=
  ∀ (s : State) (x0 y0 x1 y1 : BitVec 16), s.cfg.wf = true → s.cfg.platformComplete = true → s.cmdBusy = true →
    decodeFrame s.cmdFrame = .ok (.line x0 y0 x1 y1) → s.ustate = .first → s.fbReady = true → s.vretrace = true →
    runTurns (List.replicate (((lineSeg x0 y0 x1 y1).points.map (pointCost s.cfg)).sum) .cmd) s =
      .next (drawn s (plotAll s.cfg s.pixact s.wm (lineSeg x0 y0 x1 y1).points))

/-- R202: the points of a line start and end at its end points, number `max (|dx|, |dy|) + 1`, and follow each other by at most one in
each coordinate; the end point comes last only. -/
def Obligations.LinePointsJoinTheEnds : Prop :=
  ∀ g : Seg,
    g.points.head? = some (g.x0, g.y0) ∧ g.points.getLast? = some (g.x1, g.y1) ∧
    g.points.length = max (g.x1 - g.x0).natAbs (g.y1 - g.y0).natAbs + 1 ∧
    (g.x1, g.y1) ∉ g.points.dropLast ∧
    g.points.IsChain fun p q => (q.1 - p.1).natAbs ≤ 1 ∧ (q.2 - p.2).natAbs ≤ 1

/-- R204: `BOX` during retrace plots the points of its four edges and no others, in the CMD steps they cost, and responds (the spec's
decision D24 for the edges). The count of steps is the model's cut (log 10), and the micro-state at the response its choice (log 11). The
order is in `SilentNoOpsOnlyRespond` and `WriteStepPlotsOnePixel`. -/
def Obligations.BoxDrawsFourEdges : Prop :=
  ∀ (s : State) (x0 y0 x1 y1 : BitVec 16), s.cfg.wf = true → s.cfg.platformComplete = true → s.cmdBusy = true →
    decodeFrame s.cmdFrame = .ok (.box x0 y0 x1 y1) → s.ustate = .first → s.fbReady = true → s.vretrace = true →
    runTurns (List.replicate (((boxPoints (lineSeg x0 y0 x1 y1)).map (pointCost s.cfg)).sum) .cmd) s =
      .next (drawn s (plotAll s.cfg s.pixact s.wm (boxPoints (lineSeg x0 y0 x1 y1))))

/-- R206, R208: `BITBLIT` during retrace plots exactly the set bits of its bitmap and responds. The micro-state at the response is the
model's choice (log 11). The order of the bits and the reads of the bytes are in `SilentNoOpsOnlyRespond` and `WriteStepPlotsOnePixel`. -/
def Obligations.BitblitDrawsTheSetBits : Prop :=
  ∀ (s : State) (x0 y0 cols rows : BitVec 16) (bmp : Addr), s.cfg.wf = true → s.cfg.platformComplete = true →
    s.cmdBusy = true → decodeFrame s.cmdFrame = .ok (.bitblit x0 y0 cols rows bmp) → s.ustate = .first → s.fbReady = true →
    s.vretrace = true →
    (∀ row j, row < rows.toNat → 8 * j < cols.toNat → s.cfg.bmMapped (blitAddr bmp cols.toNat row j) = true) →
    ∃ k, runTurns (List.replicate k .cmd) s =
      .next (drawn s (plotAll s.cfg s.pixact s.wm (blitPoints s.bm x0.toInt y0.toInt cols.toNat rows.toNat bmp)))

/-- R185: `CLEAR` overwrites the active-video words of every row, one word a step, at any `VRETRACE`, and no other word. One word a step
is the spec's decision D20; the one step more, for the `FB_READY` test, is the model's cut (log 10), and the micro-state at the response
its choice (log 11). -/
def Obligations.ClearFillsTheActiveWords : Prop :=
  ∀ (s : State) (colour : Bool), s.cfg.wf = true → s.cfg.platformComplete = true → MemoryInv s → s.cmdBusy = true →
    decodeFrame s.cmdFrame = .ok (.clear colour) → s.ustate = .first → s.fbReady = true →
    ∃ wm, runTurns (List.replicate (s.cfg.yRes * s.cfg.xw + 1) .cmd) s = .next (drawn s wm) ∧
      (∀ r i, r < s.cfg.yRes → s.cfg.avo ≤ i → i < s.cfg.avo + s.cfg.xw →
        Memory.read wmDefault wm (s.cfg.fbw r i).toNat = if colour = true then 2 ^ s.cfg.wordW - 1 else 0) ∧
      (∀ b, (∀ r i, r < s.cfg.yRes → s.cfg.avo ≤ i → i < s.cfg.avo + s.cfg.xw → b ≠ (s.cfg.fbw r i).toNat) →
        Memory.read wmDefault wm b = Memory.read wmDefault s.wm b)

/-- R186 to R188: the first `FBINIT` zero-fills the framebuffer, seeds every row's prefix from the blank-line table, sets `FB_READY`,
and writes nothing else (the spec's decision D22). The two steps more, for the test and for `FB_READY`, are the model's cut (log 10), and
the micro-state at the response its choice (log 11). -/
def Obligations.FbinitSeedsTheFramebuffer : Prop :=
  ∀ s : State, s.cfg.wf = true → s.cfg.platformComplete = true → MemoryInv s → s.cmdBusy = true →
    decodeFrame s.cmdFrame = .ok .fbinit → s.ustate = .first → s.fbReady = false →
    ∃ wm, runTurns (List.replicate (s.cfg.yRes * s.cfg.lineWords + s.cfg.yRes * s.cfg.avo + 2) .cmd) s =
        .next { drawn s wm with fbReady := true } ∧
      (∀ r i, r < s.cfg.yRes → i < s.cfg.avo →
        Memory.read wmDefault wm (s.cfg.fbw r i).toNat = s.readWord (s.cfg.blankBase + BitVec.ofNat 32 i)) ∧
      (∀ r i, r < s.cfg.yRes → s.cfg.avo ≤ i → i < s.cfg.lineWords → Memory.read wmDefault wm (s.cfg.fbw r i).toNat = 0) ∧
      (∀ b, s.cfg.fbRegion.contains b = false → Memory.read wmDefault wm b = Memory.read wmDefault s.wm b)

/-! ### The pixel writes as an algebra -/

/-- R183, R37, R181: one gated pixel write changes one pixel as its action says, and a point out of range changes nothing. -/
def Obligations.PlotChangesOnePixel : Prop :=
  ∀ (c : Config) (a : PixAct) (wm : WordMem) (bm : ByteMem) (p : Int × Int) (x y : Nat), c.wf = true →
    Memory.wf c.wordW wm bm = true → x < c.xRes → y < c.yRes →
    pixelLit c (plot c a wm p) x y =
      if ((x : Int), (y : Int)) = p then actOnPixel a (pixelLit c wm x y) else pixelLit c wm x y

/-- R213: the framebuffer a drawing command leaves depends on the multiset of its points, not on their order. -/
def Obligations.DrawingIsOrderIndependent : Prop :=
  ∀ (c : Config) (a : PixAct) (wm : WordMem) (bm : ByteMem) (ps qs : List (Int × Int)), c.wf = true →
    Memory.wf c.wordW wm bm = true → ps.Perm qs → plotAll c a wm ps = plotAll c a wm qs

/-- R213: drawing the same points twice under Flip restores the framebuffer; under Set or Clear the second time changes nothing. -/
def Obligations.RedrawingUnderFlipRestores : Prop :=
  ∀ (c : Config) (a : PixAct) (wm : WordMem) (bm : ByteMem) (ps : List (Int × Int)), c.wf = true →
    Memory.wf c.wordW wm bm = true →
    plotAll c a (plotAll c a wm ps) ps = if a = .flip then wm else plotAll c a wm ps

/-! ### The whole machine -/

/-- R71(a), R27: only SEQ, `START` and `rst` change the cursor, the flag and the handler's two registers. -/
def Obligations.OnlySeqWritesItsRegisters : Prop :=
  ∀ (s t : State) (tn : Turn) (ts : List Turn), s.turns = tn :: ts → step s = .next t → (∀ d, tn ≠ .rst d) → tn ≠ .seq →
    (tn = .cmd → decodeFrame s.cmdFrame ≠ .ok .start) →
    t.scanLine = s.scanLine ∧ t.field = s.field ∧ t.vretrace = s.vretrace ∧ t.srcPtr = s.srcPtr ∧ t.xferLen = s.xferLen ∧
      t.run = s.run

/-- R71(b), R61: only CMD and `rst` change WM, and nothing changes BM or the configuration. -/
def Obligations.OnlyCmdWritesWordMemory : Prop :=
  ∀ (s t : State) (tn : Turn) (ts : List Turn), s.turns = tn :: ts → step s = .next t →
    t.bm = s.bm ∧ t.cfg = s.cfg ∧ (tn ≠ .cmd → (∀ d, tn ≠ .rst d) → t.wm = s.wm)

/-- R71(c), R28, R29, R26: without `rst`, `PIXACT` is written by `SETACT` only, `FB_READY` by `FBINIT` only, `RUN` by `START` only, and
neither `FB_READY` nor `RUN` is ever cleared. -/
def Obligations.ModeBitsHaveOneWriter : Prop :=
  ∀ (s t : State) (tn : Turn) (ts : List Turn), s.turns = tn :: ts → step s = .next t → (∀ d, tn ≠ .rst d) →
    (t.pixact ≠ s.pixact → tn = .cmd ∧ decodeFrame s.cmdFrame = .ok (.setact t.pixact)) ∧
    (t.fbReady ≠ s.fbReady → t.fbReady = true ∧ tn = .cmd ∧ decodeFrame s.cmdFrame = .ok .fbinit) ∧
    (t.run ≠ s.run → t.run = true ∧ tn = .cmd ∧ decodeFrame s.cmdFrame = .ok .start)

/-- R71(d), R36, R76: no step, `rst` included, changes a word of a waveform table or of the equalizing extension. -/
def Obligations.TablesNeverChange : Prop :=
  ∀ (s t : State) (r : Region) (a : Nat), MemoryInv s → CommandInv s → step s = .next t → r ∈ s.cfg.tables →
    r.contains a = true → Memory.read wmDefault t.wm a = Memory.read wmDefault s.wm a

/-- R187, R266: every step keeps the prefix seeded: once `FB_READY` is 1 every prefix word equals its word of the blank-line table. -/
def Obligations.EveryStepKeepsPrefixSeeded : Prop :=
  ∀ s t : State, MemoryInv s → CommandInv s → PrefixInv s → step s = .next t → PrefixInv t

/-- R73: the write step comes only after a poll of the same pixel write that read the flag as 1: any step but `rst` that leads to a write
step, from another micro-state or by CMD's own turn, was such a poll. -/
def Obligations.WriteOnlyAfterAPassedPoll : Prop :=
  ∀ s t : State, (∀ d ts, s.turns ≠ .rst d :: ts) → step s = .next t → t.ustate.phase = some .write →
    (t.ustate ≠ s.ustate ∨ ∃ ts, s.turns = .cmd :: ts) →
    s.ustate.phase = some .poll ∧ s.vretrace = true ∧ t.ustate = s.ustate.withPhase .write

/-- R271: a gated write before `START` hangs for good: no step but `rst` changes anything, and the hang remains. -/
def Obligations.DrawingBeforeStartHangsForGood : Prop :=
  ∀ s t : State, hungBeforeStart s = true → CommandInv s → (∀ d ts, s.turns ≠ .rst d :: ts) → step s = .next t →
    t = { s with turns := t.turns } ∧ hungBeforeStart t = true

/-- R272, R72: a pixel write whose poll passed just before line 30 lands after the flag has dropped, and the scan of that same row, in
progress, emits it. -/
def Obligations.AWriteCanSlipPastTheGate : Prop :=
  ∀ (s : State) (x y : BitVec 16), s.cfg.wf = true → s.cfg.platformComplete = true → MemoryInv s → s.cmdBusy = true →
    decodeFrame s.cmdFrame = .ok (.setpixel x y) → s.ustate = .pixel .poll → s.vretrace = true → s.scanLine = 30 →
    s.irqPending = true → s.dmaBusy = false → inBounds s.cfg x.toInt y.toInt = true →
    y.toInt = (if s.field = .even then 1 else 0) →
    ∃ t r, runTurns ([.cmd, .seq] ++ List.replicate (wordIndex s.cfg x.toInt.toNat) .xfer ++ [.cmd, .xfer]) s = .next t ∧
      t.vretrace = false ∧ t.dmaBusy = true ∧ t.wm = plot s.cfg s.pixact s.wm (x.toInt, y.toInt) ∧
      t.out.getLast? = some r ∧ r.src = s.cfg.fbw y.toInt.toNat 0 ∧
      r.words.getLast? = some (t.readWord (pixelAddr s.cfg x.toInt.toNat y.toInt.toNat))

/-- R33, R170: every step keeps the command in progress its own: its frame decodes, and its micro-state is one of its own with every
index in range. -/
def Obligations.EveryStepKeepsCommandConsistent : Prop :=
  ∀ s t : State, CommandInv s → step s = .next t → CommandInv t

/-- R230, R14: with every region and every bitmap byte mapped, a command in progress always has a next step: no command fails. -/
def Obligations.CommandsNeverFail : Prop :=
  ∀ (s : State) (ts : List Turn), s.cfg.wf = true → s.cfg.platformComplete = true → (∀ b, s.cfg.bmMapped b = true) →
    s.turns = .cmd :: ts → s.cmdBusy = true → CommandInv s → EngineInv s → s.scanLine.toNat < 262 → ∃ t, step s = .next t

/-- The frame of every command's step (R241's rights): but for `START`, no register of SEQ or XFER changes; `PIXACT` changes by
`SETACT` only and `FB_READY` by `FBINIT` only; and every word of WM but the one `storeTarget` computes reads as before. -/
def Obligations.CommandStepFrame : Prop :=
  ∀ (i : Instr) (s t : State), i.isLine = false → exec i s = .next t →
    t.cfg = s.cfg ∧ t.bm = s.bm ∧ t.cmdFrame = s.cmdFrame ∧ t.turns = s.turns ∧
    (i ≠ .start → t.scanLine = s.scanLine ∧ t.field = s.field ∧ t.vretrace = s.vretrace ∧ t.srcPtr = s.srcPtr ∧
      t.xferLen = s.xferLen ∧ t.run = s.run ∧ t.dmaAddr = s.dmaAddr ∧ t.dmaRemain = s.dmaRemain ∧ t.dmaBusy = s.dmaBusy ∧
      t.irqPending = s.irqPending ∧ t.out = s.out) ∧
    ((∀ a, i ≠ .setact a) → t.pixact = s.pixact) ∧ (i ≠ .fbinit → t.fbReady = s.fbReady) ∧
    (storeTarget s.cfg i s.ustate = none → t.wm = s.wm) ∧
    (MemoryInv s → ∀ a, storeTarget s.cfg i s.ustate = some a → ∀ b, b ≠ a → t.readWord b = s.readWord b)

/-- Every step keeps both memories in canonical form (the model's choice of logs 6 and 7) and every stored word, a number (log 2), within
the `WORD_W` bits of R34. -/
def Obligations.EveryStepKeepsMemoryCanonical : Prop := ∀ s t : State, MemoryInv s → step s = .next t → MemoryInv t

/-! ### Reset -/

/-- R42, R260: reset leaves the values the spec gives, for every configuration, memory and draw; an `rst` turn leads to such a state
and leaves every word outside the framebuffer (the spec's decisions D11 to D13). That the turn carries the draws is the model's form
(log 17); that it empties the responses and keeps the rest of the schedule is the model's choice (log 9). -/
def Obligations.ResetLeavesTheSpecsValues : Prop :=
  (∀ (c : Config) (wm : WordMem) (bm : ByteMem) (d : Draws), State.resetWith c wm bm d =
    { State.resetWith c wm bm d with
      cfg := c, scanLine := 0, field := c.resetParity, vretrace := false, run := false, fbReady := false, dmaBusy := false,
      irqPending := false, cmdBusy := false, wm := wm, bm := bm, out := [] }) ∧
  (∀ (s : State) (d : Draws) (ts : List Turn), s.cfg.wf = true → MemoryInv s → s.turns = .rst d :: ts →
    ∃ wm, step s = .next ((State.resetWith s.cfg wm s.bm d).setTurns ts) ∧
      ∀ a, s.cfg.fbRegion.contains a = false → Memory.read wmDefault wm a = Memory.read wmDefault s.wm a)

/-- Every invariant above holds at reset, for every well-formed configuration, canonical memory and draw. -/
def Obligations.InvariantsHoldAtReset : Prop :=
  ∀ (c : Config) (wm : WordMem) (bm : ByteMem) (d : Draws), c.wf = true → Memory.wf c.wordW wm bm = true →
    RetraceInv (State.resetWith c wm bm d) ∧ EngineInv (State.resetWith c wm bm d) ∧ SignalInv (State.resetWith c wm bm d) ∧
    RecordsInv (State.resetWith c wm bm d) ∧ CommandInv (State.resetWith c wm bm d) ∧
    PrefixInv (State.resetWith c wm bm d) ∧ MemoryInv (State.resetWith c wm bm d)
end

