-- ==== Sys2Proof/Laws/Parameters.lean ====
section
/-! SUPPORT. What a well-formed configuration gives (R8): framebuffer addresses do not wrap, different words have different
addresses, pixel words lie inside their rows and after the prefix, and no framebuffer word is a table word. -/

namespace Sys2Proof

open Sys2Proof.Machine

theorem Region.contains_iff (r : Region) (a : Nat) : r.contains a = true ↔ r.base ≤ a ∧ a < r.base + r.size := by
  simp [Region.contains]

/-- R8, clause by clause. -/
structure Config.Good (c : Config) : Prop where
  wordW : c.wordW = 2 ^ c.wordShift
  wide : 8 ≤ c.wordW
  even : c.lineWords % 2 = 0
  half : 1 ≤ c.halfWords
  row : c.avo + c.xw ≤ c.lineWords
  xRes : 1 ≤ c.xRes
  yRes : 432 ≤ c.yRes
  fb : c.fbBase.toNat + c.yRes * c.lineWords ≤ 2 ^ 32
  vsync : c.vsyncBase.toNat + c.lineWords ≤ 2 ^ 32
  eq : c.eqBase.toNat + (c.lineWords + c.halfExt) ≤ 2 ^ 32
  blank : c.blankBase.toNat + c.lineWords ≤ 2 ^ 32
  hblank : c.hblankBase.toNat + c.halfWords ≤ 2 ^ 32
  apart : ∀ r ∈ c.tables, c.fbRegion.disjoint r = true
  ext : 1 ≤ c.halfExt

theorem Config.wf_iff_good (c : Config) : c.wf = true ↔ c.Good := by
  constructor
  · intro h
    simp only [Config.wf, Config.regions, Config.tables, List.all_cons, List.all_nil, Bool.and_eq_true, decide_eq_true_eq,
      Bool.and_true, Config.fbRegion, Config.vsyncRegion, Config.eqRegion, Config.blankRegion, Config.hblankRegion] at h
    obtain ⟨⟨⟨⟨⟨⟨⟨⟨⟨h1, h2⟩, h3⟩, h4⟩, h5⟩, h6⟩, h7⟩, h8⟩, h9⟩, h10⟩ := h
    refine ⟨h1, h2, h3, h4, h5, h6, h7, h8.1, h8.2.1, h8.2.2.1, h8.2.2.2.1, h8.2.2.2.2, ?_, h10⟩
    simp only [Config.tables, List.forall_mem_cons, List.not_mem_nil, false_implies, implies_true, and_true]
    exact ⟨h9.1, h9.2.1, h9.2.2.1, h9.2.2.2⟩
  · intro g
    have ha := g.apart
    simp only [Config.tables, List.forall_mem_cons, List.not_mem_nil, false_implies, implies_true, and_true] at ha
    simp only [Config.wf, Config.regions, Config.tables, List.all_cons, List.all_nil, Bool.and_eq_true, decide_eq_true_eq,
      Bool.and_true]
    exact ⟨⟨⟨⟨⟨⟨⟨⟨⟨g.wordW, g.wide⟩, g.even⟩, g.half⟩, g.row⟩, g.xRes⟩, g.yRes⟩,
      ⟨g.fb, g.vsync, g.eq, g.blank, g.hblank⟩⟩, ⟨ha.1, ha.2.1, ha.2.2.1, ha.2.2.2⟩⟩, g.ext⟩

namespace Config.Good

variable {c : Config} (g : c.Good)
include g

theorem lineWords_pos : 2 ≤ c.lineWords := by
  have := g.half
  unfold Config.halfWords at this
  omega

theorem xw_pos : 1 ≤ c.xw := by
  have h1 := g.xRes
  have h2 := g.wide
  unfold Config.xw
  exact (Nat.le_div_iff_mul_le (by omega)).2 (by omega)

omit g in
/-- A word of the framebuffer, as an offset that fits. -/
theorem offset_lt {r i : Nat} (hr : r < c.yRes) (hi : i < c.lineWords) : r * c.lineWords + i < c.yRes * c.lineWords := by
  have : (r + 1) * c.lineWords ≤ c.yRes * c.lineWords := Nat.mul_le_mul_right _ hr
  rw [Nat.add_mul, Nat.one_mul] at this
  omega

/-- `FBW (r, i)` does not wrap (R34, R8(e)). -/
theorem fbw_toNat {r i : Nat} (hr : r < c.yRes) (hi : i < c.lineWords) :
    (c.fbw r i).toNat = c.fbBase.toNat + (r * c.lineWords + i) := by
  have h := Config.Good.offset_lt hr hi
  have hf := g.fb
  rw [Config.fbw, BitVec.toNat_add, BitVec.toNat_ofNat, Nat.mod_eq_of_lt (a := r * c.lineWords + i) (by omega),
    Nat.mod_eq_of_lt (by omega)]

theorem fbw_in_fb {r i : Nat} (hr : r < c.yRes) (hi : i < c.lineWords) : c.fbRegion.contains (c.fbw r i).toNat = true := by
  rw [Region.contains_iff, g.fbw_toNat hr hi]
  have h := Config.Good.offset_lt hr hi
  exact ⟨Nat.le_add_right _ _, Nat.add_lt_add_left h _⟩

/-- Different words of the framebuffer have different addresses. -/
theorem fbw_inj {r i r' i' : Nat} (hr : r < c.yRes) (hi : i < c.lineWords) (hr' : r' < c.yRes) (hi' : i' < c.lineWords)
    (h : c.fbw r i = c.fbw r' i') : r = r' ∧ i = i' := by
  have e := congrArg BitVec.toNat h
  rw [g.fbw_toNat hr hi, g.fbw_toNat hr' hi', Nat.add_left_cancel_iff] at e
  have hL := g.lineWords_pos
  have hdiv := congrArg (· / c.lineWords) e
  simp only [Nat.mul_comm _ c.lineWords, Nat.mul_add_div (show 0 < c.lineWords by omega), Nat.div_eq_of_lt hi,
    Nat.div_eq_of_lt hi', Nat.add_zero] at hdiv
  subst hdiv
  exact ⟨rfl, by omega⟩

/-- A table word is no framebuffer word (R8(e)). -/
theorem table_not_fb {t : Region} (ht : t ∈ c.tables) {a : Nat} (ha : t.contains a = true) : c.fbRegion.contains a = false := by
  have h := g.apart t ht
  rw [Region.contains_iff] at ha
  simp only [Region.disjoint, Bool.or_eq_true, decide_eq_true_eq] at h
  by_contra hc
  rw [Bool.not_eq_false, Region.contains_iff] at hc
  omega

theorem blank_toNat {i : Nat} (hi : i < c.lineWords) : (blankWordAddr c i).toNat = c.blankBase.toNat + i := by
  have hb := g.blank
  rw [blankWordAddr, BitVec.toNat_add, BitVec.toNat_ofNat, Nat.mod_eq_of_lt (a := i) (by omega), Nat.mod_eq_of_lt (by omega)]

theorem blank_in_table {i : Nat} (hi : i < c.lineWords) : c.blankRegion.contains (blankWordAddr c i).toNat = true := by
  rw [Region.contains_iff, g.blank_toNat hi]
  exact ⟨Nat.le_add_right _ _, Nat.add_lt_add_left hi _⟩

theorem fbw_ne_table {r i : Nat} (hr : r < c.yRes) (hi : i < c.lineWords) {t : Region} (ht : t ∈ c.tables) {a : Addr}
    (ha : t.contains a.toNat = true) : a ≠ c.fbw r i := by
  rintro rfl
  have := g.table_not_fb ht ha
  rw [g.fbw_in_fb hr hi] at this
  exact absurd this (by simp)

omit g in
theorem blankRegion_mem : c.blankRegion ∈ c.tables := by simp [Config.tables]

theorem blank_ne_fbw {r i j : Nat} (hr : r < c.yRes) (hi : i < c.lineWords) (hj : j < c.lineWords) :
    blankWordAddr c j ≠ c.fbw r i := g.fbw_ne_table hr hi Config.Good.blankRegion_mem (g.blank_in_table hj)

/-! ### Pixels (R37) -/

theorem wordMask_and (x : Nat) : x &&& c.wordMask = x % c.wordW := by
  unfold Config.wordMask
  rw [g.wordW, Nat.and_two_pow_sub_one_eq_mod]

theorem bitIndex_eq (x : Nat) : bitIndex c x = c.wordW - 1 - x % c.wordW := by rw [bitIndex, g.wordMask_and]

theorem bitIndex_lt (x : Nat) : bitIndex c x < c.wordW := by
  have := g.wide
  rw [g.bitIndex_eq]
  omega

theorem wordIndex_eq (x : Nat) : wordIndex c x = x / c.wordW + c.avo := by
  rw [wordIndex, Nat.shiftRight_eq_div_pow, ← g.wordW]

/-- A pixel's word lies after the prefix and within the active-video range (R37, R185). -/
theorem wordIndex_range {x : Nat} (hx : x < c.xRes) : c.avo ≤ wordIndex c x ∧ wordIndex c x < c.avo + c.xw := by
  rw [g.wordIndex_eq]
  have h2 := g.wide
  have : x / c.wordW < c.xw := by
    unfold Config.xw
    rw [Nat.div_lt_iff_lt_mul (by omega)]
    have := Nat.div_add_mod (c.xRes + c.wordW - 1) c.wordW
    have hm := Nat.mod_lt (c.xRes + c.wordW - 1) (show 0 < c.wordW by omega)
    rw [Nat.mul_comm] at this
    omega
  exact ⟨Nat.le_add_left _ _, by rw [Nat.add_comm c.avo]; exact Nat.add_lt_add_right this _⟩

theorem wordIndex_lt {x : Nat} (hx : x < c.xRes) : wordIndex c x < c.lineWords :=
  lt_of_lt_of_le (g.wordIndex_range hx).2 g.row

/-- A pixel is its word and its bit: two columns with the same word and bit are the same column. -/
theorem column_inj {x x' : Nat} (hw : wordIndex c x = wordIndex c x') (hb : bitIndex c x = bitIndex c x') : x = x' := by
  rw [g.wordIndex_eq, g.wordIndex_eq] at hw
  rw [g.bitIndex_eq, g.bitIndex_eq] at hb
  have h2 := g.wide
  have m1 := Nat.mod_lt x (show 0 < c.wordW by omega)
  have m2 := Nat.mod_lt x' (show 0 < c.wordW by omega)
  have hd : x / c.wordW = x' / c.wordW := by omega
  have hm : x % c.wordW = x' % c.wordW := by omega
  rw [← Nat.div_add_mod x c.wordW, ← Nat.div_add_mod x' c.wordW, hd, hm]

end Config.Good

/-- On a complete platform every word of the framebuffer is mapped (R62). -/
theorem Config.fbw_mapped {c : Config} (g : c.Good) (hp : c.platformComplete = true) {r i : Nat} (hr : r < c.yRes)
    (hi : i < c.lineWords) : c.mapped (c.fbw r i) = true := by
  have hh : c.holes = [] := by simpa [Config.platformComplete] using hp
  simp [Config.mapped, Config.regions, hh, g.fbw_in_fb hr hi]

/-- On a complete platform every table word is mapped (R62). -/
theorem Config.table_mapped {c : Config} (hp : c.platformComplete = true) {t : Region} (ht : t ∈ c.tables) {a : Addr}
    (ha : t.contains a.toNat = true) : c.mapped a = true := by
  have hh : c.holes = [] := by simpa [Config.platformComplete] using hp
  simp only [Config.mapped, Config.regions, hh, List.any_nil, Bool.not_false, Bool.and_true, List.any_eq_true]
  exact ⟨t, List.mem_cons_of_mem _ ht, ha⟩

namespace Machine

theorem inBounds_iff (c : Config) (x y : Int) :
    inBounds c x y = true ↔ 0 ≤ x ∧ x < c.xRes ∧ 0 ≤ y ∧ y < c.yRes := by simp [inBounds, and_assoc]

theorem inBounds_toNat {c : Config} {x y : Int} (h : inBounds c x y = true) : x.toNat < c.xRes ∧ y.toNat < c.yRes := by
  rw [inBounds_iff] at h
  omega

/-- The word of a pixel in range is a framebuffer word. -/
theorem pixelAddr_mapped {c : Config} (g : c.Good) (hp : c.platformComplete = true) {x y : Int} (h : inBounds c x y = true) :
    c.mapped (pixelAddr c x.toNat y.toNat) = true :=
  Config.fbw_mapped g hp (inBounds_toNat h).2 (g.wordIndex_lt (inBounds_toNat h).1)

end Machine

end Sys2Proof
end

