-- ==== Sys2Proof/Laws/State.lean ====
section
/-! SUPPORT. One lemma per field per named update of the state, true by `rfl`, so that no proof unfolds a record update. -/

namespace Sys2Proof.Machine

/-! ### storeWord -/

@[simp] theorem State.storeWord_cfg (s : State) (a : Addr) (v : WordVal) : (s.storeWord a v).cfg = s.cfg := rfl
@[simp] theorem State.storeWord_scanLine (s : State) (a : Addr) (v : WordVal) : (s.storeWord a v).scanLine = s.scanLine := rfl
@[simp] theorem State.storeWord_field (s : State) (a : Addr) (v : WordVal) : (s.storeWord a v).field = s.field := rfl
@[simp] theorem State.storeWord_vretrace (s : State) (a : Addr) (v : WordVal) : (s.storeWord a v).vretrace = s.vretrace := rfl
@[simp] theorem State.storeWord_srcPtr (s : State) (a : Addr) (v : WordVal) : (s.storeWord a v).srcPtr = s.srcPtr := rfl
@[simp] theorem State.storeWord_xferLen (s : State) (a : Addr) (v : WordVal) : (s.storeWord a v).xferLen = s.xferLen := rfl
@[simp] theorem State.storeWord_run (s : State) (a : Addr) (v : WordVal) : (s.storeWord a v).run = s.run := rfl
@[simp] theorem State.storeWord_pixact (s : State) (a : Addr) (v : WordVal) : (s.storeWord a v).pixact = s.pixact := rfl
@[simp] theorem State.storeWord_fbReady (s : State) (a : Addr) (v : WordVal) : (s.storeWord a v).fbReady = s.fbReady := rfl
@[simp] theorem State.storeWord_dmaAddr (s : State) (a : Addr) (v : WordVal) : (s.storeWord a v).dmaAddr = s.dmaAddr := rfl
@[simp] theorem State.storeWord_dmaRemain (s : State) (a : Addr) (v : WordVal) : (s.storeWord a v).dmaRemain = s.dmaRemain := rfl
@[simp] theorem State.storeWord_dmaBusy (s : State) (a : Addr) (v : WordVal) : (s.storeWord a v).dmaBusy = s.dmaBusy := rfl
@[simp] theorem State.storeWord_irqPending (s : State) (a : Addr) (v : WordVal) : (s.storeWord a v).irqPending = s.irqPending := rfl
@[simp] theorem State.storeWord_cmdBusy (s : State) (a : Addr) (v : WordVal) : (s.storeWord a v).cmdBusy = s.cmdBusy := rfl
@[simp] theorem State.storeWord_cmdFrame (s : State) (a : Addr) (v : WordVal) : (s.storeWord a v).cmdFrame = s.cmdFrame := rfl
@[simp] theorem State.storeWord_ustate (s : State) (a : Addr) (v : WordVal) : (s.storeWord a v).ustate = s.ustate := rfl
@[simp] theorem State.storeWord_wm (s : State) (a : Addr) (v : WordVal) : (s.storeWord a v).wm = Memory.write wmDefault s.wm a.toNat v := rfl
@[simp] theorem State.storeWord_bm (s : State) (a : Addr) (v : WordVal) : (s.storeWord a v).bm = s.bm := rfl
@[simp] theorem State.storeWord_out (s : State) (a : Addr) (v : WordVal) : (s.storeWord a v).out = s.out := rfl
@[simp] theorem State.storeWord_rsp (s : State) (a : Addr) (v : WordVal) : (s.storeWord a v).rsp = s.rsp := rfl
@[simp] theorem State.storeWord_turns (s : State) (a : Addr) (v : WordVal) : (s.storeWord a v).turns = s.turns := rfl

/-! ### respond -/

@[simp] theorem State.respond_cfg (s : State) (v : BitVec 32) : (s.respond v).cfg = s.cfg := rfl
@[simp] theorem State.respond_scanLine (s : State) (v : BitVec 32) : (s.respond v).scanLine = s.scanLine := rfl
@[simp] theorem State.respond_field (s : State) (v : BitVec 32) : (s.respond v).field = s.field := rfl
@[simp] theorem State.respond_vretrace (s : State) (v : BitVec 32) : (s.respond v).vretrace = s.vretrace := rfl
@[simp] theorem State.respond_srcPtr (s : State) (v : BitVec 32) : (s.respond v).srcPtr = s.srcPtr := rfl
@[simp] theorem State.respond_xferLen (s : State) (v : BitVec 32) : (s.respond v).xferLen = s.xferLen := rfl
@[simp] theorem State.respond_run (s : State) (v : BitVec 32) : (s.respond v).run = s.run := rfl
@[simp] theorem State.respond_pixact (s : State) (v : BitVec 32) : (s.respond v).pixact = s.pixact := rfl
@[simp] theorem State.respond_fbReady (s : State) (v : BitVec 32) : (s.respond v).fbReady = s.fbReady := rfl
@[simp] theorem State.respond_dmaAddr (s : State) (v : BitVec 32) : (s.respond v).dmaAddr = s.dmaAddr := rfl
@[simp] theorem State.respond_dmaRemain (s : State) (v : BitVec 32) : (s.respond v).dmaRemain = s.dmaRemain := rfl
@[simp] theorem State.respond_dmaBusy (s : State) (v : BitVec 32) : (s.respond v).dmaBusy = s.dmaBusy := rfl
@[simp] theorem State.respond_irqPending (s : State) (v : BitVec 32) : (s.respond v).irqPending = s.irqPending := rfl
@[simp] theorem State.respond_cmdBusy (s : State) (v : BitVec 32) : (s.respond v).cmdBusy = false := rfl
@[simp] theorem State.respond_cmdFrame (s : State) (v : BitVec 32) : (s.respond v).cmdFrame = s.cmdFrame := rfl
@[simp] theorem State.respond_ustate (s : State) (v : BitVec 32) : (s.respond v).ustate = .first := rfl
@[simp] theorem State.respond_wm (s : State) (v : BitVec 32) : (s.respond v).wm = s.wm := rfl
@[simp] theorem State.respond_bm (s : State) (v : BitVec 32) : (s.respond v).bm = s.bm := rfl
@[simp] theorem State.respond_out (s : State) (v : BitVec 32) : (s.respond v).out = s.out := rfl
@[simp] theorem State.respond_rsp (s : State) (v : BitVec 32) : (s.respond v).rsp = s.rsp ++ [v] := rfl
@[simp] theorem State.respond_turns (s : State) (v : BitVec 32) : (s.respond v).turns = s.turns := rfl

/-! ### setMicro -/

@[simp] theorem State.setMicro_cfg (s : State) (u : UState) : (s.setMicro u).cfg = s.cfg := rfl
@[simp] theorem State.setMicro_scanLine (s : State) (u : UState) : (s.setMicro u).scanLine = s.scanLine := rfl
@[simp] theorem State.setMicro_field (s : State) (u : UState) : (s.setMicro u).field = s.field := rfl
@[simp] theorem State.setMicro_vretrace (s : State) (u : UState) : (s.setMicro u).vretrace = s.vretrace := rfl
@[simp] theorem State.setMicro_srcPtr (s : State) (u : UState) : (s.setMicro u).srcPtr = s.srcPtr := rfl
@[simp] theorem State.setMicro_xferLen (s : State) (u : UState) : (s.setMicro u).xferLen = s.xferLen := rfl
@[simp] theorem State.setMicro_run (s : State) (u : UState) : (s.setMicro u).run = s.run := rfl
@[simp] theorem State.setMicro_pixact (s : State) (u : UState) : (s.setMicro u).pixact = s.pixact := rfl
@[simp] theorem State.setMicro_fbReady (s : State) (u : UState) : (s.setMicro u).fbReady = s.fbReady := rfl
@[simp] theorem State.setMicro_dmaAddr (s : State) (u : UState) : (s.setMicro u).dmaAddr = s.dmaAddr := rfl
@[simp] theorem State.setMicro_dmaRemain (s : State) (u : UState) : (s.setMicro u).dmaRemain = s.dmaRemain := rfl
@[simp] theorem State.setMicro_dmaBusy (s : State) (u : UState) : (s.setMicro u).dmaBusy = s.dmaBusy := rfl
@[simp] theorem State.setMicro_irqPending (s : State) (u : UState) : (s.setMicro u).irqPending = s.irqPending := rfl
@[simp] theorem State.setMicro_cmdBusy (s : State) (u : UState) : (s.setMicro u).cmdBusy = s.cmdBusy := rfl
@[simp] theorem State.setMicro_cmdFrame (s : State) (u : UState) : (s.setMicro u).cmdFrame = s.cmdFrame := rfl
@[simp] theorem State.setMicro_ustate (s : State) (u : UState) : (s.setMicro u).ustate = u := rfl
@[simp] theorem State.setMicro_wm (s : State) (u : UState) : (s.setMicro u).wm = s.wm := rfl
@[simp] theorem State.setMicro_bm (s : State) (u : UState) : (s.setMicro u).bm = s.bm := rfl
@[simp] theorem State.setMicro_out (s : State) (u : UState) : (s.setMicro u).out = s.out := rfl
@[simp] theorem State.setMicro_rsp (s : State) (u : UState) : (s.setMicro u).rsp = s.rsp := rfl
@[simp] theorem State.setMicro_turns (s : State) (u : UState) : (s.setMicro u).turns = s.turns := rfl

/-! ### present -/

@[simp] theorem State.present_cfg (s : State) (f : BitVec 128) : (s.present f).cfg = s.cfg := rfl
@[simp] theorem State.present_scanLine (s : State) (f : BitVec 128) : (s.present f).scanLine = s.scanLine := rfl
@[simp] theorem State.present_field (s : State) (f : BitVec 128) : (s.present f).field = s.field := rfl
@[simp] theorem State.present_vretrace (s : State) (f : BitVec 128) : (s.present f).vretrace = s.vretrace := rfl
@[simp] theorem State.present_srcPtr (s : State) (f : BitVec 128) : (s.present f).srcPtr = s.srcPtr := rfl
@[simp] theorem State.present_xferLen (s : State) (f : BitVec 128) : (s.present f).xferLen = s.xferLen := rfl
@[simp] theorem State.present_run (s : State) (f : BitVec 128) : (s.present f).run = s.run := rfl
@[simp] theorem State.present_pixact (s : State) (f : BitVec 128) : (s.present f).pixact = s.pixact := rfl
@[simp] theorem State.present_fbReady (s : State) (f : BitVec 128) : (s.present f).fbReady = s.fbReady := rfl
@[simp] theorem State.present_dmaAddr (s : State) (f : BitVec 128) : (s.present f).dmaAddr = s.dmaAddr := rfl
@[simp] theorem State.present_dmaRemain (s : State) (f : BitVec 128) : (s.present f).dmaRemain = s.dmaRemain := rfl
@[simp] theorem State.present_dmaBusy (s : State) (f : BitVec 128) : (s.present f).dmaBusy = s.dmaBusy := rfl
@[simp] theorem State.present_irqPending (s : State) (f : BitVec 128) : (s.present f).irqPending = s.irqPending := rfl
@[simp] theorem State.present_cmdBusy (s : State) (f : BitVec 128) : (s.present f).cmdBusy = true := rfl
@[simp] theorem State.present_cmdFrame (s : State) (f : BitVec 128) : (s.present f).cmdFrame = f := rfl
@[simp] theorem State.present_ustate (s : State) (f : BitVec 128) : (s.present f).ustate = .first := rfl
@[simp] theorem State.present_wm (s : State) (f : BitVec 128) : (s.present f).wm = s.wm := rfl
@[simp] theorem State.present_bm (s : State) (f : BitVec 128) : (s.present f).bm = s.bm := rfl
@[simp] theorem State.present_out (s : State) (f : BitVec 128) : (s.present f).out = s.out := rfl
@[simp] theorem State.present_rsp (s : State) (f : BitVec 128) : (s.present f).rsp = s.rsp := rfl
@[simp] theorem State.present_turns (s : State) (f : BitVec 128) : (s.present f).turns = s.turns := rfl

/-! ### setPixact -/

@[simp] theorem State.setPixact_cfg (s : State) (a : PixAct) : (s.setPixact a).cfg = s.cfg := rfl
@[simp] theorem State.setPixact_scanLine (s : State) (a : PixAct) : (s.setPixact a).scanLine = s.scanLine := rfl
@[simp] theorem State.setPixact_field (s : State) (a : PixAct) : (s.setPixact a).field = s.field := rfl
@[simp] theorem State.setPixact_vretrace (s : State) (a : PixAct) : (s.setPixact a).vretrace = s.vretrace := rfl
@[simp] theorem State.setPixact_srcPtr (s : State) (a : PixAct) : (s.setPixact a).srcPtr = s.srcPtr := rfl
@[simp] theorem State.setPixact_xferLen (s : State) (a : PixAct) : (s.setPixact a).xferLen = s.xferLen := rfl
@[simp] theorem State.setPixact_run (s : State) (a : PixAct) : (s.setPixact a).run = s.run := rfl
@[simp] theorem State.setPixact_pixact (s : State) (a : PixAct) : (s.setPixact a).pixact = a := rfl
@[simp] theorem State.setPixact_fbReady (s : State) (a : PixAct) : (s.setPixact a).fbReady = s.fbReady := rfl
@[simp] theorem State.setPixact_dmaAddr (s : State) (a : PixAct) : (s.setPixact a).dmaAddr = s.dmaAddr := rfl
@[simp] theorem State.setPixact_dmaRemain (s : State) (a : PixAct) : (s.setPixact a).dmaRemain = s.dmaRemain := rfl
@[simp] theorem State.setPixact_dmaBusy (s : State) (a : PixAct) : (s.setPixact a).dmaBusy = s.dmaBusy := rfl
@[simp] theorem State.setPixact_irqPending (s : State) (a : PixAct) : (s.setPixact a).irqPending = s.irqPending := rfl
@[simp] theorem State.setPixact_cmdBusy (s : State) (a : PixAct) : (s.setPixact a).cmdBusy = s.cmdBusy := rfl
@[simp] theorem State.setPixact_cmdFrame (s : State) (a : PixAct) : (s.setPixact a).cmdFrame = s.cmdFrame := rfl
@[simp] theorem State.setPixact_ustate (s : State) (a : PixAct) : (s.setPixact a).ustate = s.ustate := rfl
@[simp] theorem State.setPixact_wm (s : State) (a : PixAct) : (s.setPixact a).wm = s.wm := rfl
@[simp] theorem State.setPixact_bm (s : State) (a : PixAct) : (s.setPixact a).bm = s.bm := rfl
@[simp] theorem State.setPixact_out (s : State) (a : PixAct) : (s.setPixact a).out = s.out := rfl
@[simp] theorem State.setPixact_rsp (s : State) (a : PixAct) : (s.setPixact a).rsp = s.rsp := rfl
@[simp] theorem State.setPixact_turns (s : State) (a : PixAct) : (s.setPixact a).turns = s.turns := rfl

/-! ### markReady -/

@[simp] theorem State.markReady_cfg (s : State) : s.markReady.cfg = s.cfg := rfl
@[simp] theorem State.markReady_scanLine (s : State) : s.markReady.scanLine = s.scanLine := rfl
@[simp] theorem State.markReady_field (s : State) : s.markReady.field = s.field := rfl
@[simp] theorem State.markReady_vretrace (s : State) : s.markReady.vretrace = s.vretrace := rfl
@[simp] theorem State.markReady_srcPtr (s : State) : s.markReady.srcPtr = s.srcPtr := rfl
@[simp] theorem State.markReady_xferLen (s : State) : s.markReady.xferLen = s.xferLen := rfl
@[simp] theorem State.markReady_run (s : State) : s.markReady.run = s.run := rfl
@[simp] theorem State.markReady_pixact (s : State) : s.markReady.pixact = s.pixact := rfl
@[simp] theorem State.markReady_fbReady (s : State) : s.markReady.fbReady = true := rfl
@[simp] theorem State.markReady_dmaAddr (s : State) : s.markReady.dmaAddr = s.dmaAddr := rfl
@[simp] theorem State.markReady_dmaRemain (s : State) : s.markReady.dmaRemain = s.dmaRemain := rfl
@[simp] theorem State.markReady_dmaBusy (s : State) : s.markReady.dmaBusy = s.dmaBusy := rfl
@[simp] theorem State.markReady_irqPending (s : State) : s.markReady.irqPending = s.irqPending := rfl
@[simp] theorem State.markReady_cmdBusy (s : State) : s.markReady.cmdBusy = s.cmdBusy := rfl
@[simp] theorem State.markReady_cmdFrame (s : State) : s.markReady.cmdFrame = s.cmdFrame := rfl
@[simp] theorem State.markReady_ustate (s : State) : s.markReady.ustate = s.ustate := rfl
@[simp] theorem State.markReady_wm (s : State) : s.markReady.wm = s.wm := rfl
@[simp] theorem State.markReady_bm (s : State) : s.markReady.bm = s.bm := rfl
@[simp] theorem State.markReady_out (s : State) : s.markReady.out = s.out := rfl
@[simp] theorem State.markReady_rsp (s : State) : s.markReady.rsp = s.rsp := rfl
@[simp] theorem State.markReady_turns (s : State) : s.markReady.turns = s.turns := rfl

/-! ### markRun -/

@[simp] theorem State.markRun_cfg (s : State) : s.markRun.cfg = s.cfg := rfl
@[simp] theorem State.markRun_scanLine (s : State) : s.markRun.scanLine = s.scanLine := rfl
@[simp] theorem State.markRun_field (s : State) : s.markRun.field = s.field := rfl
@[simp] theorem State.markRun_vretrace (s : State) : s.markRun.vretrace = s.vretrace := rfl
@[simp] theorem State.markRun_srcPtr (s : State) : s.markRun.srcPtr = s.srcPtr := rfl
@[simp] theorem State.markRun_xferLen (s : State) : s.markRun.xferLen = s.xferLen := rfl
@[simp] theorem State.markRun_run (s : State) : s.markRun.run = true := rfl
@[simp] theorem State.markRun_pixact (s : State) : s.markRun.pixact = s.pixact := rfl
@[simp] theorem State.markRun_fbReady (s : State) : s.markRun.fbReady = s.fbReady := rfl
@[simp] theorem State.markRun_dmaAddr (s : State) : s.markRun.dmaAddr = s.dmaAddr := rfl
@[simp] theorem State.markRun_dmaRemain (s : State) : s.markRun.dmaRemain = s.dmaRemain := rfl
@[simp] theorem State.markRun_dmaBusy (s : State) : s.markRun.dmaBusy = s.dmaBusy := rfl
@[simp] theorem State.markRun_irqPending (s : State) : s.markRun.irqPending = s.irqPending := rfl
@[simp] theorem State.markRun_cmdBusy (s : State) : s.markRun.cmdBusy = s.cmdBusy := rfl
@[simp] theorem State.markRun_cmdFrame (s : State) : s.markRun.cmdFrame = s.cmdFrame := rfl
@[simp] theorem State.markRun_ustate (s : State) : s.markRun.ustate = s.ustate := rfl
@[simp] theorem State.markRun_wm (s : State) : s.markRun.wm = s.wm := rfl
@[simp] theorem State.markRun_bm (s : State) : s.markRun.bm = s.bm := rfl
@[simp] theorem State.markRun_out (s : State) : s.markRun.out = s.out := rfl
@[simp] theorem State.markRun_rsp (s : State) : s.markRun.rsp = s.rsp := rfl
@[simp] theorem State.markRun_turns (s : State) : s.markRun.turns = s.turns := rfl

/-! ### setTransfer -/

@[simp] theorem State.setTransfer_cfg (s : State) (p : Addr) (n : Nat) : (s.setTransfer p n).cfg = s.cfg := rfl
@[simp] theorem State.setTransfer_scanLine (s : State) (p : Addr) (n : Nat) : (s.setTransfer p n).scanLine = s.scanLine := rfl
@[simp] theorem State.setTransfer_field (s : State) (p : Addr) (n : Nat) : (s.setTransfer p n).field = s.field := rfl
@[simp] theorem State.setTransfer_vretrace (s : State) (p : Addr) (n : Nat) : (s.setTransfer p n).vretrace = s.vretrace := rfl
@[simp] theorem State.setTransfer_srcPtr (s : State) (p : Addr) (n : Nat) : (s.setTransfer p n).srcPtr = p := rfl
@[simp] theorem State.setTransfer_xferLen (s : State) (p : Addr) (n : Nat) : (s.setTransfer p n).xferLen = BitVec.ofNat 32 n := rfl
@[simp] theorem State.setTransfer_run (s : State) (p : Addr) (n : Nat) : (s.setTransfer p n).run = s.run := rfl
@[simp] theorem State.setTransfer_pixact (s : State) (p : Addr) (n : Nat) : (s.setTransfer p n).pixact = s.pixact := rfl
@[simp] theorem State.setTransfer_fbReady (s : State) (p : Addr) (n : Nat) : (s.setTransfer p n).fbReady = s.fbReady := rfl
@[simp] theorem State.setTransfer_dmaAddr (s : State) (p : Addr) (n : Nat) : (s.setTransfer p n).dmaAddr = s.dmaAddr := rfl
@[simp] theorem State.setTransfer_dmaRemain (s : State) (p : Addr) (n : Nat) : (s.setTransfer p n).dmaRemain = s.dmaRemain := rfl
@[simp] theorem State.setTransfer_dmaBusy (s : State) (p : Addr) (n : Nat) : (s.setTransfer p n).dmaBusy = s.dmaBusy := rfl
@[simp] theorem State.setTransfer_irqPending (s : State) (p : Addr) (n : Nat) : (s.setTransfer p n).irqPending = s.irqPending := rfl
@[simp] theorem State.setTransfer_cmdBusy (s : State) (p : Addr) (n : Nat) : (s.setTransfer p n).cmdBusy = s.cmdBusy := rfl
@[simp] theorem State.setTransfer_cmdFrame (s : State) (p : Addr) (n : Nat) : (s.setTransfer p n).cmdFrame = s.cmdFrame := rfl
@[simp] theorem State.setTransfer_ustate (s : State) (p : Addr) (n : Nat) : (s.setTransfer p n).ustate = s.ustate := rfl
@[simp] theorem State.setTransfer_wm (s : State) (p : Addr) (n : Nat) : (s.setTransfer p n).wm = s.wm := rfl
@[simp] theorem State.setTransfer_bm (s : State) (p : Addr) (n : Nat) : (s.setTransfer p n).bm = s.bm := rfl
@[simp] theorem State.setTransfer_out (s : State) (p : Addr) (n : Nat) : (s.setTransfer p n).out = s.out := rfl
@[simp] theorem State.setTransfer_rsp (s : State) (p : Addr) (n : Nat) : (s.setTransfer p n).rsp = s.rsp := rfl
@[simp] theorem State.setTransfer_turns (s : State) (p : Addr) (n : Nat) : (s.setTransfer p n).turns = s.turns := rfl

/-! ### setRetrace -/

@[simp] theorem State.setRetrace_cfg (s : State) (v : Bool) : (s.setRetrace v).cfg = s.cfg := rfl
@[simp] theorem State.setRetrace_scanLine (s : State) (v : Bool) : (s.setRetrace v).scanLine = s.scanLine := rfl
@[simp] theorem State.setRetrace_field (s : State) (v : Bool) : (s.setRetrace v).field = s.field := rfl
@[simp] theorem State.setRetrace_vretrace (s : State) (v : Bool) : (s.setRetrace v).vretrace = v := rfl
@[simp] theorem State.setRetrace_srcPtr (s : State) (v : Bool) : (s.setRetrace v).srcPtr = s.srcPtr := rfl
@[simp] theorem State.setRetrace_xferLen (s : State) (v : Bool) : (s.setRetrace v).xferLen = s.xferLen := rfl
@[simp] theorem State.setRetrace_run (s : State) (v : Bool) : (s.setRetrace v).run = s.run := rfl
@[simp] theorem State.setRetrace_pixact (s : State) (v : Bool) : (s.setRetrace v).pixact = s.pixact := rfl
@[simp] theorem State.setRetrace_fbReady (s : State) (v : Bool) : (s.setRetrace v).fbReady = s.fbReady := rfl
@[simp] theorem State.setRetrace_dmaAddr (s : State) (v : Bool) : (s.setRetrace v).dmaAddr = s.dmaAddr := rfl
@[simp] theorem State.setRetrace_dmaRemain (s : State) (v : Bool) : (s.setRetrace v).dmaRemain = s.dmaRemain := rfl
@[simp] theorem State.setRetrace_dmaBusy (s : State) (v : Bool) : (s.setRetrace v).dmaBusy = s.dmaBusy := rfl
@[simp] theorem State.setRetrace_irqPending (s : State) (v : Bool) : (s.setRetrace v).irqPending = s.irqPending := rfl
@[simp] theorem State.setRetrace_cmdBusy (s : State) (v : Bool) : (s.setRetrace v).cmdBusy = s.cmdBusy := rfl
@[simp] theorem State.setRetrace_cmdFrame (s : State) (v : Bool) : (s.setRetrace v).cmdFrame = s.cmdFrame := rfl
@[simp] theorem State.setRetrace_ustate (s : State) (v : Bool) : (s.setRetrace v).ustate = s.ustate := rfl
@[simp] theorem State.setRetrace_wm (s : State) (v : Bool) : (s.setRetrace v).wm = s.wm := rfl
@[simp] theorem State.setRetrace_bm (s : State) (v : Bool) : (s.setRetrace v).bm = s.bm := rfl
@[simp] theorem State.setRetrace_out (s : State) (v : Bool) : (s.setRetrace v).out = s.out := rfl
@[simp] theorem State.setRetrace_rsp (s : State) (v : Bool) : (s.setRetrace v).rsp = s.rsp := rfl
@[simp] theorem State.setRetrace_turns (s : State) (v : Bool) : (s.setRetrace v).turns = s.turns := rfl

/-! ### advanceCursor -/

@[simp] theorem State.advanceCursor_cfg (s : State) : s.advanceCursor.cfg = s.cfg := rfl
@[simp] theorem State.advanceCursor_scanLine (s : State) : s.advanceCursor.scanLine = nextLine s.scanLine := rfl
@[simp] theorem State.advanceCursor_field (s : State) : s.advanceCursor.field = nextField s.field s.scanLine := rfl
@[simp] theorem State.advanceCursor_vretrace (s : State) : s.advanceCursor.vretrace = s.vretrace := rfl
@[simp] theorem State.advanceCursor_srcPtr (s : State) : s.advanceCursor.srcPtr = s.srcPtr := rfl
@[simp] theorem State.advanceCursor_xferLen (s : State) : s.advanceCursor.xferLen = s.xferLen := rfl
@[simp] theorem State.advanceCursor_run (s : State) : s.advanceCursor.run = s.run := rfl
@[simp] theorem State.advanceCursor_pixact (s : State) : s.advanceCursor.pixact = s.pixact := rfl
@[simp] theorem State.advanceCursor_fbReady (s : State) : s.advanceCursor.fbReady = s.fbReady := rfl
@[simp] theorem State.advanceCursor_dmaAddr (s : State) : s.advanceCursor.dmaAddr = s.dmaAddr := rfl
@[simp] theorem State.advanceCursor_dmaRemain (s : State) : s.advanceCursor.dmaRemain = s.dmaRemain := rfl
@[simp] theorem State.advanceCursor_dmaBusy (s : State) : s.advanceCursor.dmaBusy = s.dmaBusy := rfl
@[simp] theorem State.advanceCursor_irqPending (s : State) : s.advanceCursor.irqPending = s.irqPending := rfl
@[simp] theorem State.advanceCursor_cmdBusy (s : State) : s.advanceCursor.cmdBusy = s.cmdBusy := rfl
@[simp] theorem State.advanceCursor_cmdFrame (s : State) : s.advanceCursor.cmdFrame = s.cmdFrame := rfl
@[simp] theorem State.advanceCursor_ustate (s : State) : s.advanceCursor.ustate = s.ustate := rfl
@[simp] theorem State.advanceCursor_wm (s : State) : s.advanceCursor.wm = s.wm := rfl
@[simp] theorem State.advanceCursor_bm (s : State) : s.advanceCursor.bm = s.bm := rfl
@[simp] theorem State.advanceCursor_out (s : State) : s.advanceCursor.out = s.out := rfl
@[simp] theorem State.advanceCursor_rsp (s : State) : s.advanceCursor.rsp = s.rsp := rfl
@[simp] theorem State.advanceCursor_turns (s : State) : s.advanceCursor.turns = s.turns := rfl

/-! ### openTransfer -/

@[simp] theorem State.openTransfer_cfg (s : State) : s.openTransfer.cfg = s.cfg := rfl
@[simp] theorem State.openTransfer_scanLine (s : State) : s.openTransfer.scanLine = s.scanLine := rfl
@[simp] theorem State.openTransfer_field (s : State) : s.openTransfer.field = s.field := rfl
@[simp] theorem State.openTransfer_vretrace (s : State) : s.openTransfer.vretrace = s.vretrace := rfl
@[simp] theorem State.openTransfer_srcPtr (s : State) : s.openTransfer.srcPtr = s.srcPtr := rfl
@[simp] theorem State.openTransfer_xferLen (s : State) : s.openTransfer.xferLen = s.xferLen := rfl
@[simp] theorem State.openTransfer_run (s : State) : s.openTransfer.run = s.run := rfl
@[simp] theorem State.openTransfer_pixact (s : State) : s.openTransfer.pixact = s.pixact := rfl
@[simp] theorem State.openTransfer_fbReady (s : State) : s.openTransfer.fbReady = s.fbReady := rfl
@[simp] theorem State.openTransfer_dmaAddr (s : State) : s.openTransfer.dmaAddr = s.srcPtr := rfl
@[simp] theorem State.openTransfer_dmaRemain (s : State) : s.openTransfer.dmaRemain = s.xferLen := rfl
@[simp] theorem State.openTransfer_dmaBusy (s : State) : s.openTransfer.dmaBusy = true := rfl
@[simp] theorem State.openTransfer_irqPending (s : State) : s.openTransfer.irqPending = false := rfl
@[simp] theorem State.openTransfer_cmdBusy (s : State) : s.openTransfer.cmdBusy = s.cmdBusy := rfl
@[simp] theorem State.openTransfer_cmdFrame (s : State) : s.openTransfer.cmdFrame = s.cmdFrame := rfl
@[simp] theorem State.openTransfer_ustate (s : State) : s.openTransfer.ustate = s.ustate := rfl
@[simp] theorem State.openTransfer_wm (s : State) : s.openTransfer.wm = s.wm := rfl
@[simp] theorem State.openTransfer_bm (s : State) : s.openTransfer.bm = s.bm := rfl
@[simp] theorem State.openTransfer_out (s : State) : s.openTransfer.out = s.out ++ [{ src := s.srcPtr, len := s.xferLen, words := [] }] := rfl
@[simp] theorem State.openTransfer_rsp (s : State) : s.openTransfer.rsp = s.rsp := rfl
@[simp] theorem State.openTransfer_turns (s : State) : s.openTransfer.turns = s.turns := rfl

/-! ### emitWord -/

@[simp] theorem State.emitWord_cfg (s : State) : s.emitWord.cfg = s.cfg := rfl
@[simp] theorem State.emitWord_scanLine (s : State) : s.emitWord.scanLine = s.scanLine := rfl
@[simp] theorem State.emitWord_field (s : State) : s.emitWord.field = s.field := rfl
@[simp] theorem State.emitWord_vretrace (s : State) : s.emitWord.vretrace = s.vretrace := rfl
@[simp] theorem State.emitWord_srcPtr (s : State) : s.emitWord.srcPtr = s.srcPtr := rfl
@[simp] theorem State.emitWord_xferLen (s : State) : s.emitWord.xferLen = s.xferLen := rfl
@[simp] theorem State.emitWord_run (s : State) : s.emitWord.run = s.run := rfl
@[simp] theorem State.emitWord_pixact (s : State) : s.emitWord.pixact = s.pixact := rfl
@[simp] theorem State.emitWord_fbReady (s : State) : s.emitWord.fbReady = s.fbReady := rfl
@[simp] theorem State.emitWord_dmaAddr (s : State) : s.emitWord.dmaAddr = s.dmaAddr + 1 := rfl
@[simp] theorem State.emitWord_dmaRemain (s : State) : s.emitWord.dmaRemain = s.dmaRemain - 1 := rfl
@[simp] theorem State.emitWord_dmaBusy (s : State) : s.emitWord.dmaBusy = s.dmaBusy := rfl
@[simp] theorem State.emitWord_irqPending (s : State) : s.emitWord.irqPending = s.irqPending := rfl
@[simp] theorem State.emitWord_cmdBusy (s : State) : s.emitWord.cmdBusy = s.cmdBusy := rfl
@[simp] theorem State.emitWord_cmdFrame (s : State) : s.emitWord.cmdFrame = s.cmdFrame := rfl
@[simp] theorem State.emitWord_ustate (s : State) : s.emitWord.ustate = s.ustate := rfl
@[simp] theorem State.emitWord_wm (s : State) : s.emitWord.wm = s.wm := rfl
@[simp] theorem State.emitWord_bm (s : State) : s.emitWord.bm = s.bm := rfl
@[simp] theorem State.emitWord_out (s : State) : s.emitWord.out = appendWord s.out (s.readWord s.dmaAddr) := rfl
@[simp] theorem State.emitWord_rsp (s : State) : s.emitWord.rsp = s.rsp := rfl
@[simp] theorem State.emitWord_turns (s : State) : s.emitWord.turns = s.turns := rfl

/-! ### raiseCompletion -/

@[simp] theorem State.raiseCompletion_cfg (s : State) : s.raiseCompletion.cfg = s.cfg := rfl
@[simp] theorem State.raiseCompletion_scanLine (s : State) : s.raiseCompletion.scanLine = s.scanLine := rfl
@[simp] theorem State.raiseCompletion_field (s : State) : s.raiseCompletion.field = s.field := rfl
@[simp] theorem State.raiseCompletion_vretrace (s : State) : s.raiseCompletion.vretrace = s.vretrace := rfl
@[simp] theorem State.raiseCompletion_srcPtr (s : State) : s.raiseCompletion.srcPtr = s.srcPtr := rfl
@[simp] theorem State.raiseCompletion_xferLen (s : State) : s.raiseCompletion.xferLen = s.xferLen := rfl
@[simp] theorem State.raiseCompletion_run (s : State) : s.raiseCompletion.run = s.run := rfl
@[simp] theorem State.raiseCompletion_pixact (s : State) : s.raiseCompletion.pixact = s.pixact := rfl
@[simp] theorem State.raiseCompletion_fbReady (s : State) : s.raiseCompletion.fbReady = s.fbReady := rfl
@[simp] theorem State.raiseCompletion_dmaAddr (s : State) : s.raiseCompletion.dmaAddr = s.dmaAddr := rfl
@[simp] theorem State.raiseCompletion_dmaRemain (s : State) : s.raiseCompletion.dmaRemain = s.dmaRemain := rfl
@[simp] theorem State.raiseCompletion_dmaBusy (s : State) : s.raiseCompletion.dmaBusy = false := rfl
@[simp] theorem State.raiseCompletion_irqPending (s : State) : s.raiseCompletion.irqPending = true := rfl
@[simp] theorem State.raiseCompletion_cmdBusy (s : State) : s.raiseCompletion.cmdBusy = s.cmdBusy := rfl
@[simp] theorem State.raiseCompletion_cmdFrame (s : State) : s.raiseCompletion.cmdFrame = s.cmdFrame := rfl
@[simp] theorem State.raiseCompletion_ustate (s : State) : s.raiseCompletion.ustate = s.ustate := rfl
@[simp] theorem State.raiseCompletion_wm (s : State) : s.raiseCompletion.wm = s.wm := rfl
@[simp] theorem State.raiseCompletion_bm (s : State) : s.raiseCompletion.bm = s.bm := rfl
@[simp] theorem State.raiseCompletion_out (s : State) : s.raiseCompletion.out = s.out := rfl
@[simp] theorem State.raiseCompletion_rsp (s : State) : s.raiseCompletion.rsp = s.rsp := rfl
@[simp] theorem State.raiseCompletion_turns (s : State) : s.raiseCompletion.turns = s.turns := rfl

/-! ### setTurns -/

@[simp] theorem State.setTurns_cfg (s : State) (ts : List Turn) : (s.setTurns ts).cfg = s.cfg := rfl
@[simp] theorem State.setTurns_scanLine (s : State) (ts : List Turn) : (s.setTurns ts).scanLine = s.scanLine := rfl
@[simp] theorem State.setTurns_field (s : State) (ts : List Turn) : (s.setTurns ts).field = s.field := rfl
@[simp] theorem State.setTurns_vretrace (s : State) (ts : List Turn) : (s.setTurns ts).vretrace = s.vretrace := rfl
@[simp] theorem State.setTurns_srcPtr (s : State) (ts : List Turn) : (s.setTurns ts).srcPtr = s.srcPtr := rfl
@[simp] theorem State.setTurns_xferLen (s : State) (ts : List Turn) : (s.setTurns ts).xferLen = s.xferLen := rfl
@[simp] theorem State.setTurns_run (s : State) (ts : List Turn) : (s.setTurns ts).run = s.run := rfl
@[simp] theorem State.setTurns_pixact (s : State) (ts : List Turn) : (s.setTurns ts).pixact = s.pixact := rfl
@[simp] theorem State.setTurns_fbReady (s : State) (ts : List Turn) : (s.setTurns ts).fbReady = s.fbReady := rfl
@[simp] theorem State.setTurns_dmaAddr (s : State) (ts : List Turn) : (s.setTurns ts).dmaAddr = s.dmaAddr := rfl
@[simp] theorem State.setTurns_dmaRemain (s : State) (ts : List Turn) : (s.setTurns ts).dmaRemain = s.dmaRemain := rfl
@[simp] theorem State.setTurns_dmaBusy (s : State) (ts : List Turn) : (s.setTurns ts).dmaBusy = s.dmaBusy := rfl
@[simp] theorem State.setTurns_irqPending (s : State) (ts : List Turn) : (s.setTurns ts).irqPending = s.irqPending := rfl
@[simp] theorem State.setTurns_cmdBusy (s : State) (ts : List Turn) : (s.setTurns ts).cmdBusy = s.cmdBusy := rfl
@[simp] theorem State.setTurns_cmdFrame (s : State) (ts : List Turn) : (s.setTurns ts).cmdFrame = s.cmdFrame := rfl
@[simp] theorem State.setTurns_ustate (s : State) (ts : List Turn) : (s.setTurns ts).ustate = s.ustate := rfl
@[simp] theorem State.setTurns_wm (s : State) (ts : List Turn) : (s.setTurns ts).wm = s.wm := rfl
@[simp] theorem State.setTurns_bm (s : State) (ts : List Turn) : (s.setTurns ts).bm = s.bm := rfl
@[simp] theorem State.setTurns_out (s : State) (ts : List Turn) : (s.setTurns ts).out = s.out := rfl
@[simp] theorem State.setTurns_rsp (s : State) (ts : List Turn) : (s.setTurns ts).rsp = s.rsp := rfl
@[simp] theorem State.setTurns_turns (s : State) (ts : List Turn) : (s.setTurns ts).turns = ts := rfl

end Sys2Proof.Machine
end

