-- ==== Sys2Proof/Laws/Commands.lean ====
section
/-! SUPPORT. What a shared operation and a command's step can do, said once: the spec lemmas of `andThen`, `ifReady`, `storeStep`,
`gpixStep` and `walkStep`, and `exec_shape`, the inversion lemma of every command's step. -/

namespace Sys2Proof.Machine

theorem andThen_next {r : Result} {k : State → Result} {t : State} :
    andThen r k = .next t ↔ ∃ u, r = .next u ∧ k u = .next t := by
  cases r <;> simp [andThen]

@[simp] theorem andThen_of_next (s : State) (k : State → Result) : andThen (.next s) k = k s := rfl
@[simp] theorem andThen_of_fault (e : Fault) (k : State → Result) : andThen (.fault e) k = .fault e := rfl
@[simp] theorem andThen_of_refused (e : Refusal) (k : State → Result) : andThen (.refused e) k = .refused e := rfl

theorem ifReady_next {s t : State} {k : State → Result} :
    ifReady s k = .next t ↔ (s.fbReady = true ∧ k s = .next t) ∨ (s.fbReady = false ∧ t = s.respond 0) := by
  unfold ifReady
  cases s.fbReady <;> simp [eq_comm]

theorem storeStep_next {s t : State} {a : Addr} {v : WordVal} {k : State → Result} :
    storeStep s a v k = .next t ↔ s.cfg.mapped a = true ∧ k (s.storeWord a v) = .next t := by
  unfold storeStep
  cases s.cfg.mapped a <;> simp

/-- Everything a step of `GPIX` can do (R181 to R183). -/
theorem gpixStep_next {x y : Int} {ph : PixPhase} {f : PixPhase → UState} {s t : State} {k : State → Result}
    (h : gpixStep x y ph f s k = .next t) :
    (ph = .entry ∧ inBounds s.cfg x y = true ∧ t = s.setMicro (f .poll)) ∨
    (ph = .entry ∧ inBounds s.cfg x y = false ∧ k s = .next t) ∨
    (ph = .poll ∧ s.vretrace = true ∧ t = s.setMicro (f .write)) ∨
    (ph = .poll ∧ s.vretrace = false ∧ t = s) ∨
    (ph = .write ∧ s.cfg.mapped (pixelAddr s.cfg x.toNat y.toNat) = true ∧
      k (s.storeWord (pixelAddr s.cfg x.toNat y.toNat)
        (pixelResult s.cfg s.pixact x.toNat (s.readWord (pixelAddr s.cfg x.toNat y.toNat)))) = .next t) := by
  cases ph with
  | entry =>
    by_cases hb : inBounds s.cfg x y = true
    · simp only [gpixStep, hb, if_true, Host.Outcome.next.injEq] at h
      exact .inl ⟨rfl, hb, h.symm⟩
    · simp only [gpixStep, hb, Bool.false_eq_true, if_false] at h
      exact .inr (.inl ⟨rfl, by simpa using hb, h⟩)
  | poll =>
    by_cases hv : s.vretrace = true
    · simp only [gpixStep, hv, if_true, Host.Outcome.next.injEq] at h
      exact .inr (.inr (.inl ⟨rfl, hv, h.symm⟩))
    · simp only [gpixStep, hv, Bool.false_eq_true, if_false, Host.Outcome.next.injEq] at h
      exact .inr (.inr (.inr (.inl ⟨rfl, by simpa using hv, h.symm⟩)))
  | write => exact .inr (.inr (.inr (.inr ⟨rfl, storeStep_next.1 h⟩)))

/-- After the point of `w`: the continuation at the end of the line, else the next point (R201). -/
def walkNext (g : Seg) (w : Walk) (f : Walk → PixPhase → UState) (k : State → Result) (t : State) : Result :=
  if g.isEnd w then k t else .next (t.setMicro (f (g.advance w) .entry))

theorem walkStep_eq (g : Seg) (w : Walk) (ph : PixPhase) (f : Walk → PixPhase → UState) (s : State) (k : State → Result) :
    walkStep g w ph f s k = gpixStep w.x w.y ph (f w) s (walkNext g w f k) := rfl

theorem walkNext_next {g : Seg} {w : Walk} {f : Walk → PixPhase → UState} {k : State → Result} {s t : State} :
    walkNext g w f k s = .next t ↔
      (g.isEnd w = true ∧ k s = .next t) ∨ (g.isEnd w = false ∧ t = s.setMicro (f (g.advance w) .entry)) := by
  unfold walkNext
  cases g.isEnd w <;> simp [eq_comm]

theorem boxAfterEdge_next {g : Seg} {e : Fin 4} {s t : State} (h : boxAfterEdge g e s = .next t) :
    (∃ e' : Fin 4, t = s.setMicro (.box e' (boxEdge g e').begin .entry)) ∨ t = s.respond 0 := by
  unfold boxAfterEdge at h
  split at h
  · exact .inl ⟨_, (Host.Outcome.next.inj h).symm⟩
  · exact .inr (Host.Outcome.next.inj h).symm

/-- After a column: the next column, the next byte, the next row, or the response (R206). -/
theorem blitAdvance_next {cols rows row col : Nat} {byte : BitVec 8} {s t : State}
    (h : blitAdvance cols rows row col byte s = .next t) :
    (col + 1 < cols ∧ (col + 1) % 8 = 0 ∧ t = s.setMicro (.blitFetch row ((col + 1) / 8))) ∨
    (col + 1 < cols ∧ (col + 1) % 8 ≠ 0 ∧ t = s.setMicro (.blitBit row (col + 1) byte .entry)) ∨
    (¬col + 1 < cols ∧ row + 1 < rows ∧ t = s.setMicro (.blitFetch (row + 1) 0)) ∨
    (¬col + 1 < cols ∧ ¬row + 1 < rows ∧ t = s.respond 0) := by
  unfold blitAdvance at h
  split_ifs at h with h1 h2 h3 <;> have e := (Host.Outcome.next.inj h).symm
  · exact .inl ⟨h1, h2, e⟩
  · exact .inr (.inl ⟨h1, h2, e⟩)
  · exact .inr (.inr (.inl ⟨h1, h3, e⟩))
  · exact .inr (.inr (.inr ⟨h1, h3, e⟩))

/-! ### Going on after a pixel -/

@[simp] theorem State.moveOn_some (s : State) (u : UState) : s.moveOn (some u) = s.setMicro u := rfl
@[simp] theorem State.moveOn_none (s : State) : s.moveOn none = s.respond 0 := rfl

@[simp] theorem State.moveOn_setMicro (s : State) (u : UState) (o : Option UState) : (s.setMicro u).moveOn o = s.moveOn o := by
  cases o <;> rfl

theorem Seg.after_end {g : Seg} {w : Walk} (h : g.isEnd w = true) : g.after w = none := by simp [Seg.after, h]

theorem Seg.after_next {g : Seg} {w : Walk} (h : g.isEnd w = false) : g.after w = some (g.advance w) := by simp [Seg.after, h]

/-- What `LINE` does after a point is where `nextPlace` goes. -/
theorem lineNext_eq (x0 y0 x1 y1 : BitVec 16) (w : Walk) (ph : PixPhase) (s : State) :
    walkNext (lineSeg x0 y0 x1 y1) w .line (fun t => .next (t.respond 0)) s =
      .next (s.moveOn (nextPlace (.line x0 y0 x1 y1) (.line w ph))) := by
  cases h : (lineSeg x0 y0 x1 y1).isEnd w <;> simp [walkNext, nextPlace, Seg.after, h]

/-- What `BOX` does after a point is where `nextPlace` goes. -/
theorem boxNext_eq (x0 y0 x1 y1 : BitVec 16) (e : Fin 4) (w : Walk) (ph : PixPhase) (s : State) :
    walkNext (boxEdge (lineSeg x0 y0 x1 y1) e) w (.box e) (boxAfterEdge (lineSeg x0 y0 x1 y1) e) s =
      .next (s.moveOn (nextPlace (.box x0 y0 x1 y1) (.box e w ph))) := by
  cases h : (boxEdge (lineSeg x0 y0 x1 y1) e).isEnd w
  · simp [walkNext, nextPlace, Seg.after, h]
  · simp only [walkNext, nextPlace, Seg.after, h, if_true]
    fin_cases e <;> rfl

/-- What `BITBLIT` does after a column is where `nextPlace` goes. -/
theorem blitAdvance_eq (x0 y0 cols rows : BitVec 16) (bmp : Addr) (row col : Nat) (byte : BitVec 8) (ph : PixPhase) (s : State) :
    blitAdvance (zext16 cols) (zext16 rows) row col byte s =
      .next (s.moveOn (nextPlace (.bitblit x0 y0 cols rows bmp) (.blitBit row col byte ph))) := by
  by_cases h1 : col + 1 < cols.toNat
  · by_cases h2 : (col + 1) % 8 = 0 <;> simp [blitAdvance, nextPlace, zext16, h1, h2]
  · by_cases h2 : row + 1 < rows.toNat <;> simp [blitAdvance, nextPlace, zext16, h1, h2]

/-- The word after: in range, or none at the last (R185, R186). -/
theorem nextWord_some {lo hi rows r i r' i' : Nat} (hlo : lo < hi) (hi' : lo ≤ i) (hr : r < rows)
    (h : nextWord lo hi rows r i = some (r', i')) : r' < rows ∧ lo ≤ i' ∧ i' < hi := by
  unfold nextWord at h
  split_ifs at h with h1 h2
  · simp only [Option.some.injEq, Prod.mk.injEq] at h; omega
  · simp only [Option.some.injEq, Prod.mk.injEq] at h; omega

/-- What one step of a command can be. A store goes to the word `storeTarget` names; only a poll that read the flag as 1 leads to a
write phase (R73). -/
inductive CmdShape (i : Instr) (s : State) : State → Prop where
  | wait (hp : s.ustate.phase = some .poll) (hv : s.vretrace = false) : CmdShape i s s
  | micro (u : UState)
      (hu : u.phase = some .write → s.ustate.phase = some .poll ∧ s.vretrace = true ∧ u = s.ustate.withPhase .write) :
      CmdShape i s (s.setMicro u)
  | answer (v : BitVec 32) : CmdShape i s (s.respond v)
  | action (a : PixAct) (hi : i = .setact a) : CmdShape i s ((s.setPixact a).respond 0)
  | ready (hi : i = .fbinit) (hu : s.ustate = .fbReady) : CmdShape i s (s.markReady.respond 0)
  | store (a : Addr) (v : WordVal) (u : UState) (ha : storeTarget s.cfg i s.ustate = some a)
      (hv : v < 2 ^ s.cfg.wordW ∨ ∃ b, v = s.readWord b) (hu : u.phase ≠ some .write) :
      CmdShape i s ((s.storeWord a v).setMicro u)
  | storeAnswer (a : Addr) (v : WordVal) (ha : storeTarget s.cfg i s.ustate = some a)
      (hv : v < 2 ^ s.cfg.wordW ∨ ∃ b, v = s.readWord b) : CmdShape i s ((s.storeWord a v).respond 0)
  | start (t : State) (hi : i = .start) (hr : s.run = false) (h : lineStepWith execLineOp s.markRun = .next t) :
      CmdShape i s (t.respond 0)

theorem pixelResult_lt (c : Config) (a : PixAct) (x : Nat) (v : WordVal) : pixelResult c a x v < 2 ^ c.wordW :=
  BitVec.isLt _

theorem colourPattern_lt (c : Config) (b : Bool) : colourPattern c b < 2 ^ c.wordW := by
  unfold colourPattern
  split
  · exact BitVec.isLt _
  · exact Nat.two_pow_pos _

/-- A step of `GPIX` inside a command: `k` finishes the pixel by a micro-state that is no write phase, or by a response. -/
theorem gpixStep_shape {i : Instr} {x y : Int} {ph : PixPhase} {f : PixPhase → UState} {s t : State} {k : State → Result}
    (hf : ∀ p, (f p).phase = some p) (hw : ∀ p q, (f p).withPhase q = f q) (hp : s.ustate = f ph ∨ ph = .entry)
    (ht : ph = .write → storeTarget s.cfg i s.ustate = some (pixelAddr s.cfg x.toNat y.toNat))
    (hk : ∀ u v, k u = .next v → (∃ m : UState, m.phase ≠ some .write ∧ v = u.setMicro m) ∨ v = u.respond 0)
    (h : gpixStep x y ph f s k = .next t) : CmdShape i s t := by
  rcases gpixStep_next h with ⟨rfl, -, rfl⟩ | ⟨rfl, -, hk'⟩ | ⟨rfl, hv, rfl⟩ | ⟨rfl, hv, rfl⟩ | ⟨rfl, -, hk'⟩
  · exact .micro _ (by simp [hf])
  · rcases hk _ _ hk' with ⟨m, hm, rfl⟩ | rfl
    · exact .micro _ fun e => absurd e hm
    · exact .answer _
  · have hp := hp.resolve_right (by simp)
    exact .micro _ fun _ => ⟨by rw [hp, hf], hv, by rw [hp, hw]⟩
  · have hp := hp.resolve_right (by simp)
    exact .wait (by rw [hp, hf]) hv
  · rcases hk _ _ hk' with ⟨m, hm, rfl⟩ | rfl
    · exact .store _ _ _ (ht rfl) (.inl (pixelResult_lt _ _ _ _)) hm
    · exact .storeAnswer _ _ (ht rfl) (.inl (pixelResult_lt _ _ _ _))

/-- Everything a command's step can do. -/
theorem exec_shape {i : Instr} {s t : State} (hi : i.isLine = false) (h : exec i s = .next t) : CmdShape i s t := by
  cases i with
  | eqpre | vsync | eqpost | blankpre | actfirst | active | blankpost | closeout => exact absurd hi (by simp [Instr.isLine])
  | width | height | retrace | evenptr | oddptr =>
    obtain rfl := (Host.Outcome.next.inj h).symm
    exact .answer _
  | setact a =>
    obtain rfl := (Host.Outcome.next.inj h).symm
    exact .action a rfl
  | circle | fill | text =>
    simp only [exec, execCircle, execFill, execText] at h
    rcases ifReady_next.1 h with ⟨-, h⟩ | ⟨-, rfl⟩
    · obtain rfl := (Host.Outcome.next.inj h).symm
      exact .answer _
    · exact .answer _
  | start =>
    by_cases hr : s.run = true
    · simp only [exec, execStart, hr, if_true] at h
      obtain rfl := (Host.Outcome.next.inj h).symm
      exact .answer _
    · simp only [exec, execStart, hr, Bool.false_eq_true, if_false] at h
      obtain ⟨u, hu, h⟩ := andThen_next.1 h
      obtain rfl := (Host.Outcome.next.inj h).symm
      exact .start u rfl (by simpa using hr) hu
  | setpixel x y =>
    have hk : ∀ u v : State, (Host.Outcome.next (u.respond 0) : Result) = .next v →
        (∃ m : UState, m.phase ≠ some .write ∧ v = u.setMicro m) ∨ v = u.respond 0 :=
      fun u v e => .inr (Host.Outcome.next.inj e).symm
    cases hu : s.ustate <;> simp only [exec, execSetpixel, hu, reduceCtorEq] at h
    · rcases ifReady_next.1 h with ⟨-, h⟩ | ⟨-, rfl⟩
      · exact gpixStep_shape (fun _ => rfl) (fun _ _ => rfl) (.inr rfl) (by simp) hk h
      · exact .answer _
    · exact gpixStep_shape (fun _ => rfl) (fun _ _ => rfl) (.inl hu) (by rintro rfl; rw [hu]; rfl) hk h
  | line x0 y0 x1 y1 =>
    have hk : ∀ (w : Walk) (u v : State),
        walkNext (lineSeg x0 y0 x1 y1) w .line (fun t => .next (t.respond 0)) u = .next v →
        (∃ m : UState, m.phase ≠ some .write ∧ v = u.setMicro m) ∨ v = u.respond 0 := by
      intro w u v e
      rcases walkNext_next.1 e with ⟨-, e⟩ | ⟨-, rfl⟩
      · exact .inr (Host.Outcome.next.inj e).symm
      · exact .inl ⟨_, by simp [UState.phase], rfl⟩
    cases hu : s.ustate <;> simp only [exec, execLine, hu, reduceCtorEq] at h
    · rcases ifReady_next.1 h with ⟨-, h⟩ | ⟨-, rfl⟩
      · exact gpixStep_shape (fun _ => rfl) (fun _ _ => rfl) (.inr rfl) (by simp) (hk _) h
      · exact .answer _
    · exact gpixStep_shape (fun _ => rfl) (fun _ _ => rfl) (.inl hu) (by rintro rfl; rw [hu]; rfl) (hk _) h
  | box x0 y0 x1 y1 =>
    have hk : ∀ (e : Fin 4) (w : Walk) (u v : State),
        walkNext (boxEdge (lineSeg x0 y0 x1 y1) e) w (.box e) (boxAfterEdge (lineSeg x0 y0 x1 y1) e) u = .next v →
        (∃ m : UState, m.phase ≠ some .write ∧ v = u.setMicro m) ∨ v = u.respond 0 := by
      intro e w u v h
      rcases walkNext_next.1 h with ⟨-, h⟩ | ⟨-, rfl⟩
      · rcases boxAfterEdge_next h with ⟨e', rfl⟩ | rfl
        · exact .inl ⟨_, by simp [UState.phase], rfl⟩
        · exact .inr rfl
      · exact .inl ⟨_, by simp [UState.phase], rfl⟩
    cases hu : s.ustate <;> simp only [exec, execBox, hu, reduceCtorEq] at h
    · rcases ifReady_next.1 h with ⟨-, h⟩ | ⟨-, rfl⟩
      · exact gpixStep_shape (fun _ => rfl) (fun _ _ => rfl) (.inr rfl) (by simp) (hk _ _) h
      · exact .answer _
    · exact gpixStep_shape (fun _ => rfl) (fun _ _ => rfl) (.inl hu) (by rintro rfl; rw [hu]; rfl) (hk _ _) h
  | bitblit x0 y0 cols rows bmp =>
    have hk : ∀ (row col : Nat) (byte : BitVec 8) (u v : State),
        blitAdvance (zext16 cols) (zext16 rows) row col byte u = .next v →
        (∃ m : UState, m.phase ≠ some .write ∧ v = u.setMicro m) ∨ v = u.respond 0 := by
      intro row col byte u v h
      rcases blitAdvance_next h with ⟨-, -, rfl⟩ | ⟨-, -, rfl⟩ | ⟨-, -, rfl⟩ | ⟨-, -, rfl⟩
      · exact .inl ⟨_, by simp [UState.phase], rfl⟩
      · exact .inl ⟨_, by simp [UState.phase], rfl⟩
      · exact .inl ⟨_, by simp [UState.phase], rfl⟩
      · exact .inr rfl
    cases hu : s.ustate <;> simp only [exec, execBitblit, hu, reduceCtorEq] at h
    · rcases ifReady_next.1 h with ⟨-, h⟩ | ⟨-, rfl⟩
      · split_ifs at h <;> obtain rfl := (Host.Outcome.next.inj h).symm
        · exact .answer _
        · exact .micro _ (by simp [UState.phase])
      · exact .answer _
    · unfold blitFetchStep at h
      split_ifs at h
      obtain rfl := (Host.Outcome.next.inj h).symm
      exact .micro _ (by simp [UState.phase])
    · unfold blitBitStep at h
      split_ifs at h with hb
      · exact gpixStep_shape (fun _ => rfl) (fun _ _ => rfl) (.inl hu)
          (by rintro rfl; rw [hu]; simp [storeTarget, hb]) (hk _ _ _) h
      · rcases hk _ _ _ _ _ h with ⟨m, hm, rfl⟩ | rfl
        · exact .micro _ fun e => absurd e hm
        · exact .answer _
  | clear colour =>
    cases hu : s.ustate <;> simp only [exec, execClear, hu, reduceCtorEq] at h
    · rcases ifReady_next.1 h with ⟨-, h⟩ | ⟨-, rfl⟩
      · obtain rfl := (Host.Outcome.next.inj h).symm
        exact .micro _ (by simp [UState.phase])
      · exact .answer _
    · obtain ⟨-, h⟩ := storeStep_next.1 h
      split at h <;> obtain rfl := (Host.Outcome.next.inj h).symm
      · exact .store _ _ _ (by rw [hu]; rfl) (.inl (colourPattern_lt _ _)) (by simp [UState.phase])
      · exact .storeAnswer _ _ (by rw [hu]; rfl) (.inl (colourPattern_lt _ _))
  | fbinit =>
    cases hu : s.ustate <;> simp only [exec, execFbinit, hu, reduceCtorEq] at h
    · split_ifs at h <;> obtain rfl := (Host.Outcome.next.inj h).symm
      · exact .answer _
      · exact .micro _ (by simp [UState.phase])
    · obtain ⟨-, h⟩ := storeStep_next.1 h
      split at h <;> obtain rfl := (Host.Outcome.next.inj h).symm
      · exact .store _ _ _ (by rw [hu]; rfl) (.inl (Nat.two_pow_pos _)) (by simp [UState.phase])
      · refine .store _ _ _ (by rw [hu]; rfl) (.inl (Nat.two_pow_pos _)) ?_
        unfold afterZeroFill
        split <;> simp [UState.phase]
    · unfold fbPrefixStep at h
      split_ifs at h
      obtain ⟨-, h⟩ := storeStep_next.1 h
      split at h <;> obtain rfl := (Host.Outcome.next.inj h).symm
      · exact .store _ _ _ (by rw [hu]; rfl) (.inr ⟨_, rfl⟩) (by simp [UState.phase])
      · exact .store _ _ _ (by rw [hu]; rfl) (.inr ⟨_, rfl⟩) (by simp [UState.phase])
    · obtain rfl := (Host.Outcome.next.inj h).symm
      exact .ready rfl hu

end Sys2Proof.Machine
end

