-- ==== Sys2Proof/Laws/Memory.lean ====
section
/-! SUPPORT. The laws of the two memories: read after write, the canonical form is kept, and canonical memories with equal reads are
equal, so that writes to different addresses commute and writes to one address collapse. -/

namespace Sys2Proof.Machine

section
variable {α : Type} {d : α}

@[simp] theorem Memory.read_nil (a : Nat) : Memory.read d ([] : List (Nat × α)) a = d := rfl

theorem Memory.read_cons (c : Nat × α) (m : List (Nat × α)) (a : Nat) :
    Memory.read d (c :: m) a = if a = c.1 then c.2 else Memory.read d m a := rfl

theorem Memory.rising_cons (c : Nat × α) (m : List (Nat × α)) :
    Memory.rising (c :: m) = true ↔ (∀ e ∈ m, c.1 < e.1) ∧ Memory.rising m = true := by
  obtain ⟨k, v⟩ := c
  simp [Memory.rising]

/-- An address below every listed one reads as the default. -/
theorem Memory.read_of_lt (m : List (Nat × α)) (a : Nat) (h : ∀ e ∈ m, a < e.1) : Memory.read d m a = d := by
  induction m with
  | nil => rfl
  | cons c m ih =>
    have hc := h c (by simp)
    rw [Memory.read_cons, if_neg (by omega), ih fun e he => h e (by simp [he])]

variable [DecidableEq α]

theorem Memory.mem_write (m : List (Nat × α)) (a : Nat) (v : α) :
    ∀ e ∈ Memory.write d m a v, (e = (a, v) ∧ v ≠ d) ∨ e ∈ m := by
  induction m with
  | nil => intro e he; by_cases hv : v = d <;> simp_all [Memory.write]
  | cons c m ih =>
    obtain ⟨k, u⟩ := c
    intro e he
    simp only [Memory.write] at he
    split_ifs at he <;> simp only [List.mem_cons] at he ⊢
    · tauto
    · tauto
    · tauto
    · tauto
    · rcases he with he | he
      · tauto
      · rcases ih e he with h | h <;> tauto

theorem Memory.write_rising (m : List (Nat × α)) (a : Nat) (v : α) (h : Memory.rising m = true) :
    Memory.rising (Memory.write d m a v) = true := by
  induction m with
  | nil => by_cases hv : v = d <;> simp [Memory.write, hv, Memory.rising]
  | cons c m ih =>
    obtain ⟨k, u⟩ := c
    obtain ⟨hk, hm⟩ := (Memory.rising_cons _ _).1 h
    simp only [Memory.write]
    split_ifs with h1 h2 h3 h4
    · exact h
    · refine (Memory.rising_cons _ _).2 ⟨?_, h⟩
      intro e he
      rcases List.mem_cons.1 he with rfl | he
      · exact h1
      · exact lt_trans h1 (hk e he)
    · exact hm
    · exact (Memory.rising_cons _ _).2 ⟨fun e he => h3 ▸ hk e he, hm⟩
    · refine (Memory.rising_cons _ _).2 ⟨?_, ih hm⟩
      intro e he
      rcases Memory.mem_write m a v e he with ⟨rfl, -⟩ | he
      · show k < a
        omega
      · exact hk e he

/-- Read after write. -/
theorem Memory.read_write (m : List (Nat × α)) (a b : Nat) (v : α) (h : Memory.rising m = true) :
    Memory.read d (Memory.write d m a v) b = if b = a then v else Memory.read d m b := by
  induction m with
  | nil =>
    by_cases hv : v = d
    · simp [Memory.write, hv]
    · simp [Memory.write, hv, Memory.read_cons]
  | cons c m ih =>
    obtain ⟨k, u⟩ := c
    obtain ⟨hk, hm⟩ := (Memory.rising_cons _ _).1 h
    by_cases h1 : a < k
    · have hb : Memory.read d ((k, u) :: m) a = d :=
        Memory.read_of_lt _ _ fun e he => by
          rcases List.mem_cons.1 he with rfl | he
          · exact h1
          · exact lt_trans h1 (hk e he)
      by_cases h2 : v = d
      · simp only [Memory.write, if_pos h1, if_pos h2]
        by_cases e : b = a
        · rw [if_pos e, e, hb, h2]
        · rw [if_neg e]
      · simp only [Memory.write, if_pos h1, if_neg h2]
        rw [Memory.read_cons]
    · by_cases h3 : a = k
      · have hb : Memory.read d m a = d := Memory.read_of_lt _ _ fun e he => h3 ▸ hk e he
        by_cases h4 : v = d
        · simp only [Memory.write, if_neg h1, if_pos h3, if_pos h4]
          by_cases e : b = a
          · rw [if_pos e, e, hb, h4]
          · rw [if_neg e, Memory.read_cons, if_neg (h3 ▸ e)]
        · simp only [Memory.write, if_neg h1, if_pos h3, if_neg h4]
          rw [Memory.read_cons, Memory.read_cons]
          by_cases e : b = a
          · rw [if_pos e, if_pos e]
          · rw [if_neg e, if_neg e, if_neg (h3 ▸ e)]
      · simp only [Memory.write, if_neg h1, if_neg h3]
        rw [Memory.read_cons, Memory.read_cons, ih hm]
        by_cases e : b = k
        · rw [if_pos e, if_neg (by omega), if_pos e]
        · simp only [if_neg e]

theorem Memory.read_write_same (m : List (Nat × α)) (a : Nat) (v : α) (h : Memory.rising m = true) :
    Memory.read d (Memory.write d m a v) a = v := by rw [Memory.read_write m a a v h, if_pos rfl]

theorem Memory.read_write_other (m : List (Nat × α)) (a b : Nat) (v : α) (h : Memory.rising m = true) (hb : b ≠ a) :
    Memory.read d (Memory.write d m a v) b = Memory.read d m b := by rw [Memory.read_write m a b v h, if_neg hb]

/-! ### The canonical form -/

theorem Memory.canonical_iff (good : α → Bool) (m : List (Nat × α)) :
    Memory.canonical d good m = true ↔
      Memory.rising m = true ∧ ∀ e ∈ m, e.1 < 2 ^ 32 ∧ e.2 ≠ d ∧ good e.2 = true := by
  simp [Memory.canonical, and_assoc]

theorem Memory.canonical_rising {good : α → Bool} {m : List (Nat × α)} (h : Memory.canonical d good m = true) :
    Memory.rising m = true := ((Memory.canonical_iff good m).1 h).1

/-- Every write of a good value below `2 ^ 32` keeps the canonical form. -/
theorem Memory.write_canonical (good : α → Bool) (m : List (Nat × α)) (a : Nat) (v : α) (ha : a < 2 ^ 32)
    (hv : good v = true) (h : Memory.canonical d good m = true) :
    Memory.canonical d good (Memory.write d m a v) = true := by
  obtain ⟨hr, hm⟩ := (Memory.canonical_iff good m).1 h
  refine (Memory.canonical_iff good _).2 ⟨Memory.write_rising m a v hr, ?_⟩
  intro e he
  rcases Memory.mem_write m a v e he with ⟨rfl, hd⟩ | he
  · exact ⟨ha, hd, hv⟩
  · exact hm e he

/-- A value read from a canonical memory is good, or the default. -/
theorem Memory.read_good (good : α → Bool) (m : List (Nat × α)) (a : Nat) (h : Memory.canonical d good m = true) :
    Memory.read d m a = d ∨ good (Memory.read d m a) = true := by
  obtain ⟨-, hm⟩ := (Memory.canonical_iff good m).1 h
  clear h
  induction m with
  | nil => exact .inl rfl
  | cons c m ih =>
    rw [Memory.read_cons]
    split_ifs
    · exact .inr (hm c (by simp)).2.2
    · exact ih fun e he => hm e (by simp [he])

omit [DecidableEq α] in
/-- Canonical memories with equal reads are equal. -/
theorem Memory.ext_of_read {m m' : List (Nat × α)} (hr : Memory.rising m = true) (hr' : Memory.rising m' = true)
    (hd : ∀ e ∈ m, e.2 ≠ d) (hd' : ∀ e ∈ m', e.2 ≠ d) (h : ∀ a, Memory.read d m a = Memory.read d m' a) : m = m' := by
  induction m generalizing m' with
  | nil =>
    cases m' with
    | nil => rfl
    | cons c m' =>
      have := h c.1
      rw [Memory.read_nil, Memory.read_cons, if_pos rfl] at this
      exact absurd this.symm (hd' c (by simp))
  | cons c m ih =>
    obtain ⟨hk, hm⟩ := (Memory.rising_cons _ _).1 hr
    cases m' with
    | nil =>
      have := h c.1
      rw [Memory.read_nil, Memory.read_cons, if_pos rfl] at this
      exact absurd this (hd c (by simp))
    | cons c' m' =>
      obtain ⟨hk', hm'⟩ := (Memory.rising_cons _ _).1 hr'
      have h1 := h c.1
      have h2 := h c'.1
      rw [Memory.read_cons, if_pos rfl, Memory.read_cons] at h1
      rw [Memory.read_cons, Memory.read_cons, if_pos rfl] at h2
      have hkey : c.1 = c'.1 := by
        rcases lt_trichotomy c.1 c'.1 with hlt | heq | hlt
        · rw [if_neg (by omega), Memory.read_of_lt _ _ fun e he => lt_trans hlt (hk' e he)] at h1
          exact absurd h1 (hd c (by simp))
        · exact heq
        · rw [if_neg (by omega), Memory.read_of_lt _ _ fun e he => lt_trans hlt (hk e he)] at h2
          exact absurd h2.symm (hd' c' (by simp))
      rw [if_pos hkey] at h1
      have hc : c = c' := Prod.ext hkey h1
      subst hc
      congr 1
      refine ih hm hm' (fun e he => hd e (by simp [he])) (fun e he => hd' e (by simp [he])) fun a => ?_
      by_cases ha : a = c.1
      · rw [ha, Memory.read_of_lt _ _ hk, Memory.read_of_lt _ _ hk']
      · have := h a
        rwa [Memory.read_cons, Memory.read_cons, if_neg ha, if_neg ha] at this

theorem Memory.write_nondefault (m : List (Nat × α)) (a : Nat) (v : α) (h : ∀ e ∈ m, e.2 ≠ d) :
    ∀ e ∈ Memory.write d m a v, e.2 ≠ d := by
  intro e he
  rcases Memory.mem_write m a v e he with ⟨rfl, hd⟩ | he
  · exact hd
  · exact h e he

theorem Memory.write_write_same (m : List (Nat × α)) (a : Nat) (u v : α) (h : Memory.rising m = true)
    (hd : ∀ e ∈ m, e.2 ≠ d) : Memory.write d (Memory.write d m a u) a v = Memory.write d m a v := by
  have hu := Memory.write_rising (d := d) m a u h
  refine Memory.ext_of_read (d := d) (Memory.write_rising _ _ _ hu) (Memory.write_rising _ _ _ h)
    (Memory.write_nondefault _ _ _ (Memory.write_nondefault _ _ _ hd)) (Memory.write_nondefault _ _ _ hd) fun b => ?_
  rw [Memory.read_write _ _ _ _ hu, Memory.read_write _ _ _ _ h, Memory.read_write _ _ _ _ h]
  split_ifs <;> rfl

theorem Memory.write_comm (m : List (Nat × α)) (a b : Nat) (u v : α) (hab : a ≠ b) (h : Memory.rising m = true)
    (hd : ∀ e ∈ m, e.2 ≠ d) :
    Memory.write d (Memory.write d m a u) b v = Memory.write d (Memory.write d m b v) a u := by
  have hu := Memory.write_rising (d := d) m a u h
  have hv := Memory.write_rising (d := d) m b v h
  refine Memory.ext_of_read (d := d) (Memory.write_rising _ _ _ hu) (Memory.write_rising _ _ _ hv)
    (Memory.write_nondefault _ _ _ (Memory.write_nondefault _ _ _ hd))
    (Memory.write_nondefault _ _ _ (Memory.write_nondefault _ _ _ hd)) fun k => ?_
  rw [Memory.read_write _ _ _ _ hu, Memory.read_write _ _ _ _ h, Memory.read_write _ _ _ _ hv, Memory.read_write _ _ _ _ h]
  split_ifs with h1 h2 <;> first | rfl | omega

theorem Memory.write_read_same (m : List (Nat × α)) (a : Nat) (h : Memory.rising m = true) (hd : ∀ e ∈ m, e.2 ≠ d) :
    Memory.write d m a (Memory.read d m a) = m := by
  refine Memory.ext_of_read (d := d) (Memory.write_rising _ _ _ h) h (Memory.write_nondefault _ _ _ hd) hd fun b => ?_
  rw [Memory.read_write _ _ _ _ h]
  split_ifs with e
  · rw [e]
  · rfl

end

/-! ### The model's two memories -/

theorem Memory.wf_iff (w : Nat) (wm : WordMem) (bm : ByteMem) :
    Memory.wf w wm bm = true ↔
      Memory.canonical wmDefault (fun v => decide (v < 2 ^ w)) wm = true ∧ Memory.canonical bmDefault (fun _ => true) bm = true := by
  simp [Memory.wf]

theorem Memory.wf_rising {w : Nat} {wm : WordMem} {bm : ByteMem} (h : Memory.wf w wm bm = true) : Memory.rising wm = true :=
  Memory.canonical_rising ((Memory.wf_iff w wm bm).1 h).1

theorem Memory.wf_nondefault {w : Nat} {wm : WordMem} {bm : ByteMem} (h : Memory.wf w wm bm = true) :
    ∀ e ∈ wm, e.2 ≠ wmDefault := fun e he => (((Memory.canonical_iff _ _).1 ((Memory.wf_iff w wm bm).1 h).1).2 e he).2.1

/-- A word read from a well-formed memory has `WORD_W` bits. -/
theorem Memory.wf_read_lt {w : Nat} {wm : WordMem} {bm : ByteMem} (h : Memory.wf w wm bm = true) (a : Nat) :
    Memory.read wmDefault wm a < 2 ^ w := by
  rcases Memory.read_good _ wm a ((Memory.wf_iff w wm bm).1 h).1 with e | e
  · rw [e]; exact Nat.two_pow_pos w
  · simpa using e

/-- A store of a word of `WORD_W` bits keeps both memories well formed. -/
theorem Memory.write_wf {w : Nat} {wm : WordMem} {bm : ByteMem} {a v : Nat} (ha : a < 2 ^ 32) (hv : v < 2 ^ w)
    (h : Memory.wf w wm bm = true) : Memory.wf w (Memory.write wmDefault wm a v) bm = true := by
  obtain ⟨h1, h2⟩ := (Memory.wf_iff w wm bm).1 h
  exact (Memory.wf_iff _ _ _).2 ⟨Memory.write_canonical _ _ _ _ ha (by simpa using hv) h1, h2⟩

/-- Read after a store, at another address. -/
theorem State.readWord_storeWord_other (s : State) (a b : Addr) (v : WordVal) (h : Memory.rising s.wm = true) (hb : b ≠ a) :
    (s.storeWord a v).readWord b = s.readWord b :=
  Memory.read_write_other _ _ _ _ h fun e => hb (BitVec.eq_of_toNat_eq e)

/-- Read after a store, at the same address. -/
theorem State.readWord_storeWord_same (s : State) (a : Addr) (v : WordVal) (h : Memory.rising s.wm = true) :
    (s.storeWord a v).readWord a = v := Memory.read_write_same _ _ _ h

end Sys2Proof.Machine
end

