-- ==== Sys2Proof/Laws/Pixels.lean ====
section
/-! SUPPORT. The gated pixel write as an operation on the word memory (R37, R183). -/

namespace Sys2Proof.Machine

theorem gpixStep_write {x y : Int} {f : PixPhase → UState} {s : State} {k : State → Result} (hb : inBounds s.cfg x y = true)
    (hm : s.cfg.mapped (pixelAddr s.cfg x.toNat y.toNat) = true) :
    gpixStep x y .write f s k = k { s with wm := plot s.cfg s.pixact s.wm (x, y) } := by
  simp [gpixStep, gpixWrite, storeStep, hm, plot, hb, State.storeWord, State.readWord]

theorem pixelResult_testBit {c : Config} (g : c.Good) (a : PixAct) (x : Nat) {v : WordVal} (hv : v < 2 ^ c.wordW) (k : Nat) :
    (pixelResult c a x v).testBit k = if k = bitIndex c x then actOnPixel a (v.testBit k) else v.testBit k := by
  have hb := g.bitIndex_lt x
  have hm : ∀ k, (pixelMask c x).getLsbD k = decide (k = bitIndex c x) := by
    intro k
    unfold pixelMask
    rw [BitVec.getLsbD_shiftLeft, BitVec.getLsbD_one]
    by_cases h : k = bitIndex c x
    · subst h; simp; omega
    · simp [h]; omega
  unfold pixelResult
  rw [BitVec.testBit_toNat]
  by_cases hk : k < c.wordW
  · have hv' : (BitVec.ofNat c.wordW v).getLsbD k = v.testBit k := by rw [BitVec.getLsbD_ofNat]; simp [hk]
    cases a <;> simp only [applyAction, actOnPixel]
    · rw [BitVec.getLsbD_or, hm, hv']; split_ifs with h <;> simp [h]
    · rw [BitVec.getLsbD_and, BitVec.getLsbD_not, hm, hv']; split_ifs with h <;> simp [h, hk] 
    · rw [BitVec.getLsbD_xor, hm, hv']; split_ifs with h <;> simp [h]
  · rw [if_neg (by omega), BitVec.getLsbD_of_ge _ _ (by omega), Nat.testBit_lt_two_pow (lt_of_lt_of_le hv (Nat.pow_le_pow_right (by omega) (by omega)))]

theorem plot_wf {c : Config} {wm : WordMem} {bm : ByteMem} (h : Memory.wf c.wordW wm bm = true) (a : PixAct) (p : Int × Int) :
    Memory.wf c.wordW (plot c a wm p) bm = true := by
  unfold plot
  split
  · exact Memory.write_wf (BitVec.isLt _) (pixelResult_lt _ _ _ _) h
  · exact h

theorem plotAll_wf {c : Config} {bm : ByteMem} (a : PixAct) (ps : List (Int × Int)) : ∀ {wm : WordMem}, Memory.wf c.wordW wm bm = true →
    Memory.wf c.wordW (plotAll c a wm ps) bm = true := by
  induction ps with
  | nil => intro wm h; exact h
  | cons p ps ih => intro wm h; exact ih (plot_wf h a p)

theorem plot_read {c : Config} (a : PixAct) {wm : WordMem} (hr : Memory.rising wm = true) (p : Int × Int) (b : Nat) :
    Memory.read wmDefault (plot c a wm p) b =
      if inBounds c p.1 p.2 = true ∧ b = (pixelAddr c p.1.toNat p.2.toNat).toNat then
        pixelResult c a p.1.toNat (Memory.read wmDefault wm b) else Memory.read wmDefault wm b := by
  unfold plot
  by_cases h : inBounds c p.1 p.2 = true
  · rw [if_pos h, Memory.read_write _ _ _ _ hr]
    by_cases hb : b = (pixelAddr c p.1.toNat p.2.toNat).toNat
    · simp [h, hb]
    · simp [hb]
  · simp [h]

theorem pixel_inj {c : Config} (g : c.Good) {x y x' y' : Nat} (hx : x < c.xRes) (hy : y < c.yRes) (hx' : x' < c.xRes) (hy' : y' < c.yRes)
    (ha : (pixelAddr c x y).toNat = (pixelAddr c x' y').toNat) (hb : bitIndex c x = bitIndex c x') : x = x' ∧ y = y' := by
  have := g.fbw_inj hy (g.wordIndex_lt hx) hy' (g.wordIndex_lt hx') (BitVec.eq_of_toNat_eq ha)
  exact ⟨g.column_inj this.2 hb, this.1⟩

/-- a store goes into the framebuffer -/
theorem storeTarget_fbw {c : Config} (g : c.Good) {i : Instr} {u : UState} {a : Addr} (hm : microOk c i u = true) (h : storeTarget c i u = some a) :
    ∃ r j, r < c.yRes ∧ j < c.lineWords ∧ a = c.fbw r j := by
  have px : ∀ x y : Int, inBounds c x y = true → ∃ r j, r < c.yRes ∧ j < c.lineWords ∧ pixelAddr c x.toNat y.toNat = c.fbw r j := by
    intro x y hb
    exact ⟨_, _, (inBounds_toNat hb).2, g.wordIndex_lt (inBounds_toNat hb).1, rfl⟩
  unfold storeTarget at h
  split at h
  · simp [microOk] at hm; simp at h; subst h; exact px _ _ hm
  · simp [microOk] at hm; simp at h; subst h; exact px _ _ hm
  · simp [microOk] at hm; simp at h; subst h; exact px _ _ hm
  · simp [microOk] at hm; simp at h; obtain ⟨-, h⟩ := h; subst h; exact px _ _ hm.2.2
  · simp [microOk] at hm; simp at h; subst h; exact ⟨_, _, hm.1.1, by have := g.row; omega, rfl⟩
  · simp [microOk] at hm; simp at h; subst h; exact ⟨_, _, hm.1, hm.2, rfl⟩
  · simp [microOk] at hm; simp at h; subst h; exact ⟨_, _, hm.1, by have := g.row; omega, rfl⟩
  · simp at h

theorem gpixStep_total {x y : Int} {ph : PixPhase} {f : PixPhase → UState} {s : State} {k : State → Result} (g : s.cfg.Good)
    (hp : s.cfg.platformComplete = true) (hb : ph ≠ .entry → inBounds s.cfg x y = true) (hk : ∀ u, ∃ t, k u = .next t) :
    ∃ t, gpixStep x y ph f s k = .next t := by
  cases ph with
  | entry => unfold gpixStep; simp only; split; exact ⟨_, rfl⟩; exact hk _
  | poll => unfold gpixStep; simp only; split <;> exact ⟨_, rfl⟩
  | write =>
    simp only [gpixStep, gpixWrite, storeStep]
    rw [if_pos (pixelAddr_mapped g hp (hb (by simp)))]
    exact hk _

end Sys2Proof.Machine
end

