-- ==== Sys2Proof/Laws/Decode.lean ====
section
/-! SUPPORT. The two formats taken apart and put together again (R91, R94), through the values of the fields, and which format an
instruction belongs to. -/

namespace Sys2Proof

theorem toNat_append_add {n m : Nat} (x : BitVec n) (y : BitVec m) : (x ++ y).toNat = x.toNat * 2 ^ m + y.toNat := by
  rw [BitVec.toNat_append, ← Nat.shiftLeft_add_eq_or_of_lt y.isLt, Nat.shiftLeft_eq]

theorem toNat_extract {n : Nat} (x : BitVec n) (s l : Nat) : (x.extractLsb' s l).toNat = x.toNat / 2 ^ s % 2 ^ l := by
  rw [BitVec.extractLsb'_toNat, Nat.shiftRight_eq_div_pow]

/-! ### Format LINE -/

theorem lineWordOf_toNat (f : Field) (n : BitVec 9) : (lineWordOf f n).toNat = (fieldBit f).toNat * 2 ^ 9 + n.toNat :=
  toNat_append_add (fieldBit f) n

@[simp] theorem lineScan_lineWordOf (f : Field) (n : BitVec 9) : lineScan (lineWordOf f n) = n := by
  apply BitVec.eq_of_toNat_eq
  have := n.isLt
  rw [lineScan, toNat_extract, lineWordOf_toNat]
  omega

@[simp] theorem lineField_lineWordOf (f : Field) (n : BitVec 9) : lineField (lineWordOf f n) = f := by
  have h : (lineWordOf f n).extractLsb' 9 1 = fieldBit f := by
    apply BitVec.eq_of_toNat_eq
    have := n.isLt
    have := (fieldBit f).isLt
    rw [toNat_extract, lineWordOf_toNat]
    omega
  rw [lineField, h]
  cases f <;> rfl

/-- A line word decodes by its `SCAN_LINE` (R92). -/
theorem decodeLine_lineWordOf (f : Field) (n : BitVec 9) : decodeLine (lineWordOf f n) = decodeScan f n := by
  rw [decodeLine, lineField_lineWordOf, lineScan_lineWordOf]

theorem inLines_iff (lo hi : Nat) (n : BitVec 9) : inLines lo hi n = true ↔ lo ≤ n.toNat ∧ n.toNat < hi := by
  simp [inLines]

/-- What the line decoder answers: an operation of format LINE, well formed, with the word's own fields. -/
theorem decodeScan_ok {f : Field} {n : BitVec 9} {i : Instr} (h : decodeScan f n = .ok i) :
    i.isLine = true ∧ i.wf = true ∧ encodeLine i = some (lineWordOf f n) ∧ n.toNat < 262 := by
  unfold decodeScan at h
  split_ifs at h with h1 h2 h3 h4 h5 h6 h7 h8 <;> obtain rfl := (Except.ok.inj h).symm <;>
    refine ⟨rfl, by assumption, rfl, ?_⟩ <;> simp only [inLines_iff] at * <;> omega

/-- R92, range by range. -/
theorem decodeScan_range (f : Field) (n : BitVec 9) :
    (n.toNat < 3 → decodeScan f n = .ok (.eqpre f n)) ∧
    (3 ≤ n.toNat → n.toNat < 6 → decodeScan f n = .ok (.vsync f n)) ∧
    (6 ≤ n.toNat → n.toNat < 9 → decodeScan f n = .ok (.eqpost f n)) ∧
    (9 ≤ n.toNat → n.toNat < 30 → decodeScan f n = .ok (.blankpre f n)) ∧
    (n.toNat = 30 → decodeScan f n = .ok (.actfirst f n)) ∧
    (31 ≤ n.toNat → n.toNat < 246 → decodeScan f n = .ok (.active f n)) ∧
    (246 ≤ n.toNat → n.toNat < 261 → decodeScan f n = .ok (.blankpost f n)) ∧
    (n.toNat = 261 → decodeScan f n = .ok (.closeout f n)) := by
  unfold decodeScan
  refine ⟨?_, ?_, ?_, ?_, ?_, ?_, ?_, ?_⟩ <;> intros <;> split_ifs with h1 h2 h3 h4 h5 h6 h7 h8 <;>
    first | rfl | (exfalso; simp only [inLines_iff] at *; omega)

/-- Every cursor below 262 selects an operation (R92). -/
theorem decodeScan_total {f : Field} {n : BitVec 9} (h : n.toNat < 262) : ∃ i, decodeScan f n = .ok i := by
  unfold decodeScan
  split_ifs with h1 h2 h3 h4 h5 h6 h7 h8
  all_goals first | exact ⟨_, rfl⟩ | skip
  exfalso
  simp only [inLines_iff] at *
  omega

/-- A cursor of 262 or more selects none (R104(b)). -/
theorem decodeScan_reserved {f : Field} {n : BitVec 9} (h : ¬n.toNat < 262) : decodeScan f n = .error .reservedLine := by
  cases e : decodeScan f n with
  | ok i => exact absurd (decodeScan_ok e).2.2.2 h
  | error r =>
    unfold decodeScan at e
    split_ifs at e
    exact e.symm

/-! ### Format CMD -/

theorem joinFrame_toNat (c : CmdFields) :
    (joinFrame c).toNat = c.op.toNat * 2 ^ 120 + c.z0.toNat * 2 ^ 98 + c.imm2.toNat * 2 ^ 96 + c.y0.toNat * 2 ^ 80 +
      c.x0.toNat * 2 ^ 64 + c.y1.toNat * 2 ^ 48 + c.x1.toNat * 2 ^ 32 + c.bmp.toNat := by
  have e : (joinFrame c).toNat = (c.op ++ c.z0 ++ c.imm2 ++ c.y0 ++ c.x0 ++ c.y1 ++ c.x1 ++ c.bmp).toNat := rfl
  rw [e]
  simp only [toNat_append_add]
  omega

@[simp] theorem splitFrame_joinFrame (c : CmdFields) : splitFrame (joinFrame c) = c := by
  have h := joinFrame_toNat c
  obtain ⟨op, z0, imm2, y0, x0, y1, x1, bmp⟩ := c
  simp only at h
  have := op.isLt
  have := z0.isLt
  have := imm2.isLt
  have := y0.isLt
  have := x0.isLt
  have := y1.isLt
  have := x1.isLt
  have := bmp.isLt
  simp only [splitFrame, CmdFields.mk.injEq]
  refine ⟨?_, ?_, ?_, ?_, ?_, ?_, ?_, ?_⟩ <;> apply BitVec.eq_of_toNat_eq <;> rw [toNat_extract, h] <;> omega

@[simp] theorem joinFrame_splitFrame (f : BitVec 128) : joinFrame (splitFrame f) = f := by
  apply BitVec.eq_of_toNat_eq
  rw [joinFrame_toNat]
  simp only [splitFrame, toNat_extract]
  have := f.isLt
  omega

theorem decodeFrame_joinFrame (c : CmdFields) : decodeFrame (joinFrame c) = decodeFields c := by
  rw [decodeFrame, splitFrame_joinFrame]

theorem requireZero_ok {b : Bool} {i j : Instr} : requireZero b i = .ok j ↔ b = true ∧ i = j := by
  unfold requireZero
  cases b <;> simp

theorem decodeSetact_ok {c : CmdFields} {i : Instr} (h : decodeSetact c = .ok i) :
    c.z0 = 0 ∧ c.noWords = true ∧ ∃ a, actOfCode c.imm2 = some a ∧ i = .setact a := by
  unfold decodeSetact at h
  split_ifs at h with hz
  simp only [Bool.and_eq_true, decide_eq_true_eq] at hz
  split at h
  · exact ⟨hz.1, hz.2, _, by assumption, (Except.ok.inj h).symm⟩
  · simp at h

theorem decodeClear_ok {c : CmdFields} {i : Instr} (h : decodeClear c = .ok i) :
    c.z0 = 0 ∧ c.noWords = true ∧ c.imm2.getLsbD 1 = false ∧ i = .clear (c.imm2.getLsbD 0) := by
  unfold decodeClear at h
  split_ifs at h with hz hc
  simp only [Bool.and_eq_true, decide_eq_true_eq] at hz
  exact ⟨hz.1, hz.2, by simpa using hc, (Except.ok.inj h).symm⟩

/-- What the frame decoder answers: a command. -/
theorem decodeFields_ok {c : CmdFields} {i : Instr} (h : decodeFields c = .ok i) : i.isLine = false ∧ i.wf = true := by
  unfold decodeFields at h
  split at h <;> first
    | (obtain ⟨-, rfl⟩ := requireZero_ok.1 h; exact ⟨rfl, rfl⟩)
    | (obtain ⟨-, -, a, -, rfl⟩ := decodeSetact_ok h; exact ⟨rfl, rfl⟩)
    | (obtain ⟨-, -, -, rfl⟩ := decodeClear_ok h; exact ⟨rfl, rfl⟩)
    | (obtain rfl := (Except.ok.inj h).symm; exact ⟨rfl, rfl⟩)
    | exact absurd h (by simp)

theorem decodeFrame_ok {f : BitVec 128} {i : Instr} (h : decodeFrame f = .ok i) : i.isLine = false ∧ i.wf = true :=
  decodeFields_ok h

end Sys2Proof
end

