-- ==== Sys2Proof/Laws/Step.lean ====
section
/-! SUPPORT. What a line operation, a turn and a step can do, said once. `opState` is the state a line operation leaves;
`lineStepWith_next` inverts `LINESTEP`; `takeTurn_cases` inverts every turn; `step_next` inverts a step. -/

namespace Sys2Proof.Machine

/-! ### Line operations (R122 to R129) -/

/-- The state a line operation leaves. -/
def opState (i : Instr) (s : State) : State :=
  match i with
  | .eqpre f _ => (s.setTransfer s.cfg.eqBase s.cfg.lineWords).setRetrace (retraceAfterEqpre f s.vretrace)
  | .vsync _ _ => s.setTransfer s.cfg.vsyncBase s.cfg.lineWords
  | .eqpost f n => s.setTransfer s.cfg.eqBase (eqpostLength s.cfg f n)
  | .blankpre _ _ | .blankpost _ _ => s.setTransfer s.cfg.blankBase s.cfg.lineWords
  | .actfirst f _ => (s.setTransfer (fieldPointer s.cfg f) s.cfg.lineWords).setRetrace retraceAfterActfirst
  | .active _ _ => s.setTransfer (s.srcPtr + BitVec.ofNat 32 (2 * s.cfg.lineWords)) s.cfg.lineWords
  | .closeout .odd _ => s.setTransfer s.cfg.hblankBase s.cfg.halfWords
  | .closeout .even _ => s
  | .width | .height | .retrace | .setact _ | .setpixel _ _ | .line _ _ _ _ | .box _ _ _ _ | .bitblit _ _ _ _ _
  | .clear _ | .evenptr | .oddptr | .circle | .fill | .text | .fbinit | .start => s

/-- A line operation always answers a next state (R135). -/
theorem exec_line {i : Instr} (hi : i.isLine = true) (s : State) : exec i s = .next (opState i s) := by
  cases i with
  | closeout f n => cases f <;> rfl
  | eqpre | vsync | eqpost | blankpre | actfirst | active | blankpost => rfl
  | width | height | retrace | setact | setpixel | line | box | bitblit | clear | evenptr | oddptr | circle | fill | text
  | fbinit | start => exact absurd hi (by simp [Instr.isLine])

/-- The `LINESTEP` body that `START` runs executes the same operations. -/
theorem execLineOp_line {i : Instr} (hi : i.isLine = true) (s : State) : execLineOp i s = exec i s := by
  cases i <;> first | rfl | exact absurd hi (by simp [Instr.isLine])

/-- A line operation is a transfer and a flag (R122 to R129). -/
theorem opState_eq (i : Instr) (s : State) :
    opState i s =
      { s with
        srcPtr := (opState i s).srcPtr
        xferLen := (opState i s).xferLen
        vretrace := (opState i s).vretrace } := by
  cases i with
  | closeout f n => cases f <;> rfl
  | _ => rfl

/-- What `LINESTEP` leaves (R120): the operation selected by the cursor before the advance, the advance, the `ARM`. -/
theorem lineStepWith_next {op : Instr → State → Result} (hop : ∀ i s, i.isLine = true → op i s = exec i s) {s t : State} :
    lineStepWith op s = .next t ↔
      ∃ i, decodeScan s.field s.scanLine = .ok i ∧ s.dmaBusy = false ∧ t = (opState i s).advanceCursor.openTransfer := by
  unfold lineStepWith State.lineWord
  rw [decodeLine_lineWordOf]
  cases h : decodeScan s.field s.scanLine with
  | error r => simp
  | ok i =>
    have hi := (decodeScan_ok h).1
    have hb : (opState i s).advanceCursor.dmaBusy = s.dmaBusy := by rw [opState_eq]; rfl
    simp only [hop _ _ hi, exec_line hi, andThen_of_next, armTransfer, hb, Except.ok.injEq, exists_eq_left']
    cases s.dmaBusy <;> simp [eq_comm]

theorem lineStep_next {s t : State} :
    lineStepWith exec s = .next t ↔
      ∃ i, decodeScan s.field s.scanLine = .ok i ∧ s.dmaBusy = false ∧ t = (opState i s).advanceCursor.openTransfer :=
  lineStepWith_next fun _ _ _ => rfl

theorem startStep_next {s t : State} :
    lineStepWith execLineOp s = .next t ↔
      ∃ i, decodeScan s.field s.scanLine = .ok i ∧ s.dmaBusy = false ∧ t = (opState i s).advanceCursor.openTransfer :=
  lineStepWith_next fun _ s hi => execLineOp_line hi s

/-! ### Turns -/

theorem hostTurn_next {f : BitVec 128} {s t : State} :
    hostTurn f s = .next t ↔ s.cmdBusy = false ∧ (∃ i, decodeFrame f = .ok i) ∧ t = s.present f := by
  unfold hostTurn
  cases s.cmdBusy
  · cases h : decodeFrame f <;> simp [eq_comm]
  · simp

theorem cmdTurn_next {s t : State} :
    cmdTurn s = .next t ↔ s.cmdBusy = true ∧ ∃ i, decodeFrame s.cmdFrame = .ok i ∧ exec i s = .next t := by
  unfold cmdTurn
  cases s.cmdBusy
  · simp
  · cases h : decodeFrame s.cmdFrame <;> simp

theorem xferTurn_next {s t : State} :
    xferTurn s = .next t ↔ s.dmaBusy = true ∧
      ((s.dmaRemain = 0 ∧ t = s.raiseCompletion) ∨
       (s.dmaRemain ≠ 0 ∧ s.cfg.mapped s.dmaAddr = true ∧ t = s.emitWord)) := by
  unfold xferTurn
  have hc : ∀ u : State, (Host.Outcome.next u : Result) = .next t ↔ t = u := fun u =>
    ⟨fun h => (Host.Outcome.next.inj h).symm, fun h => h ▸ rfl⟩
  by_cases hb : s.dmaBusy = true
  · by_cases hr : s.dmaRemain = 0
    · simp only [hb, hr, if_true, hc, true_and, ne_eq, not_true, false_and, or_false]
    · by_cases hm : s.cfg.mapped s.dmaAddr = true
      · simp only [hb, hr, hm, if_true, if_false, hc, true_and, ne_eq, not_false_iff, false_and, false_or]
      · simp only [hb, hr, hm, if_true, if_false, false_and, and_false, or_false, reduceCtorEq, Bool.false_eq_true]
  · simp only [hb, Bool.false_eq_true, if_false, false_and, reduceCtorEq]

theorem seqTurn_next {s t : State} :
    seqTurn s = .next t ↔ s.irqPending = true ∧
      ∃ i, decodeScan s.field s.scanLine = .ok i ∧ s.dmaBusy = false ∧ t = (opState i s).advanceCursor.openTransfer := by
  unfold seqTurn
  cases s.irqPending
  · simp
  · simp [lineStep_next]

/-- One step inverted: an idle step, or the step of one agent (R12). -/
theorem step_next {s t : State} (h : step s = .next t) :
    s.cfg.wf = true ∧
      ((s.turns = [] ∧ t = s) ∨ ∃ tn ts, s.turns = tn :: ts ∧ takeTurn tn (s.setTurns ts) = .next t) := by
  unfold step at h
  split_ifs at h with hw
  refine ⟨hw, ?_⟩
  unfold runSchedule at h
  split at h
  · exact .inl ⟨by assumption, (Host.Outcome.next.inj h).symm⟩
  · exact .inr ⟨_, _, by assumption, h⟩

end Sys2Proof.Machine
end

