-- ==== Sys2Proof/Laws/Runs.lean ====
section
/-! SUPPORT. Running a schedule: no agent reads or writes the schedule, so a turn commutes with setting it, and a run of a schedule is
the composition of its parts. -/

namespace Sys2Proof.Machine

/-- The same answer with another schedule. -/
def withTurns (ts : List Turn) (r : Result) : Result := andThen r fun u => .next (u.setTurns ts)

@[simp] theorem withTurns_next (ts : List Turn) (u : State) : withTurns ts (.next u) = .next (u.setTurns ts) := rfl
@[simp] theorem withTurns_fault (ts : List Turn) (e : Fault) : withTurns ts (.fault e) = .fault e := rfl
@[simp] theorem withTurns_refused (ts : List Turn) (e : Refusal) : withTurns ts (.refused e) = .refused e := rfl

@[simp] theorem State.setTurns_setTurns (s : State) (ts us : List Turn) : (s.setTurns ts).setTurns us = s.setTurns us := rfl
theorem State.setTurns_self (s : State) : s.setTurns s.turns = s := rfl

theorem ite_withTurns (b : Bool) {ts : List Turn} {r q r' q' : Result} (hr : r' = withTurns ts r) (hq : q' = withTurns ts q) :
    (if b = true then r' else q') = withTurns ts (if b = true then r else q) := by
  cases b
  · exact hq
  · exact hr

/-! ### The shared operations do not look at the schedule -/

theorem ifReady_setTurns {s : State} {ts : List Turn} {k : State → Result} (hk : ∀ u, k (u.setTurns ts) = withTurns ts (k u)) :
    ifReady (s.setTurns ts) k = withTurns ts (ifReady s k) := by
  simp only [ifReady, State.setTurns_fbReady, hk]
  split_ifs <;> rfl

theorem storeStep_setTurns {s : State} {ts : List Turn} {a : Addr} {v : WordVal} {k : State → Result}
    (hk : ∀ u, k (u.setTurns ts) = withTurns ts (k u)) :
    storeStep (s.setTurns ts) a v k = withTurns ts (storeStep s a v k) := by
  have e : (s.setTurns ts).storeWord a v = (s.storeWord a v).setTurns ts := rfl
  simp only [storeStep, State.setTurns_cfg, e, hk]
  split_ifs <;> rfl

theorem gpixStep_setTurns {x y : Int} {ph : PixPhase} {f : PixPhase → UState} {s : State} {ts : List Turn} {k : State → Result}
    (hk : ∀ u, k (u.setTurns ts) = withTurns ts (k u)) :
    gpixStep x y ph f (s.setTurns ts) k = withTurns ts (gpixStep x y ph f s k) := by
  cases ph with
  | entry => simp only [gpixStep, State.setTurns_cfg, hk]; split_ifs <;> rfl
  | poll =>
    by_cases h : s.vretrace = true
    · simp [gpixStep, h]; rfl
    · simp [gpixStep, h]
  | write => exact storeStep_setTurns hk

theorem walkStep_setTurns {g : Seg} {w : Walk} {ph : PixPhase} {f : Walk → PixPhase → UState} {s : State} {ts : List Turn}
    {k : State → Result} (hk : ∀ u, k (u.setTurns ts) = withTurns ts (k u)) :
    walkStep g w ph f (s.setTurns ts) k = withTurns ts (walkStep g w ph f s k) := by
  refine gpixStep_setTurns fun u => ?_
  split
  · exact hk u
  · rfl

theorem blitAdvance_setTurns (cols rows row col : Nat) (byte : BitVec 8) (s : State) (ts : List Turn) :
    blitAdvance cols rows row col byte (s.setTurns ts) = withTurns ts (blitAdvance cols rows row col byte s) := by
  unfold blitAdvance
  split_ifs <;> rfl

theorem opState_setTurns (i : Instr) (s : State) (ts : List Turn) : opState i (s.setTurns ts) = (opState i s).setTurns ts := by
  cases i with
  | closeout f n => cases f <;> rfl
  | _ => rfl

theorem lineStepWith_setTurns {op : Instr → State → Result} (hop : ∀ i s, i.isLine = true → op i s = exec i s) (s : State)
    (ts : List Turn) : lineStepWith op (s.setTurns ts) = withTurns ts (lineStepWith op s) := by
  have e : (s.setTurns ts).lineWord = s.lineWord := rfl
  unfold lineStepWith
  rw [e]
  cases h : decodeLine s.lineWord with
  | error r => rfl
  | ok i =>
    have hi : i.isLine = true := by
      rw [State.lineWord, decodeLine_lineWordOf] at h
      exact (decodeScan_ok h).1
    simp only [hop _ _ hi, exec_line hi, andThen_of_next, opState_setTurns]
    unfold armTransfer
    have hb : ∀ u : State, (u.setTurns ts).advanceCursor.dmaBusy = u.advanceCursor.dmaBusy := fun _ => rfl
    rw [hb]
    split_ifs <;> rfl

/-- An operation does not look at the schedule. -/
theorem exec_setTurns (i : Instr) (s : State) (ts : List Turn) : exec i (s.setTurns ts) = withTurns ts (exec i s) := by
  cases i with
  | closeout f n => cases f <;> rfl
  | eqpre | vsync | eqpost | blankpre | actfirst | active | blankpost | width | height | retrace | setact | evenptr | oddptr => rfl
  | circle | fill | text => exact ifReady_setTurns (k := fun t => .next (t.respond 0)) fun _ => rfl
  | start =>
    by_cases hr : s.run = true
    · simp [exec, execStart, hr]
      rfl
    · simp only [exec, execStart, State.setTurns_run, hr, Bool.false_eq_true, if_false]
      rw [show (s.setTurns ts).markRun = s.markRun.setTurns ts from rfl, lineStepWith_setTurns fun _ _ hi => execLineOp_line hi _]
      cases lineStepWith execLineOp s.markRun <;> rfl
  | setpixel x y =>
    have hk : ∀ u : State, (Host.Outcome.next ((u.setTurns ts).respond 0) : Result) = withTurns ts (.next (u.respond 0)) := fun _ => rfl
    simp only [exec, execSetpixel, State.setTurns_ustate]
    split
    · exact ifReady_setTurns fun u => gpixStep_setTurns hk
    · exact gpixStep_setTurns hk
    all_goals rfl
  | line x0 y0 x1 y1 =>
    have hk : ∀ u : State, (Host.Outcome.next ((u.setTurns ts).respond 0) : Result) = withTurns ts (.next (u.respond 0)) := fun _ => rfl
    simp only [exec, execLine, State.setTurns_ustate]
    split
    · exact ifReady_setTurns fun u => walkStep_setTurns hk
    · exact walkStep_setTurns hk
    all_goals rfl
  | box x0 y0 x1 y1 =>
    have hk : ∀ (e : Fin 4) (u : State),
        boxAfterEdge (lineSeg x0 y0 x1 y1) e (u.setTurns ts) = withTurns ts (boxAfterEdge (lineSeg x0 y0 x1 y1) e u) := by
      intro e u
      unfold boxAfterEdge
      split <;> rfl
    simp only [exec, execBox, State.setTurns_ustate]
    split
    · exact ifReady_setTurns fun u => walkStep_setTurns (hk _)
    · exact walkStep_setTurns (hk _)
    all_goals rfl
  | bitblit x0 y0 cols rows bmp =>
    simp only [exec, execBitblit, State.setTurns_ustate]
    split
    · refine ifReady_setTurns fun u => ?_
      split <;> rfl
    · exact ite_withTurns (s.cfg.bmMapped _) rfl rfl
    · unfold blitBitStep
      split
      · exact gpixStep_setTurns fun u => blitAdvance_setTurns _ _ _ _ _ _ _
      · exact blitAdvance_setTurns _ _ _ _ _ _ _
    all_goals rfl
  | clear colour =>
    simp only [exec, execClear, State.setTurns_ustate]
    split
    · exact ifReady_setTurns fun _ => rfl
    · exact storeStep_setTurns fun u => by split <;> rfl
    all_goals rfl
  | fbinit =>
    simp only [exec, execFbinit, State.setTurns_ustate]
    split
    · exact ite_withTurns s.fbReady rfl rfl
    · exact storeStep_setTurns fun u => by split <;> rfl
    · exact ite_withTurns (s.cfg.mapped _) (storeStep_setTurns fun u => by split <;> rfl) rfl
    · rfl
    all_goals rfl

/-- No turn looks at the schedule. -/
theorem takeTurn_setTurns (tn : Turn) (s : State) (ts : List Turn) :
    takeTurn tn (s.setTurns ts) = withTurns ts (takeTurn tn s) := by
  cases tn with
  | host f =>
    refine ite_withTurns s.cmdBusy rfl ?_
    cases decodeFrame f <;> rfl
  | cmd =>
    refine ite_withTurns s.cmdBusy ?_ rfl
    rw [State.setTurns_cmdFrame]
    cases decodeFrame s.cmdFrame with
    | ok i => exact exec_setTurns _ _ _
    | error r => rfl
  | xfer =>
    refine ite_withTurns s.dmaBusy ?_ rfl
    by_cases hr : s.dmaRemain = 0
    · simp only [State.setTurns_dmaRemain, hr, if_true]
      rfl
    · simp only [State.setTurns_dmaRemain, hr, if_false]
      exact ite_withTurns (s.cfg.mapped _) rfl rfl
  | seq =>
    exact ite_withTurns s.irqPending (lineStepWith_setTurns (fun _ _ _ => rfl) _ _) rfl
  | rst d => rfl

/-! ### Runs -/

theorem step_turn {s : State} {tn : Turn} {ts : List Turn} (hw : s.cfg.wf = true) (ht : s.turns = tn :: ts) :
    step s = takeTurn tn (s.setTurns ts) := by
  simp [step, hw, runSchedule, ht]

theorem runTurns_nil (s : State) : runTurns [] s = .next (s.setTurns []) := rfl

/-- A turn of the state itself, then the rest of the schedule. -/
theorem runTurns_cons {tn : Turn} {ts : List Turn} {s : State} (hw : s.cfg.wf = true) :
    runTurns (tn :: ts) s = andThen (takeTurn tn s) (runTurns ts) := by
  unfold runTurns
  simp only [List.length_cons, runFor]
  rw [step_turn (s := s.setTurns (tn :: ts)) hw rfl, State.setTurns_setTurns, takeTurn_setTurns]
  cases takeTurn tn s <;> rfl

/-- A turn that answers `u`, then the rest of the schedule from `u`. -/
theorem runTurns_next {tn : Turn} {ts : List Turn} {s u : State} (hw : s.cfg.wf = true) (h : takeTurn tn s = .next u) :
    runTurns (tn :: ts) s = runTurns ts u := by
  rw [runTurns_cons hw, h, andThen_of_next]

/-- What a step leaves of the configuration: all of it. -/
theorem takeTurn_cfg {tn : Turn} {s t : State} (h : takeTurn tn s = .next t) : t.cfg = s.cfg := by
  cases tn with
  | host f => obtain ⟨-, -, rfl⟩ := hostTurn_next.1 h; rfl
  | cmd =>
    obtain ⟨-, i, hd, h'⟩ := cmdTurn_next.1 h
    have hs := exec_shape (decodeFrame_ok hd).1 h'
    clear h h'
    cases hs with
    | start u _ _ hl =>
      obtain ⟨j, -, -, rfl⟩ := startStep_next.1 hl
      rw [opState_eq]
      rfl
    | _ => rfl
  | xfer => obtain ⟨-, ⟨-, rfl⟩ | ⟨-, -, rfl⟩⟩ := xferTurn_next.1 h <;> rfl
  | seq =>
    obtain ⟨-, i, -, -, rfl⟩ := seqTurn_next.1 h
    rw [opState_eq]
    rfl
  | rst d =>
    obtain rfl := (Host.Outcome.next.inj h).symm
    rfl

theorem andThen_assoc (r : Result) (k l : State → Result) : andThen (andThen r k) l = andThen r fun u => andThen (k u) l := by
  cases r <;> rfl

/-- A schedule in two parts. -/
theorem runTurns_append (l m : List Turn) {s : State} (hw : s.cfg.wf = true) :
    runTurns (l ++ m) s = andThen (runTurns l s) (runTurns m) := by
  induction l generalizing s with
  | nil => rfl
  | cons tn l ih =>
    rw [List.cons_append, runTurns_cons hw, runTurns_cons hw, andThen_assoc]
    cases h : takeTurn tn s with
    | next u => exact ih (by rw [takeTurn_cfg h]; exact hw)
    | fault e => rfl
    | refused e => rfl

end Sys2Proof.Machine
end

