-- ==== Sys2Proof/Laws/Walk.lean ====
section
/-! SUPPORT. The walk of a line in closed form (R201, R202): along its longer axis it moves one at a time, and it is at the end point after `span` turns and not before. -/

namespace Sys2Proof.Machine

theorem walk_succ (g : Seg) (k : Nat) : g.advance^[k+1] g.begin = g.advance (g.advance^[k] g.begin) := Function.iterate_succ_apply' _ _ _

theorem Seg.dx_eq (g : Seg) : g.dx = ((g.x1 - g.x0).natAbs : Int) := by unfold Seg.dx; rw [Int.abs_eq_natAbs]

theorem Seg.dy_eq (g : Seg) : g.dy = -((g.y1 - g.y0).natAbs : Int) := by unfold Seg.dy; rw [Int.abs_eq_natAbs]

theorem walk_flat (g : Seg) (hDE : (g.y1 - g.y0).natAbs ≤ (g.x1 - g.x0).natAbs) (k : Nat) :
    ∃ b : Int, 0 ≤ b ∧ (g.advance^[k] g.begin).x = g.x0 + k * g.sx ∧ (g.advance^[k] g.begin).y = g.y0 + b * g.sy ∧
      (g.advance^[k] g.begin).err = (b + 1) * g.dx + (k + 1) * g.dy ∧ g.dy ≤ 2 * (g.advance^[k] g.begin).err ∧
      2 * (g.advance^[k] g.begin).err ≤ 3 * g.dx + 2 * g.dy := by
  have h1 := Seg.dx_eq g
  have h2 := Seg.dy_eq g
  induction k with
  | zero =>
    refine ⟨0, le_refl _, by simp [Seg.begin], by simp [Seg.begin], by simp [Seg.begin], ?_, ?_⟩ <;> simp only [Seg.begin, Function.iterate_zero, id_eq] <;> omega
  | succ k ih =>
    obtain ⟨b, hb0, hx, hy, he, hlo, hhi⟩ := ih
    rw [walk_succ]
    generalize g.advance^[k] g.begin = w at *
    by_cases hb : 2 * w.err ≤ g.dx
    · refine ⟨b + 1, by omega, ?_, ?_, ?_, ?_, ?_⟩ <;> simp only [Seg.advance, ge_iff_le, hlo, hb, if_true]
      · rw [hx]; push_cast; ring
      · rw [hy]; ring
      · rw [he]; push_cast; ring
      · omega
      · omega
    · refine ⟨b, hb0, ?_, ?_, ?_, ?_, ?_⟩ <;> simp only [Seg.advance, ge_iff_le, hlo, hb, if_true, if_false]
      · rw [hx]; push_cast; ring
      · rw [hy]
      · rw [he]; push_cast; ring
      · omega
      · omega

theorem walk_steep (g : Seg) (hDE : (g.x1 - g.x0).natAbs < (g.y1 - g.y0).natAbs) (k : Nat) :
    ∃ b : Int, 0 ≤ b ∧ (g.advance^[k] g.begin).y = g.y0 + k * g.sy ∧ (g.advance^[k] g.begin).x = g.x0 + b * g.sx ∧
      (g.advance^[k] g.begin).err = (k + 1) * g.dx + (b + 1) * g.dy ∧ 3 * g.dy + 2 * g.dx ≤ 2 * (g.advance^[k] g.begin).err ∧
      2 * (g.advance^[k] g.begin).err ≤ g.dx := by
  have h1 := Seg.dx_eq g
  have h2 := Seg.dy_eq g
  induction k with
  | zero =>
    refine ⟨0, le_refl _, by simp [Seg.begin], by simp [Seg.begin], by simp [Seg.begin], ?_, ?_⟩ <;> simp only [Seg.begin, Function.iterate_zero, id_eq] <;> omega
  | succ k ih =>
    obtain ⟨b, hb0, hx, hy, he, hlo, hhi⟩ := ih
    rw [walk_succ]
    generalize g.advance^[k] g.begin = w at *
    by_cases hb : g.dy ≤ 2 * w.err
    · refine ⟨b + 1, by omega, ?_, ?_, ?_, ?_, ?_⟩ <;> simp only [Seg.advance, ge_iff_le, hhi, hb, if_true]
      · rw [hx]; push_cast; ring
      · rw [hy]; ring
      · rw [he]; push_cast; ring
      · omega
      · omega
    · refine ⟨b, hb0, ?_, ?_, ?_, ?_, ?_⟩ <;> simp only [Seg.advance, ge_iff_le, hhi, hb, if_true, if_false]
      · rw [hx]; push_cast; ring
      · rw [hy]
      · rw [he]; push_cast; ring
      · omega
      · omega

theorem Seg.dx_mul_sx (g : Seg) : g.dx * g.sx = g.x1 - g.x0 := by
  rw [Seg.dx_eq]; unfold Seg.sx; split <;> omega

theorem Seg.dy_mul_sy (g : Seg) : (-g.dy) * g.sy = g.y1 - g.y0 := by
  rw [Seg.dy_eq]; unfold Seg.sy; split <;> omega

theorem Seg.sx_cases (g : Seg) : g.sx = 1 ∨ g.sx = -1 := by unfold Seg.sx; split <;> simp

theorem Seg.sy_cases (g : Seg) : g.sy = 1 ∨ g.sy = -1 := by unfold Seg.sy; split <;> simp

/-- the walk is at the end point exactly after `span` steps -/
theorem walk_end (g : Seg) : (g.advance^[g.span] g.begin).x = g.x1 ∧ (g.advance^[g.span] g.begin).y = g.y1 := by
  have h1 := Seg.dx_eq g
  have h2 := Seg.dy_eq g
  have hs := Seg.dx_mul_sx g
  have ht := Seg.dy_mul_sy g
  by_cases hDE : (g.y1 - g.y0).natAbs ≤ (g.x1 - g.x0).natAbs
  · have hsp : g.span = (g.x1 - g.x0).natAbs := by unfold Seg.span; omega
    obtain ⟨b, hb0, hx, hy, he, hlo, hhi⟩ := walk_flat g hDE g.span
    rw [hx, hy]
    have hk : (g.span : Int) = g.dx := by rw [h1, hsp]
    rw [hk] at he hx ⊢
    have hb : b = -g.dy ∨ g.dx = 0 := by
      by_contra hc
      push Not at hc
      have hD : 0 < g.dx := by omega
      rcases lt_or_gt_of_ne hc.1 with h | h
      · have : (b + 1) * g.dx ≤ (-g.dy) * g.dx := mul_le_mul_of_nonneg_right (by omega) (by omega)
        nlinarith
      · have : (-g.dy + 2) * g.dx ≤ (b + 1) * g.dx := mul_le_mul_of_nonneg_right (by omega) (by omega)
        nlinarith
    refine ⟨by rw [hs]; ring, ?_⟩
    rcases hb with hb | hb
    · rw [hb, ht]; ring
    · have hE : g.dy = 0 := by omega
      have hs0 : g.span = 0 := by omega
      have hy' := hy
      rw [hs0] at hy
      simp [Seg.begin] at hy
      have : b * g.sy = 0 := by rcases hy with h | h <;> simp [h]
      rw [this]; omega
  · have hsp : g.span = (g.y1 - g.y0).natAbs := by unfold Seg.span; omega
    obtain ⟨b, hb0, hy, hx, he, hlo, hhi⟩ := walk_steep g (by omega) g.span
    rw [hx, hy]
    have hk : (g.span : Int) = -g.dy := by rw [h2, hsp]; ring
    rw [hk] at he hy ⊢
    have hb : b = g.dx := by
      by_contra hc
      have hD : 0 < -g.dy := by omega
      rcases lt_or_gt_of_ne hc with h | h
      · have : (b + 1) * (-g.dy) ≤ g.dx * (-g.dy) := mul_le_mul_of_nonneg_right (by omega) (by omega)
        nlinarith
      · have : (g.dx + 2) * (-g.dy) ≤ (b + 1) * (-g.dy) := mul_le_mul_of_nonneg_right (by omega) (by omega)
        nlinarith
    rw [hb, hs, ht]
    exact ⟨by ring, by ring⟩

theorem walk_not_end (g : Seg) (k : Nat) (hk : k < g.span) : g.isEnd (g.advance^[k] g.begin) = false := by
  have h1 := Seg.dx_eq g
  have h2 := Seg.dy_eq g
  by_contra hc
  simp only [Seg.isEnd, Bool.not_eq_false, Bool.and_eq_true, decide_eq_true_eq] at hc
  by_cases hDE : (g.y1 - g.y0).natAbs ≤ (g.x1 - g.x0).natAbs
  · have hsp : g.span = (g.x1 - g.x0).natAbs := by unfold Seg.span; omega
    obtain ⟨b, hb0, hx, -⟩ := walk_flat g hDE k
    rw [hc.1] at hx
    rcases Seg.sx_cases g with h | h <;> rw [h] at hx <;> omega
  · have hsp : g.span = (g.y1 - g.y0).natAbs := by unfold Seg.span; omega
    obtain ⟨b, hb0, hy, -⟩ := walk_steep g (by omega) k
    rw [hc.2] at hy
    rcases Seg.sy_cases g with h | h <;> rw [h] at hy <;> omega

theorem advance_near (g : Seg) (w : Walk) : ((g.advance w).x - w.x).natAbs ≤ 1 ∧ ((g.advance w).y - w.y).natAbs ≤ 1 := by
  have := Seg.sx_cases g
  have := Seg.sy_cases g
  simp only [Seg.advance]
  constructor <;> split_ifs <;> omega

end Sys2Proof.Machine
end

