-- ==== Sys2Proof/Laws/CommandRuns.lean ====
section
/-! SUPPORT. CMD turns in a row: one pixel, one line, one fill of a rectangle of words. -/

namespace Sys2Proof.Machine

theorem takeTurn_cmd {s t : State} {i : Instr} (hb : s.cmdBusy = true) (hd : decodeFrame s.cmdFrame = .ok i) (h : exec i s = .next t) :
    takeTurn .cmd s = .next t := cmdTurn_next.2 ⟨hb, i, hd, h⟩

/-- state of the command at micro-state u with word memory wm -/
def atMicro (s : State) (u : UState) (wm : WordMem) : State := { s with ustate := u, wm := wm }

/-- one pixel -/
theorem pixel_run {s : State} {i : Instr} {x y : Int} {f : PixPhase → UState} {k : State → Result} {fin : WordMem → State} {ts : List Turn} {u0 : UState} {wm : WordMem}
    (hw : s.cfg.wf = true) (hp : s.cfg.platformComplete = true) (hb : s.cmdBusy = true) (hd : decodeFrame s.cmdFrame = .ok i) (hv : s.vretrace = true)
    (he : exec i (atMicro s u0 wm) = gpixStep x y .entry f (atMicro s u0 wm) k)
    (hf : ∀ wm ph, ph ≠ .entry → exec i (atMicro s (f ph) wm) = gpixStep x y ph f (atMicro s (f ph) wm) k)
    (hk : ∀ u wm, k (atMicro s u wm) = .next (fin wm)) :
    runTurns (List.replicate (pointCost s.cfg (x, y)) .cmd ++ ts) (atMicro s u0 wm) = runTurns ts (fin (plot s.cfg s.pixact wm (x, y))) := by
  have g := (Config.wf_iff_good _).1 hw
  unfold pointCost
  by_cases hin : inBounds s.cfg x y = true
  · rw [if_pos hin]
    show runTurns (.cmd :: .cmd :: .cmd :: ts) _ = _
    rw [runTurns_next (s := atMicro s u0 wm) (u := atMicro s (f .poll) wm) hw (takeTurn_cmd hb hd (by
      rw [he]; show (if inBounds s.cfg x y = true then _ else _) = _; rw [if_pos hin]; rfl))]
    rw [runTurns_next (s := atMicro s (f .poll) wm) (u := atMicro s (f .write) wm) hw (takeTurn_cmd hb hd (by
      rw [hf _ .poll (by simp)]; show (if s.vretrace = true then _ else _) = _; rw [if_pos hv]; rfl))]
    rw [runTurns_next (s := atMicro s (f .write) wm) (u := fin (plot s.cfg s.pixact wm (x, y))) hw (takeTurn_cmd hb hd ?_)]
    rw [hf _ .write (by simp), gpixStep_write (s := atMicro s (f .write) wm) hin (pixelAddr_mapped g hp hin)]
    exact hk (f .write) _
  · rw [if_neg hin]
    show runTurns (.cmd :: ts) _ = _
    have hpl : plot s.cfg s.pixact wm (x, y) = wm := by unfold plot; rw [if_neg hin]
    rw [hpl, runTurns_next (s := atMicro s u0 wm) (u := fin wm) hw (takeTurn_cmd hb hd ?_)]
    rw [he]
    show (if inBounds s.cfg x y = true then _ else _) = _
    rw [if_neg hin]
    exact hk u0 wm

/-- a whole walk -/
theorem walk_run {s : State} {i : Instr} {gg : Seg} {f : Walk → PixPhase → UState} {k : State → Result} {fin : WordMem → State} {ts : List Turn}
    (hw : s.cfg.wf = true) (hp : s.cfg.platformComplete = true) (hb : s.cmdBusy = true) (hd : decodeFrame s.cmdFrame = .ok i) (hv : s.vretrace = true)
    (hf : ∀ w wm ph, exec i (atMicro s (f w ph) wm) = walkStep gg w ph f (atMicro s (f w ph) wm) k)
    (hk : ∀ u wm, k (atMicro s u wm) = .next (fin wm)) :
    ∀ (m : Nat) (w : Walk) (u0 : UState) (wm : WordMem), (gg.isEnd (gg.advance^[m] w) = true) → (∀ j, j < m → gg.isEnd (gg.advance^[j] w) = false) →
     exec i (atMicro s u0 wm) = walkStep gg w .entry f (atMicro s u0 wm) k →
     runTurns (List.replicate ((((List.range (m + 1)).map fun j => ((gg.advance^[j] w).x, (gg.advance^[j] w).y)).map (pointCost s.cfg)).sum) .cmd ++ ts) (atMicro s u0 wm) =
       runTurns ts (fin (plotAll s.cfg s.pixact wm ((List.range (m + 1)).map fun j => ((gg.advance^[j] w).x, (gg.advance^[j] w).y)))) := by
  intro m
  induction m with
  | zero =>
    intro w u0 wm he _ h0
    simp only [Function.iterate_zero, id_eq] at he
    have : (List.range (0 + 1)).map (fun j => ((gg.advance^[j] w).x, (gg.advance^[j] w).y)) = [(w.x, w.y)] := rfl
    rw [this]
    simp only [List.map_cons, List.map_nil, List.sum_cons, List.sum_nil, Nat.add_zero]
    rw [pixel_run (x := w.x) (y := w.y) (f := f w) (k := walkNext gg w f k) (fin := fin) hw hp hb hd hv h0 (fun wm ph _ => hf w wm ph)]
    · rfl
    · intro u wm; unfold walkNext; rw [if_pos he]; exact hk u wm
  | succ m ih =>
    intro w u0 wm he hn h0
    have hnw : gg.isEnd w = false := hn 0 (by omega)
    have e : (List.range (m + 1 + 1)).map (fun j => ((gg.advance^[j] w).x, (gg.advance^[j] w).y)) =
        (w.x, w.y) :: (List.range (m + 1)).map (fun j => ((gg.advance^[j] (gg.advance w)).x, (gg.advance^[j] (gg.advance w)).y)) := by
      rw [List.range_succ_eq_map, List.map_cons, List.map_map]; rfl
    rw [e]
    simp only [List.map_cons, List.sum_cons, List.replicate_add, List.append_assoc]
    rw [pixel_run (x := w.x) (y := w.y) (f := f w) (k := walkNext gg w f k) (fin := fun wm => atMicro s (f (gg.advance w) .entry) wm) hw hp hb hd hv h0 (fun wm ph _ => hf w wm ph)]
    · exact ih (gg.advance w) _ _ he (fun j hj => hn (j + 1) (by omega)) (hf _ _ _)
    · intro u wm; unfold walkNext; rw [if_neg (by simp [hnw])]; rfl

theorem seg_run {s : State} {i : Instr} {gg : Seg} {f : Walk → PixPhase → UState} {k : State → Result} {fin : WordMem → State} {ts : List Turn} {u0 : UState} {wm : WordMem}
    (hw : s.cfg.wf = true) (hp : s.cfg.platformComplete = true) (hb : s.cmdBusy = true) (hd : decodeFrame s.cmdFrame = .ok i) (hv : s.vretrace = true)
    (hf : ∀ w wm ph, exec i (atMicro s (f w ph) wm) = walkStep gg w ph f (atMicro s (f w ph) wm) k)
    (hk : ∀ u wm, k (atMicro s u wm) = .next (fin wm)) (h0 : exec i (atMicro s u0 wm) = walkStep gg gg.begin .entry f (atMicro s u0 wm) k) :
    runTurns (List.replicate ((gg.points.map (pointCost s.cfg)).sum) .cmd ++ ts) (atMicro s u0 wm) = runTurns ts (fin (plotAll s.cfg s.pixact wm gg.points)) := by
  unfold Seg.points
  exact walk_run hw hp hb hd hv hf hk gg.span gg.begin u0 wm (by simp [Seg.isEnd, walk_end gg]) (walk_not_end gg) h0

theorem storeStep_mapped {s : State} {a : Addr} {v : WordVal} {k : State → Result} (h : s.cfg.mapped a = true) : storeStep s a v k = k (s.storeWord a v) := by
  unfold storeStep; rw [if_pos h]

theorem nextWord_count {lo hi rows r j r2 j2 n : Nat} (_hr : r < rows) (hj : lo ≤ j) (hj' : j < hi) (hnx : nextWord lo hi rows r j = some (r2, j2))
    (hn : n + 1 = (rows - r) * (hi - lo) - (j - lo)) :
    n = (rows - r2) * (hi - lo) - (j2 - lo) ∧ ((r2 = r ∧ j2 = j + 1) ∨ (r2 = r + 1 ∧ j2 = lo ∧ j + 1 = hi)) := by
  unfold nextWord at hnx
  split_ifs at hnx with h1 h2
  · simp only [Option.some.injEq, Prod.mk.injEq] at hnx
    obtain ⟨rfl, rfl⟩ := hnx
    generalize (rows - r) * (hi - lo) = P at *
    exact ⟨by omega, .inl ⟨rfl, rfl⟩⟩
  · simp only [Option.some.injEq, Prod.mk.injEq] at hnx
    obtain ⟨rfl, rfl⟩ := hnx
    refine ⟨?_, .inr ⟨rfl, rfl, by omega⟩⟩
    have : (rows - r) * (hi - lo) = (rows - (r + 1)) * (hi - lo) + (hi - lo) := by
      rw [show rows - r = (rows - (r + 1)) + 1 by omega, Nat.add_mul, Nat.one_mul]
    rw [this] at hn
    generalize (rows - (r+1)) * (hi - lo) = P at *
    omega

/-- Loop over the words (r, i) of a rectangle: total steps rows*(hi-lo). f r i = microstate, body writes v r i. -/
theorem fill_run {s : State} {i : Instr} {lo hi rows : Nat} {f : Nat → Nat → UState} {val : Nat → WordVal} {ts : List Turn} {last : WordMem → State}
    (hb : s.cmdBusy = true) (hw : s.cfg.wf = true) (hd : decodeFrame s.cmdFrame = .ok i) (hlo : lo < hi) (hhi : hi ≤ s.cfg.lineWords) (hrows : rows ≤ s.cfg.yRes)
    (Q : WordMem → Prop)
    (hQ : ∀ wm r j, Q wm → r < rows → lo ≤ j → j < hi → Q (Memory.write wmDefault wm (s.cfg.fbw r j).toNat (val j)))
    (hstep : ∀ wm r j, Q wm → r < rows → lo ≤ j → j < hi → exec i (atMicro s (f r j) wm) =
      match nextWord lo hi rows r j with
      | some (r', j') => .next (atMicro s (f r' j') (Memory.write wmDefault wm (s.cfg.fbw r j).toNat (val j)))
      | none => .next (last (Memory.write wmDefault wm (s.cfg.fbw r j).toNat (val j)))) :
    ∀ (n r j : Nat) (wm : WordMem), Q wm → r < rows → lo ≤ j → j < hi → n = (rows - r) * (hi - lo) - (j - lo) → Memory.rising wm = true →
     ∃ wm', runTurns (List.replicate n .cmd ++ ts) (atMicro s (f r j) wm) = runTurns ts (last wm') ∧ Q wm' ∧ Memory.rising wm' = true ∧
       (∀ r' j', r' < rows → lo ≤ j' → j' < hi → (r < r' ∨ (r = r' ∧ j ≤ j')) → Memory.read wmDefault wm' (s.cfg.fbw r' j').toNat = val j') ∧
       (∀ b, (∀ r' j', r' < rows → lo ≤ j' → j' < hi → (r < r' ∨ (r = r' ∧ j ≤ j')) → b ≠ (s.cfg.fbw r' j').toNat) → Memory.read wmDefault wm' b = Memory.read wmDefault wm b) := by
  have g := (Config.wf_iff_good _).1 hw
  intro n
  induction n with
  | zero =>
    intro r j wm _ hr hj hj' hn _
    exfalso
    have : 1 * (hi - lo) ≤ (rows - r) * (hi - lo) := Nat.mul_le_mul_right _ (by omega)
    omega
  | succ n ih =>
    intro r j wm hq hr hj hj' hn hris
    have hs := hstep wm r j hq hr hj hj'
    have hris' := Memory.write_rising (d := wmDefault) wm (s.cfg.fbw r j).toNat (val j) hris
    have hq' := hQ wm r j hq hr hj hj'
    generalize hwm' : Memory.write wmDefault wm (s.cfg.fbw r j).toNat (val j) = wm1 at *
    have rd : ∀ b, Memory.read wmDefault wm1 b = if b = (s.cfg.fbw r j).toNat then val j else Memory.read wmDefault wm b := by
      intro b; rw [← hwm', Memory.read_write _ _ _ _ hris]
    cases hnx : nextWord lo hi rows r j with
    | none =>
      rw [hnx] at hs
      unfold nextWord at hnx
      split_ifs at hnx with h1 h2
      have hr1 : rows - r = 1 := by omega
      have hn0 : n = 0 := by rw [hr1, Nat.one_mul] at hn; omega
      subst hn0
      refine ⟨wm1, ?_, hq', hris', ?_, ?_⟩
      · show runTurns (.cmd :: ts) _ = _
        exact runTurns_next (s := atMicro s (f r j) wm) (u := last wm1) hw (takeTurn_cmd (s := atMicro s (f r j) wm) hb hd hs)
      · intro r' j' a1 a2 a3 a4
        have e1 : r' = r := by omega
        have e2 : j' = j := by omega
        rw [rd, e1, e2, if_pos rfl]
      · intro b hbb
        rw [rd, if_neg (hbb r j hr hj hj' (by omega))]
    | some p =>
      obtain ⟨r2, j2⟩ := p
      rw [hnx] at hs
      have hns := nextWord_some hlo hj hr hnx
      have hn2 := nextWord_count hr hj hj' hnx hn
      obtain ⟨wm', q1, q2, q3, q4, q5⟩ := ih r2 j2 wm1 hq' hns.1 hns.2.1 hns.2.2 hn2.1 hris'
      refine ⟨wm', ?_, q2, q3, ?_, ?_⟩
      · rw [← q1]
        rw [List.replicate_succ, List.cons_append]
        exact runTurns_next (s := atMicro s (f r j) wm) (u := atMicro s (f r2 j2) wm1) hw (takeTurn_cmd (s := atMicro s (f r j) wm) hb hd hs)
      · intro r' j' a1 a2 a3 a4
        by_cases h : r2 < r' ∨ (r2 = r' ∧ j2 ≤ j')
        · exact q4 r' j' a1 a2 a3 h
        · have e1 : r' = r := by omega
          have e2 : j' = j := by omega
          subst e1 e2
          rw [q5, rd, if_pos rfl]
          intro r'' j'' b1 b2 b3 b4 e
          obtain ⟨c1, c2⟩ := g.fbw_inj (by omega) (by omega) (by omega) (by omega) (BitVec.eq_of_toNat_eq e)
          omega
      · intro b hbb
        rw [q5, rd, if_neg (hbb r j hr hj hj' (by omega))]
        intro r' j' a1 a2 a3 a4
        exact hbb r' j' a1 a2 a3 (by omega)

end Sys2Proof.Machine
end

