-- ==== Sys2Proof/Laws/Engine.lean ====
section
/-! SUPPORT. What a step can do to SEQ and XFER, and how the cursor, the line table and the records move. -/

namespace Sys2Proof.Machine

theorem redrawFramebuffer_outside (c : Config) (fb : WordMem) (a : Nat) (ha : c.fbRegion.contains a = false) : ∀ wm : WordMem,
    Memory.rising wm = true → Memory.read wmDefault (redrawFramebuffer c wm fb) a = Memory.read wmDefault wm a := by
  unfold redrawFramebuffer
  induction fb with
  | nil => intro wm _; rfl
  | cons e fb ih =>
    intro wm h
    simp only [List.foldl_cons]
    split_ifs with hc
    · rw [ih _ (Memory.write_rising _ _ _ h), Memory.read_write_other _ _ _ _ h]
      rintro rfl; rw [hc] at ha; exact absurd ha (by simp)
    · exact ih _ h

theorem redrawFramebuffer_wf (c : Config) (hg : c.Good) (fb : WordMem) (bm : ByteMem) : ∀ wm : WordMem,
    Memory.wf c.wordW wm bm = true → Memory.wf c.wordW (redrawFramebuffer c wm fb) bm = true := by
  unfold redrawFramebuffer
  induction fb with
  | nil => intro wm h; exact h
  | cons e fb ih =>
    intro wm h
    simp only [List.foldl_cons]
    split_ifs with hc
    · refine ih _ (Memory.write_wf ?_ ?_ h)
      · rw [Region.contains_iff] at hc
        have := hg.fb
        simp only [Config.fbRegion] at hc
        omega
      · exact Nat.mod_lt _ (Nat.two_pow_pos _)
    · exact ih _ h

theorem step_cfg {s t : State} (h : step s = .next t) : t.cfg = s.cfg := by
  rcases (step_next h).2 with ⟨-, rfl⟩ | ⟨tn, ts, -, h⟩
  · rfl
  cases tn with
  | host f => obtain ⟨-, -, rfl⟩ := hostTurn_next.1 h; rfl
  | cmd =>
    obtain ⟨-, i, hd, h⟩ := cmdTurn_next.1 h
    have hs := exec_shape (decodeFrame_ok hd).1 h
    clear h
    cases hs <;> try rfl
    rename_i u hi hr hl _
    obtain ⟨j, hj, -, rfl⟩ := startStep_next.1 hl
    rw [opState_eq]; rfl
  | xfer => obtain ⟨-, ⟨-, rfl⟩ | ⟨-, -, rfl⟩⟩ := xferTurn_next.1 h <;> rfl
  | seq => obtain ⟨-, i, -, -, rfl⟩ := seqTurn_next.1 h; rw [opState_eq]; rfl
  | rst d => simp only [takeTurn, rstTurn, Host.Outcome.next.injEq] at h; subst h; rfl

theorem line_phases {n : Nat} (h : n < 262) : n < 3 ∨ (3 ≤ n ∧ n < 6) ∨ (6 ≤ n ∧ n < 9) ∨ (9 ≤ n ∧ n < 30) ∨ n = 30 ∨
    (31 ≤ n ∧ n < 246) ∨ (246 ≤ n ∧ n < 261) ∨ n = 261 := by omega

theorem lineNumber_eq {n : BitVec 9} {k : Nat} (hk : k < 512) : (n = BitVec.ofNat 9 k) ↔ n.toNat = k := by
  constructor
  · rintro rfl; simp; omega
  · intro h; apply BitVec.eq_of_toNat_eq; simp; omega

theorem fbw_two_strides (c : Config) (k : Nat) : c.fbw k 0 + BitVec.ofNat 32 (2 * c.lineWords) = c.fbw (k + 2) 0 := by
  unfold Config.fbw
  rw [BitVec.add_assoc, ← BitVec.ofNat_add]
  congr 2; ring

theorem op_plan {s : State} {i : Instr} (h : decodeScan s.field s.scanLine = .ok i) :
    (opState i s).vretrace = (linePlan s.field s.scanLine.toNat).2.2.flag s.vretrace ∧
    (opState i s).xferLen = (linePlan s.field s.scanLine.toNat).2.1.words s.cfg s.xferLen ∧
    ((31 ≤ s.scanLine.toNat → s.scanLine.toNat < 246 →
        s.srcPtr = s.cfg.fbw (fieldRow s.field (s.scanLine.toNat - 1)) 0) →
      (opState i s).srcPtr = (linePlan s.field s.scanLine.toNat).1.addr s.cfg s.srcPtr) := by
  obtain ⟨h1, h2, h3, h4, h5, h6, h7, h8⟩ := decodeScan_range s.field s.scanLine
  have hl := (decodeScan_ok h).2.2.2
  have e8 : s.scanLine = 8#9 ↔ s.scanLine.toNat = 8 := lineNumber_eq (by decide)
  rcases line_phases hl with r | r | r | r | r | r | r | r
  · rw [h1 r] at h; obtain rfl := (Except.ok.inj h).symm
    cases hf : s.field <;> simp [linePlan, r, opState, retraceAfterEqpre, State.setTransfer, State.setRetrace, NextRetrace.flag, TransferLength.words, BufferKind.addr]
  · rw [h2 r.1 r.2] at h; obtain rfl := (Except.ok.inj h).symm
    unfold linePlan; rw [if_neg (by omega), if_pos r.2]; exact ⟨rfl, rfl, fun _ => rfl⟩
  · rw [h3 r.1 r.2] at h; obtain rfl := (Except.ok.inj h).symm
    unfold linePlan; rw [if_neg (by omega), if_neg (by omega), if_pos r.2]
    refine ⟨rfl, ?_, fun _ => rfl⟩
    simp only [opState, State.setTransfer, eqpostLength, e8]
    split_ifs <;> rfl
  · rw [h4 r.1 r.2] at h; obtain rfl := (Except.ok.inj h).symm
    unfold linePlan; rw [if_neg (by omega), if_neg (by omega), if_neg (by omega), if_pos r.2]; exact ⟨rfl, rfl, fun _ => rfl⟩
  · rw [h5 r] at h; obtain rfl := (Except.ok.inj h).symm
    unfold linePlan; rw [if_neg (by omega), if_neg (by omega), if_neg (by omega), if_neg (by omega), if_pos r]; refine ⟨rfl, rfl, fun _ => ?_⟩
    simp only [opState, BufferKind.addr, State.setTransfer, State.setRetrace]
    cases s.field <;> simp [fieldPointer, fieldRow, Config.fbw, Config.evenPtr, Config.oddPtr]
  · rw [h6 r.1 r.2] at h; obtain rfl := (Except.ok.inj h).symm
    unfold linePlan; rw [if_neg (by omega), if_neg (by omega), if_neg (by omega), if_neg (by omega), if_neg (by omega), if_pos r.2]; refine ⟨rfl, rfl, fun hh => ?_⟩
    simp only [opState, BufferKind.addr, State.setTransfer]
    rw [hh r.1 r.2, fbw_two_strides]
    congr 1
    cases s.field <;> simp only [fieldRow] <;> omega
  · rw [h7 r.1 r.2] at h; obtain rfl := (Except.ok.inj h).symm
    unfold linePlan; rw [if_neg (by omega), if_neg (by omega), if_neg (by omega), if_neg (by omega), if_neg (by omega), if_neg (by omega), if_pos r.2]; exact ⟨rfl, rfl, fun _ => rfl⟩
  · rw [h8 r] at h; obtain rfl := (Except.ok.inj h).symm
    unfold linePlan; rw [if_neg (by omega), if_neg (by omega), if_neg (by omega), if_neg (by omega), if_neg (by omega), if_neg (by omega), if_neg (by omega)]
    cases s.field <;> exact ⟨rfl, rfl, fun _ => rfl⟩

theorem nextLine_toNat {n : BitVec 9} (h : n.toNat < 262) : (nextLine n).toNat = if n.toNat = 261 then 0 else n.toNat + 1 := by
  have e : n = 261#9 ↔ n.toNat = 261 := lineNumber_eq (by decide)
  unfold nextLine
  simp only [e]
  split_ifs
  · rfl
  · rw [BitVec.toNat_add]; simp; omega

theorem nextField_eq {f : Field} {n : BitVec 9} : nextField f n = if n.toNat = 261 then otherField f else f := by
  have e : n = 261#9 ↔ n.toNat = 261 := lineNumber_eq (by decide)
  unfold nextField; simp only [e]

/-- the state LINESTEP leaves -/
theorem lineStep_fields (i : Instr) (s : State) :
  let u := (opState i s).advanceCursor.openTransfer
  u.scanLine = nextLine s.scanLine ∧ u.field = nextField s.field s.scanLine ∧ u.vretrace = (opState i s).vretrace ∧
  u.srcPtr = (opState i s).srcPtr ∧ u.xferLen = (opState i s).xferLen ∧ u.dmaAddr = u.srcPtr ∧ u.dmaRemain = u.xferLen ∧ u.dmaBusy = true ∧
  u.irqPending = false ∧ u.out = s.out ++ [{ src := u.srcPtr, len := u.xferLen, words := [] }] ∧ u.run = s.run ∧ u.cfg = s.cfg ∧
  u.wm = s.wm ∧ u.bm = s.bm ∧ u.pixact = s.pixact ∧ u.fbReady = s.fbReady ∧ u.cmdBusy = s.cmdBusy ∧ u.cmdFrame = s.cmdFrame ∧ u.ustate = s.ustate ∧
  u.rsp = s.rsp ∧ u.turns = s.turns := by
  have h := opState_eq i s
  refine ⟨?_, ?_, rfl, rfl, rfl, rfl, rfl, rfl, rfl, ?_, ?_, ?_, ?_, ?_, ?_, ?_, ?_, ?_, ?_, ?_, ?_⟩ <;>
   (simp only [State.advanceCursor, State.openTransfer]; rw [h])

/-- what a step can do, seen from SEQ and XFER. -/
inductive SeqShape (s t : State) : Prop where
  | quiet (h : t.scanLine = s.scanLine ∧ t.field = s.field ∧ t.vretrace = s.vretrace ∧ t.srcPtr = s.srcPtr ∧
      t.xferLen = s.xferLen ∧ t.run = s.run ∧ t.dmaAddr = s.dmaAddr ∧ t.dmaRemain = s.dmaRemain ∧ t.dmaBusy = s.dmaBusy ∧
      t.irqPending = s.irqPending ∧ t.out = s.out ∧ t.cfg = s.cfg)
  | line (s' : State) (i : Instr) (he : s'.scanLine = s.scanLine ∧ s'.field = s.field ∧ s'.vretrace = s.vretrace ∧ s'.srcPtr = s.srcPtr ∧
      s'.xferLen = s.xferLen ∧ s'.cfg = s.cfg ∧ s'.out = s.out) (hrun : (s.run = false ∧ s'.run = true) ∨ (s'.run = s.run ∧ s.irqPending = true)) (hi : decodeScan s.field s.scanLine = .ok i) (hb : s.dmaBusy = false)
      (ht : t.scanLine = nextLine s.scanLine ∧ t.field = nextField s.field s.scanLine ∧ t.vretrace = (opState i s').vretrace ∧
        t.srcPtr = (opState i s').srcPtr ∧ t.xferLen = (opState i s').xferLen ∧ t.dmaAddr = t.srcPtr ∧ t.dmaRemain = t.xferLen ∧ t.dmaBusy = true ∧
        t.irqPending = false ∧ t.out = s.out ++ [{ src := t.srcPtr, len := t.xferLen, words := [] }] ∧ t.run = s'.run ∧ t.cfg = s.cfg)
  | beat (hb : s.dmaBusy = true) (hr : s.dmaRemain ≠ 0) (hm : s.cfg.mapped s.dmaAddr = true)
     (h : t.scanLine = s.scanLine ∧ t.field = s.field ∧ t.vretrace = s.vretrace ∧ t.srcPtr = s.srcPtr ∧
      t.xferLen = s.xferLen ∧ t.run = s.run ∧ t.dmaAddr = s.dmaAddr + 1 ∧ t.dmaRemain = s.dmaRemain - 1 ∧ t.dmaBusy = s.dmaBusy ∧
      t.irqPending = s.irqPending ∧ t.out = appendWord s.out (s.readWord s.dmaAddr) ∧ t.cfg = s.cfg)
  | done (hb : s.dmaBusy = true) (hr : s.dmaRemain = 0)
     (h : t.scanLine = s.scanLine ∧ t.field = s.field ∧ t.vretrace = s.vretrace ∧ t.srcPtr = s.srcPtr ∧
      t.xferLen = s.xferLen ∧ t.run = s.run ∧ t.dmaAddr = s.dmaAddr ∧ t.dmaRemain = s.dmaRemain ∧ t.dmaBusy = false ∧
      t.irqPending = true ∧ t.out = s.out ∧ t.cfg = s.cfg)
  | rst (h : t.scanLine = 0 ∧ t.field = s.cfg.resetParity ∧ t.vretrace = false ∧ t.run = false ∧ t.dmaBusy = false ∧ t.irqPending = false ∧ t.out = [] ∧ t.cfg = s.cfg)

theorem step_seqShape {s t : State} (h : step s = .next t) : SeqShape s t := by
  rcases (step_next h).2 with ⟨-, rfl⟩ | ⟨tn, ts, -, h⟩
  · exact .quiet (by simp)
  cases tn with
  | host f => obtain ⟨-, -, rfl⟩ := hostTurn_next.1 h; exact .quiet (by simp [State.present, State.setTurns])
  | cmd =>
    obtain ⟨-, i, hd, h⟩ := cmdTurn_next.1 h
    have hsh := exec_shape (decodeFrame_ok hd).1 h
    clear h hd
    cases hsh with
    | start u h1 h2 h3 =>
      obtain ⟨j, hj, hb, rfl⟩ := startStep_next.1 h3
      obtain ⟨a1, a2, a3, a4, a5, a6, a7, a8, a9, a10, a11, a12, -⟩ := lineStep_fields j ((s.setTurns ts).markRun)
      exact .line ((s.setTurns ts).markRun) j ⟨rfl, rfl, rfl, rfl, rfl, rfl, rfl⟩ (.inl ⟨h2, rfl⟩) hj hb ⟨a1, a2, a3, a4, a5, a6, a7, a8, a9, a10, a11, a12⟩
    | _ => exact .quiet ⟨rfl, rfl, rfl, rfl, rfl, rfl, rfl, rfl, rfl, rfl, rfl, rfl⟩
  | xfer =>
    obtain ⟨hb, ⟨hr, rfl⟩ | ⟨hr, hm, rfl⟩⟩ := xferTurn_next.1 h
    · exact .done hb hr (by simp)
    · exact .beat hb hr hm ⟨rfl, rfl, rfl, rfl, rfl, rfl, rfl, rfl, rfl, rfl, rfl, rfl⟩
  | seq =>
    obtain ⟨hp, i, hi, hb, rfl⟩ := seqTurn_next.1 h
    obtain ⟨a1, a2, a3, a4, a5, a6, a7, a8, a9, a10, a11, a12, -⟩ := lineStep_fields i (s.setTurns ts)
    exact .line (s.setTurns ts) i ⟨rfl, rfl, rfl, rfl, rfl, rfl, rfl⟩ (.inr ⟨rfl, hp⟩) hi hb ⟨a1, a2, a3, a4, a5, a6, a7, a8, a9, a10, a11, a12⟩
  | rst d =>
    simp only [takeTurn, rstTurn, Host.Outcome.next.injEq] at h; subst h
    exact .rst ⟨rfl, rfl, rfl, rfl, rfl, rfl, rfl, rfl⟩

theorem appendWord_concat (l : List Record) (r : Record) (w : WordVal) :
    appendWord (l ++ [r]) w = l ++ [{ r with words := r.words ++ [w] }] := by
  induction l with
  | nil => rfl
  | cons q l ih =>
    cases l with
    | nil => rfl
    | cons p l => simp only [List.cons_append, appendWord] at ih ⊢; rw [ih]

theorem otherField_ne (f : Field) : otherField f ≠ f := by cases f <;> decide

theorem otherField_other (f : Field) : otherField (otherField f) = f := by cases f <;> rfl

theorem cursorAt_succ (c : Config) (k : Nat) : cursorAt c (k + 1) =
    (if (cursorAt c k).2 = 261 then otherField (cursorAt c k).1 else (cursorAt c k).1, if (cursorAt c k).2 = 261 then 0 else (cursorAt c k).2 + 1) := by
  by_cases h : k % 262 = 261
  · have h1 : (k + 1) % 262 = 0 := by omega
    have h2 : (k + 1) / 262 = k / 262 + 1 := by omega
    have h3 : (cursorAt c k).2 = 261 := h
    rw [if_pos h3, if_pos h3]
    unfold cursorAt
    rw [h1, h2]
    rcases Nat.mod_two_eq_zero_or_one (k / 262) with h3 | h3
    · rw [if_neg (by omega), if_pos h3]
    · rw [if_pos (by omega), if_neg (by omega), otherField_other]
  · have h1 : (k + 1) % 262 = k % 262 + 1 := by omega
    have h2 : (k + 1) / 262 = k / 262 := by omega
    have h3 : ¬ (cursorAt c k).2 = 261 := h
    rw [if_neg h3, if_neg h3]
    unfold cursorAt
    rw [h1, h2]

theorem linePlan_addr (c : Config) (f : Field) (n : Nat) (hn : n < 262) (p : Addr) (hp : f = .even → n = 261 → p = c.blankBase) :
    (linePlan f n).1.addr c p = armedSrc c f n := by
  unfold linePlan armedSrc
  rcases line_phases hn with r | r | r | r | r | r | r | r
  · rw [if_pos r, if_pos r]; rfl
  · simp only [if_neg (show ¬ n < 3 by omega), if_pos r.2]; rfl
  · simp only [if_neg (show ¬ n < 3 by omega), if_neg (show ¬ n < 6 by omega), if_pos r.2]; rfl
  · simp only [if_neg (show ¬ n < 3 by omega), if_neg (show ¬ n < 6 by omega), if_neg (show ¬ n < 9 by omega), if_pos r.2]; rfl
  · simp only [if_neg (show ¬ n < 3 by omega), if_neg (show ¬ n < 6 by omega), if_neg (show ¬ n < 9 by omega), if_neg (show ¬ n < 30 by omega), if_pos r, if_pos (show n < 246 by omega)]; rw [r]; rfl
  · simp only [if_neg (show ¬ n < 3 by omega), if_neg (show ¬ n < 6 by omega), if_neg (show ¬ n < 9 by omega), if_neg (show ¬ n < 30 by omega), if_neg (show ¬ n = 30 by omega), if_pos r.2]; rfl
  · simp only [if_neg (show ¬ n < 3 by omega), if_neg (show ¬ n < 6 by omega), if_neg (show ¬ n < 9 by omega), if_neg (show ¬ n < 30 by omega), if_neg (show ¬ n = 30 by omega), if_neg (show ¬ n < 246 by omega), if_pos r.2]; rfl
  · simp only [if_neg (show ¬ n < 3 by omega), if_neg (show ¬ n < 6 by omega), if_neg (show ¬ n < 9 by omega), if_neg (show ¬ n < 30 by omega), if_neg (show ¬ n = 30 by omega), if_neg (show ¬ n < 246 by omega), if_neg (show ¬ n < 261 by omega)]
    cases f
    · rw [if_neg (by simp)]; exact hp rfl r
    · rfl

theorem linePlan_words (c : Config) (f : Field) (n : Nat) (hn : n < 262) (p : BitVec 32) (hp : f = .even → n = 261 → p = BitVec.ofNat 32 c.lineWords) :
    (linePlan f n).2.1.words c p = BitVec.ofNat 32 (armedLen c f n) := by
  unfold linePlan armedLen
  rcases line_phases hn with r | r | r | r | r | r | r | r
  · simp only [if_pos r, if_neg (show ¬ (f = .even ∧ n = 8) by omega), if_neg (show ¬ (f = .odd ∧ n = 261) by omega)]; rfl
  · simp only [if_neg (show ¬ n < 3 by omega), if_pos r.2, if_neg (show ¬ (f = .even ∧ n = 8) by omega), if_neg (show ¬ (f = .odd ∧ n = 261) by omega)]; rfl
  · simp only [if_neg (show ¬ n < 3 by omega), if_neg (show ¬ n < 6 by omega), if_pos r.2, if_neg (show ¬ (f = .odd ∧ n = 261) by omega)]
    by_cases h8 : f = .even ∧ n = 8
    · rw [if_pos h8.symm, if_pos h8]; rfl
    · rw [if_neg (fun h => h8 h.symm), if_neg h8]; rfl
  · simp only [if_neg (show ¬ n < 3 by omega), if_neg (show ¬ n < 6 by omega), if_neg (show ¬ n < 9 by omega), if_pos r.2, if_neg (show ¬ (f = .even ∧ n = 8) by omega), if_neg (show ¬ (f = .odd ∧ n = 261) by omega)]; rfl
  · simp only [if_neg (show ¬ n < 3 by omega), if_neg (show ¬ n < 6 by omega), if_neg (show ¬ n < 9 by omega), if_neg (show ¬ n < 30 by omega), if_pos r, if_neg (show ¬ (f = .even ∧ n = 8) by omega), if_neg (show ¬ (f = .odd ∧ n = 261) by omega)]; rfl
  · simp only [if_neg (show ¬ n < 3 by omega), if_neg (show ¬ n < 6 by omega), if_neg (show ¬ n < 9 by omega), if_neg (show ¬ n < 30 by omega), if_neg (show ¬ n = 30 by omega), if_pos r.2, if_neg (show ¬ (f = .even ∧ n = 8) by omega), if_neg (show ¬ (f = .odd ∧ n = 261) by omega)]; rfl
  · simp only [if_neg (show ¬ n < 3 by omega), if_neg (show ¬ n < 6 by omega), if_neg (show ¬ n < 9 by omega), if_neg (show ¬ n < 30 by omega), if_neg (show ¬ n = 30 by omega), if_neg (show ¬ n < 246 by omega), if_pos r.2, if_neg (show ¬ (f = .even ∧ n = 8) by omega), if_neg (show ¬ (f = .odd ∧ n = 261) by omega)]; rfl
  · simp only [if_neg (show ¬ n < 3 by omega), if_neg (show ¬ n < 6 by omega), if_neg (show ¬ n < 9 by omega), if_neg (show ¬ n < 30 by omega), if_neg (show ¬ n = 30 by omega), if_neg (show ¬ n < 246 by omega), if_neg (show ¬ n < 261 by omega), if_neg (show ¬ (f = .even ∧ n = 8) by omega)]
    cases f
    · rw [if_neg (by simp)]; exact hp rfl r
    · rw [if_pos ⟨rfl, r⟩]; rfl

/-- every word of an armed transfer is mapped -/
theorem armed_mapped {c : Config} (g : c.Good) (hp : c.platformComplete = true) (f : Field) (n : Nat) (hn : n < 262) (j : Nat)
    (hj : j < armedLen c f n) : c.mapped (armedSrc c f n + BitVec.ofNat 32 j) = true := by
  have tab : ∀ (r : Region) (b : Addr) (m : Nat), r ∈ c.tables → r.base = b.toNat → m < r.size → b.toNat + r.size ≤ 2 ^ 32 → c.mapped (b + BitVec.ofNat 32 m) = true := by
    intro r b m hr hb hm hle
    refine Config.table_mapped hp hr ?_
    rw [Region.contains_iff, hb, BitVec.toNat_add, BitVec.toNat_ofNat, Nat.mod_eq_of_lt (a := m) (by omega), Nat.mod_eq_of_lt (by omega)]
    omega
  have row : ∀ r, r < 432 → j < c.lineWords → c.mapped (c.fbw r 0 + BitVec.ofNat 32 j) = true := by
    intro r hr hj
    have : c.fbw r 0 + BitVec.ofNat 32 j = c.fbw r j := by
      unfold Config.fbw; rw [BitVec.add_assoc, ← BitVec.ofNat_add, Nat.add_zero]
    rw [this]
    exact Config.fbw_mapped g hp (lt_of_lt_of_le hr g.yRes) hj
  have m1 : c.vsyncRegion ∈ c.tables := by simp [Config.tables]
  have m2 : c.eqRegion ∈ c.tables := by simp [Config.tables]
  have m3 : c.blankRegion ∈ c.tables := by simp [Config.tables]
  have m4 : c.hblankRegion ∈ c.tables := by simp [Config.tables]
  have e1 := g.vsync
  have e2 := g.eq
  have e3 := g.blank
  have e4 := g.hblank
  unfold armedSrc
  unfold armedLen at hj
  rcases line_phases hn with r | r | r | r | r | r | r | r
  · rw [if_neg (by omega), if_neg (by omega)] at hj
    rw [if_pos r]; exact tab _ _ _ m2 rfl (show j < c.lineWords + c.halfExt by omega) e2
  · rw [if_neg (by omega), if_neg (by omega)] at hj
    rw [if_neg (by omega), if_pos r.2]; exact tab _ _ _ m1 rfl hj e1
  · have hj : j < c.lineWords + c.halfExt := by split_ifs at hj <;> omega
    rw [if_neg (by omega), if_neg (by omega), if_pos r.2]; exact tab _ _ _ m2 rfl hj e2
  · rw [if_neg (by omega), if_neg (by omega)] at hj
    rw [if_neg (by omega), if_neg (by omega), if_neg (by omega), if_pos r.2]; exact tab _ _ _ m3 rfl hj e3
  · rw [if_neg (by omega), if_neg (by omega)] at hj
    rw [if_neg (by omega), if_neg (by omega), if_neg (by omega), if_neg (by omega), if_pos (by omega)]
    exact row _ (by cases f <;> simp only [fieldRow] <;> omega) hj
  · rw [if_neg (by omega), if_neg (by omega)] at hj
    rw [if_neg (by omega), if_neg (by omega), if_neg (by omega), if_neg (by omega), if_pos (by omega)]
    exact row _ (by cases f <;> simp only [fieldRow] <;> omega) hj
  · rw [if_neg (by omega), if_neg (by omega)] at hj
    rw [if_neg (by omega), if_neg (by omega), if_neg (by omega), if_neg (by omega), if_neg (by omega), if_pos (by omega)]; exact tab _ _ _ m3 rfl hj e3
  · rw [if_neg (by omega)] at hj
    rw [if_neg (by omega), if_neg (by omega), if_neg (by omega), if_neg (by omega), if_neg (by omega), if_neg (by omega)]
    cases f
    · rw [if_neg (by simp)] at hj ⊢; exact tab _ _ _ m3 rfl hj e3
    · rw [if_pos ⟨rfl, r⟩] at hj; rw [if_pos rfl]; exact tab _ _ _ m4 rfl hj e4

theorem advance_toNat (f : Field) (n : BitVec 9) (hn : n.toNat < 262) :
    (advance (f, n)).1 = (if n.toNat = 261 then otherField f else f) ∧ (advance (f, n)).2.toNat = if n.toNat = 261 then 0 else n.toNat + 1 :=
  ⟨nextField_eq, nextLine_toNat hn⟩

theorem iter_advance (f : Field) (n : BitVec 9) (hn : n.toNat < 262) (k : Nat) :
   (advance^[k] (f, n)).2.toNat = (n.toNat + k) % 262 ∧ (advance^[k] (f, n)).1 = if (n.toNat + k) / 262 % 2 = 0 then f else otherField f := by
  induction k with
  | zero => simp; constructor <;> omega
  | succ k ih =>
    rw [Function.iterate_succ_apply']
    obtain ⟨h1, h2⟩ := ih
    generalize hq : advance^[k] (f, n) = q at *
    obtain ⟨qf, qn⟩ := q
    simp only at h1 h2
    obtain ⟨a1, a2⟩ := advance_toNat qf qn (by omega)
    rw [a1, a2, h1, h2]
    by_cases h : (n.toNat + k) % 262 = 261
    · rw [if_pos h, if_pos h]
      refine ⟨by omega, ?_⟩
      rcases Nat.mod_two_eq_zero_or_one ((n.toNat + k) / 262) with h3 | h3
      · rw [if_pos h3, if_neg (by omega)]
      · rw [if_neg (by omega), if_pos (by omega), otherField_other]
    · rw [if_neg h, if_neg h]
      have : (n.toNat + (k + 1)) / 262 = (n.toNat + k) / 262 := by omega
      rw [this]
      exact ⟨by omega, rfl⟩

/-- The words left of the transfer in flight are mapped (R63, R155). -/
theorem remaining_mapped {s : State} (hw : s.cfg.wf = true) (hp : s.cfg.platformComplete = true) (hb : s.dmaBusy = true) (hS : SignalInv s)
    (hR : RecordsInv s) (j : Nat) (hj : j < s.dmaRemain.toNat) : s.cfg.mapped (s.dmaAddr + BitVec.ofNat 32 j) = true := by
  have g := (Config.wf_iff_good _).1 hw
  obtain ⟨r, hl, hlen, ha⟩ := hR.2.2 hb
  rw [List.getLast?_eq_getElem?] at hl
  obtain ⟨h1, h2⟩ := hS.2.1 _ _ hl
  rw [ha, h1, BitVec.add_assoc, ← BitVec.ofNat_add]
  refine armed_mapped g hp _ _ (by simp only [cursorAt]; omega) _ ?_
  have := congrArg BitVec.toNat h2
  rw [BitVec.toNat_ofNat] at this
  have := Nat.mod_le (armedLen s.cfg (cursorAt s.cfg (s.out.length - 1)).1 (cursorAt s.cfg (s.out.length - 1)).2) (2^32)
  omega

end Sys2Proof.Machine
end

