-- ==== Sys2Proof/Laws/Fair.lean ====
section
/-! SUPPORT. Endless runs: what one step of such a run is, how an invariant goes along it, and how XFER and SEQ, once weakly fair turns
are given (R159, R236), come to their next step. -/

namespace Sys2Proof.Machine

/-- A turn of an endless run is a step of its agent. -/
theorem EndlessRun.takes {σ : Nat → Turn} {ρ : Nat → State} (h : EndlessRun σ ρ) (k : Nat) :
    takeTurn (σ k) ((ρ k).setTurns []) = .next (ρ (k + 1)) := by
  have hk := h k
  rcases (step_next hk).2 with ⟨ht, -⟩ | ⟨tn, ts, ht, hk⟩
  · simp [State.setTurns] at ht
  · simp only [State.setTurns, List.cons.injEq] at ht
    obtain ⟨rfl, rfl⟩ := ht
    exact hk

theorem EndlessRun.wf {σ : Nat → Turn} {ρ : Nat → State} (h : EndlessRun σ ρ) (k : Nat) : (ρ k).cfg.wf = true := (step_next (h k)).1

/-- A property that every step keeps, and that the schedule does not touch, goes along an endless run. -/
theorem EndlessRun.keeps {σ : Nat → Turn} {ρ : Nat → State} (_h : EndlessRun σ ρ) {P : State → Prop}
    (hs : ∀ s ts, P s → P (s.setTurns ts)) (hp : ∀ k, P ((ρ k).setTurns [σ k]) → P (ρ (k + 1))) (h0 : P (ρ 0)) : ∀ k, P (ρ k) := by
  intro k
  induction k with
  | zero => exact h0
  | succ k ih => exact hp k (hs _ _ ih)

theorem EndlessRun.cfg {σ : Nat → Turn} {ρ : Nat → State} (h : EndlessRun σ ρ) (k : Nat) : (ρ k).cfg = (ρ 0).cfg :=
  h.keeps (P := fun s => s.cfg = (ρ 0).cfg) (fun _ _ e => e) (fun k e => (step_cfg (h k)).trans e) rfl k

/-- The schedule is no part of what `SeqShape` says. -/
theorem SeqShape.of_setTurns {s t : State} {ts : List Turn} (h : SeqShape (s.setTurns ts) t) : SeqShape s t := by
  cases h with
  | quiet h => exact .quiet h
  | line s' i he hrun hi hb ht => exact .line s' i he hrun hi hb ht
  | beat hb hr hm h => exact .beat hb hr hm h
  | done hb hr h => exact .done hb hr h
  | rst h => exact .rst h

theorem EndlessRun.shape {σ : Nat → Turn} {ρ : Nat → State} (h : EndlessRun σ ρ) (k : Nat) : SeqShape (ρ k) (ρ (k + 1)) :=
  (step_seqShape (h k)).of_setTurns

/-- XFER's turn moves the engine: one word less to go, or the completion. -/
theorem EndlessRun.xfer_moves {σ : Nat → Turn} {ρ : Nat → State} (h : EndlessRun σ ρ) {k : Nat} (hk : σ k = .xfer) :
    ((ρ k).dmaRemain = 0 ∧ (ρ (k + 1)).dmaBusy = false) ∨
      ((ρ k).dmaRemain ≠ 0 ∧ (ρ (k + 1)).dmaRemain = (ρ k).dmaRemain - 1) := by
  have ht := h.takes k
  rw [hk] at ht
  obtain ⟨-, ⟨hr, ht⟩ | ⟨hr, -, ht⟩⟩ := xferTurn_next.1 ht <;> rw [ht]
  · exact .inl ⟨hr, rfl⟩
  · exact .inr ⟨hr, rfl⟩

/-- SEQ's turn opens a record. -/
theorem EndlessRun.seq_moves {σ : Nat → Turn} {ρ : Nat → State} (h : EndlessRun σ ρ) {k : Nat} (hk : σ k = .seq) :
    (ρ (k + 1)).out.length = (ρ k).out.length + 1 := by
  have ht := h.takes k
  rw [hk] at ht
  obtain ⟨-, i, -, -, ht⟩ := seqTurn_next.1 ht
  obtain ⟨-, -, -, -, -, -, -, -, -, ho, -⟩ := lineStep_fields i ((ρ k).setTurns [])
  rw [ht, ho]
  simp [State.setTurns]

/-- A property of one state that does not last for ever ends at some first step. -/
theorem exists_last {P : Nat → Prop} {a b : Nat} (hab : a ≤ b) (ha : P a) (hb : ¬P b) : ∃ j, a ≤ j ∧ P j ∧ ¬P (j + 1) := by
  obtain ⟨d, rfl⟩ := Nat.le.dest hab
  clear hab
  induction d with
  | zero => exact absurd ha hb
  | succ d ih =>
    by_cases h : P (a + d)
    · exact ⟨a + d, by omega, h, hb⟩
    · exact ih h

end Sys2Proof.Machine
end

