-- ==== Sys2Proof/Laws/Rows.lean ====
section
/-! SUPPORT. The rows of R93 and R97 read field by field: a frame matches a row exactly when each of its fields, masked by the row's
mask of that field, is the row's field. -/

namespace Sys2Proof

/-- The fields of two frames, ANDed one by one. -/
def CmdFields.and (c m : CmdFields) : CmdFields :=
  { op := c.op &&& m.op, z0 := c.z0 &&& m.z0, imm2 := c.imm2 &&& m.imm2, y0 := c.y0 &&& m.y0, x0 := c.x0 &&& m.x0,
    y1 := c.y1 &&& m.y1, x1 := c.x1 &&& m.x1, bmp := c.bmp &&& m.bmp }

theorem joinFrame_and (c m : CmdFields) : joinFrame c &&& joinFrame m = joinFrame (c.and m) := by
  have e : (c.op ++ c.z0 ++ c.imm2 ++ c.y0 ++ c.x0 ++ c.y1 ++ c.x1 ++ c.bmp) &&&
      (m.op ++ m.z0 ++ m.imm2 ++ m.y0 ++ m.x0 ++ m.y1 ++ m.x1 ++ m.bmp) =
      (c.op &&& m.op) ++ (c.z0 &&& m.z0) ++ (c.imm2 &&& m.imm2) ++ (c.y0 &&& m.y0) ++ (c.x0 &&& m.x0) ++ (c.y1 &&& m.y1) ++
        (c.x1 &&& m.x1) ++ (c.bmp &&& m.bmp) := by
    simp only [BitVec.and_append]
  exact e

theorem joinFrame_inj {c d : CmdFields} : joinFrame c = joinFrame d ↔ c = d :=
  ⟨fun h => by rw [← splitFrame_joinFrame c, ← splitFrame_joinFrame d, h], fun h => by rw [h]⟩

/-- A frame matches a row exactly when its fields do. -/
theorem TableRow.matches_joinFrame (r : TableRow 128) (c : CmdFields) :
    r.matches (joinFrame c) = true ↔ c.and (splitFrame r.mask) = splitFrame r.pattern := by
  unfold TableRow.matches
  rw [decide_eq_true_eq, ← joinFrame_splitFrame r.mask, joinFrame_and, ← joinFrame_splitFrame r.pattern, joinFrame_inj,
    splitFrame_joinFrame, splitFrame_joinFrame]

/-- Whether a line word's `SCAN_LINE` lies in one of the rows of a mnemonic: no row of R93 looks at `FIELD`. -/
def scanMatches (m : String) (n : BitVec 9) : Bool :=
  lineRows.any fun r => decide (r.mnemonic = m) && decide (n.toNat &&& r.mask.toNat = r.pattern.toNat)

/-- A row of R93 does not look at `FIELD`. -/
theorem lineRows_mask {r : TableRow 10} (h : r ∈ lineRows) : r.mask.toNat < 2 ^ 9 := by
  revert r
  decide

theorem lineRow_matches {r : TableRow 10} (h : r ∈ lineRows) (f : Field) (n : BitVec 9) :
    r.matches (lineWordOf f n) = decide (n.toNat &&& r.mask.toNat = r.pattern.toNat) := by
  have hm := lineRows_mask h
  have e : (lineWordOf f n).toNat &&& r.mask.toNat = n.toNat &&& r.mask.toNat := by
    rw [lineWordOf_toNat]
    apply Nat.eq_of_testBit_eq
    intro j
    rw [Nat.testBit_and, Nat.testBit_and, Nat.mul_comm, Nat.testBit_two_pow_mul_add _ n.isLt]
    split
    · rfl
    · rw [Nat.testBit_lt_two_pow (lt_of_lt_of_le hm (Nat.pow_le_pow_right (by omega) (by omega))), Bool.and_false, Bool.and_false]
  unfold TableRow.matches
  rw [← e]
  exact decide_eq_decide.2 ⟨fun h => by rw [← h, BitVec.toNat_and], fun h => BitVec.eq_of_toNat_eq (by rw [BitVec.toNat_and, h])⟩

theorem exists_lineRow {m : String} {f : Field} {n : BitVec 9} :
    (∃ r ∈ lineRows, r.mnemonic = m ∧ r.matches (lineWordOf f n) = true) ↔ scanMatches m n = true := by
  unfold scanMatches
  simp only [List.any_eq_true, Bool.and_eq_true]
  constructor
  · rintro ⟨r, hr, hm, h⟩
    exact ⟨r, hr, by simpa using hm, by rwa [lineRow_matches hr] at h⟩
  · rintro ⟨r, hr, hm, h⟩
    exact ⟨r, hr, by simpa using hm, by rwa [lineRow_matches hr]⟩

/-- A line word is the word of its own fields. -/
theorem lineWordOf_fields (lw : BitVec 10) : lineWordOf (lineField lw) (lineScan lw) = lw := by
  have hb : fieldBit (lineField lw) = lw.extractLsb' 9 1 := by
    unfold lineField fieldOfBit
    generalize lw.extractLsb' 9 1 = b
    revert b
    decide
  apply BitVec.eq_of_toNat_eq
  have := lw.isLt
  rw [lineWordOf_toNat, hb, lineScan, toNat_extract, toNat_extract]
  omega

end Sys2Proof
end

