-- ==== Sys2Proof/Laws/PerInstr.lean ====
section
/-! SUPPORT. Statements made for every constructor of `Instr`, one lemma each. Family `RowMatch`: the encoder writes a word of a
printed row of the instruction's own mnemonic (R93, R97). -/

namespace Sys2Proof.Laws.RowMatch

/-- The word of a well-formed instruction matches a row of its mnemonic. -/
def Statement (i : Instr) : Prop :=
  i.wf = true →
    match encode i with
    | .line lw => ∃ r ∈ lineRows, r.mnemonic = i.mnemonic ∧ r.matches lw = true
    | .cmd f => ∃ r ∈ cmdRows, r.mnemonic = i.mnemonic ∧ r.matches f = true

/-! ### Format LINE (R93) -/

theorem eqpre (f : Field) (n : BitVec 9) : Statement (.eqpre f n) := fun h =>
  exists_lineRow.2 ((by decide +kernel : ∀ n : BitVec 9, inLines 0 3 n = true → scanMatches "EQPRE" n = true) n h)

theorem vsync (f : Field) (n : BitVec 9) : Statement (.vsync f n) := fun h =>
  exists_lineRow.2 ((by decide +kernel : ∀ n : BitVec 9, inLines 3 6 n = true → scanMatches "VSYNC" n = true) n h)

theorem eqpost (f : Field) (n : BitVec 9) : Statement (.eqpost f n) := fun h =>
  exists_lineRow.2 ((by decide +kernel : ∀ n : BitVec 9, inLines 6 9 n = true → scanMatches "EQPOST" n = true) n h)

theorem blankpre (f : Field) (n : BitVec 9) : Statement (.blankpre f n) := fun h =>
  exists_lineRow.2 ((by decide +kernel : ∀ n : BitVec 9, inLines 9 30 n = true → scanMatches "BLANKPRE" n = true) n h)

theorem actfirst (f : Field) (n : BitVec 9) : Statement (.actfirst f n) := fun h =>
  exists_lineRow.2 ((by decide +kernel : ∀ n : BitVec 9, inLines 30 31 n = true → scanMatches "ACTFIRST" n = true) n h)

theorem active (f : Field) (n : BitVec 9) : Statement (.active f n) := fun h =>
  exists_lineRow.2 ((by decide +kernel : ∀ n : BitVec 9, inLines 31 246 n = true → scanMatches "ACTIVE" n = true) n h)

theorem blankpost (f : Field) (n : BitVec 9) : Statement (.blankpost f n) := fun h =>
  exists_lineRow.2 ((by decide +kernel : ∀ n : BitVec 9, inLines 246 261 n = true → scanMatches "BLANKPOST" n = true) n h)

theorem closeout (f : Field) (n : BitVec 9) : Statement (.closeout f n) := fun h =>
  exists_lineRow.2 ((by decide +kernel : ∀ n : BitVec 9, inLines 261 262 n = true → scanMatches "CLOSEOUT" n = true) n h)

/-! ### Format CMD (R97) -/

/-- One row of `cmdRows` whose fields are the frame's suffices. -/
theorem of_row {i : Instr} {c : CmdFields} (he : encode i = .cmd (joinFrame c)) (k : Fin 16) (hm : cmdRows[k].mnemonic = i.mnemonic)
    (hc : c.and (splitFrame cmdRows[k].mask) = splitFrame cmdRows[k].pattern) : Statement i := by
  intro _
  rw [he]
  exact ⟨cmdRows[k], List.getElem_mem _, hm, (TableRow.matches_joinFrame _ _).2 hc⟩

theorem width : Statement .width := of_row rfl 0 rfl (by decide)

theorem height : Statement .height := of_row rfl 1 rfl (by decide)

theorem retrace : Statement .retrace := of_row rfl 2 rfl (by decide)

theorem setact (a : PixAct) : Statement (.setact a) := of_row rfl 3 rfl (by cases a <;> decide)


theorem setpixel (x y : BitVec 16) : Statement (.setpixel x y) := by
  refine of_row rfl 4 rfl ?_
  simp only [CmdFields.and, bareFields]
  rw [show splitFrame (cmdRows[(4 : Fin 16)]).mask = ⟨0xFF, 0x3FFFFF, 3, 0, 0, 0xFFFF, 0xFFFF, 0xFFFFFFFF⟩ from by decide,
    show splitFrame (cmdRows[(4 : Fin 16)]).pattern = ⟨5, 0, 0, 0, 0, 0, 0, 0⟩ from by decide]
  simp

theorem line (x0 y0 x1 y1 : BitVec 16) : Statement (.line x0 y0 x1 y1) := by
  refine of_row rfl 5 rfl ?_
  simp only [CmdFields.and, bareFields]
  rw [show splitFrame (cmdRows[(5 : Fin 16)]).mask = ⟨0xFF, 0x3FFFFF, 3, 0, 0, 0, 0, 0xFFFFFFFF⟩ from by decide,
    show splitFrame (cmdRows[(5 : Fin 16)]).pattern = ⟨6, 0, 0, 0, 0, 0, 0, 0⟩ from by decide]
  simp

theorem box (x0 y0 x1 y1 : BitVec 16) : Statement (.box x0 y0 x1 y1) := by
  refine of_row rfl 6 rfl ?_
  simp only [CmdFields.and, bareFields]
  rw [show splitFrame (cmdRows[(6 : Fin 16)]).mask = ⟨0xFF, 0x3FFFFF, 3, 0, 0, 0, 0, 0xFFFFFFFF⟩ from by decide,
    show splitFrame (cmdRows[(6 : Fin 16)]).pattern = ⟨7, 0, 0, 0, 0, 0, 0, 0⟩ from by decide]
  simp

theorem bitblit (x0 y0 cols rows : BitVec 16) (bmp : Addr) : Statement (.bitblit x0 y0 cols rows bmp) := by
  refine of_row rfl 7 rfl ?_
  simp only [CmdFields.and, bareFields]
  rw [show splitFrame (cmdRows[(7 : Fin 16)]).mask = ⟨0xFF, 0x3FFFFF, 3, 0, 0, 0, 0, 0⟩ from by decide,
    show splitFrame (cmdRows[(7 : Fin 16)]).pattern = ⟨8, 0, 0, 0, 0, 0, 0, 0⟩ from by decide]
  simp

theorem clear (colour : Bool) : Statement (.clear colour) := of_row rfl 8 rfl (by cases colour <;> decide)

theorem evenptr : Statement .evenptr := of_row rfl 9 rfl (by decide)

theorem oddptr : Statement .oddptr := of_row rfl 10 rfl (by decide)

theorem circle : Statement .circle := of_row rfl 11 rfl (by decide)

theorem fill : Statement .fill := of_row rfl 12 rfl (by decide)

theorem text : Statement .text := of_row rfl 13 rfl (by decide)

theorem fbinit : Statement .fbinit := of_row rfl 14 rfl (by decide)

theorem start : Statement .start := of_row rfl 15 rfl (by decide)

end Sys2Proof.Laws.RowMatch
end

