-- ==== Sys2Proof/Tests/Slice0.lean ====
section
/-! SUPPORT. Tests of one step or one decoding each, with the expected values of the spec's vectors (`95_test_vectors.md`, named V<n>
below) and of R92 to R98, and one witness for the hypotheses of every obligation. -/

set_option Elab.async false

namespace Sys2Proof.Machine.Tests

/-! ### WellFormed: an ill-formed term for each range of R92 -/

theorem test_wf_eqpre : (Instr.eqpre .even 3).wf = false ∧ (Instr.eqpre .even 2).wf = true := by decide
theorem test_wf_vsync : (Instr.vsync .even 2).wf = false ∧ (Instr.vsync .even 6).wf = false := by decide
theorem test_wf_eqpost : (Instr.eqpost .odd 5).wf = false ∧ (Instr.eqpost .odd 9).wf = false := by decide
theorem test_wf_blankpre : (Instr.blankpre .odd 8).wf = false ∧ (Instr.blankpre .odd 30).wf = false := by decide
theorem test_wf_actfirst : (Instr.actfirst .odd 29).wf = false ∧ (Instr.actfirst .odd 31).wf = false := by decide
theorem test_wf_active : (Instr.active .even 30).wf = false ∧ (Instr.active .even 246).wf = false := by decide
theorem test_wf_blankpost : (Instr.blankpost .even 245).wf = false ∧ (Instr.blankpost .even 261).wf = false := by decide
theorem test_wf_closeout : (Instr.closeout .even 260).wf = false ∧ (Instr.closeout .even 262).wf = false := by decide

/-- R8: one broken configuration for each of its points (a) to (f), and for `X_RES = 0` (R7). -/
theorem test_config_refused :
    Config.testCfg.wf = true ∧ { Config.testCfg with wordShift := 4 }.wf = false ∧ { Config.testCfg with lineWords := 15 }.wf = false ∧
    { Config.testCfg with avo := 7 }.wf = false ∧ { Config.testCfg with yRes := 431 }.wf = false ∧
    { Config.testCfg with vsyncBase := 0x3AFF }.wf = false ∧ { Config.testCfg with halfExt := 0 }.wf = false ∧
    { Config.testCfg with xRes := 0 }.wf = false := by decide +kernel

/-! ### Decoding: words written out from R91 to R98 -/

/-- V12, R93: `FIELD` is bit 9, `SCAN_LINE` bits 8:0. -/
theorem test_decode_lines :
    decodeLine 0b1_000000000 = .ok (.eqpre .odd 0) ∧ decodeLine 0b0_000000101 = .ok (.vsync .even 5) ∧
    decodeLine 0b1_000001000 = .ok (.eqpost .odd 8) ∧ decodeLine 0b0_000011101 = .ok (.blankpre .even 29) ∧
    decodeLine 0b1_000011110 = .ok (.actfirst .odd 30) ∧ decodeLine 0b0_000011111 = .ok (.active .even 31) ∧
    decodeLine 0b0_100000100 = .ok (.blankpost .even 260) ∧ decodeLine 0b1_100000101 = .ok (.closeout .odd 261) := by decide +kernel

/-- V12: reserved line words. -/
theorem test_decode_reserved_lines :
    decodeLine 0x106 = .error .reservedLine ∧ decodeLine 0x1FF = .error .reservedLine ∧ decodeLine 0x3FF = .error .reservedLine := by
  decide +kernel

/-- V18, V22 to V24: frames with no operand. -/
theorem test_decode_bare :
    decodeFrame (frameOfWords 0x01000000 0 0 0) = .ok .width ∧ decodeFrame (frameOfWords 0x02000000 0 0 0) = .ok .height ∧
    decodeFrame (frameOfWords 0x03000000 0 0 0) = .ok .retrace ∧ decodeFrame (frameOfWords 0x0A000000 0 0 0) = .ok .evenptr ∧
    decodeFrame (frameOfWords 0x0B000000 0 0 0) = .ok .oddptr ∧ decodeFrame (frameOfWords 0x0D000000 0 0 0) = .ok .fill ∧
    decodeFrame (frameOfWords 0x0E000000 0 0 0) = .ok .text ∧ decodeFrame (frameOfWords 0x10000000 0 0 0) = .ok .fbinit ∧
    decodeFrame (frameOfWords 0x11000000 0 0 0) = .ok .start := by decide +kernel

/-- V19, V20, V25, V27, V28, V8, V29: frames with operands, every field at a value of its own. -/
theorem test_decode_operands :
    decodeFrame (frameOfWords 0x04000001 0 0 0) = .ok (.setact .clear) ∧
    decodeFrame (frameOfWords 0x05000000 0x00020021 0 0) = .ok (.setpixel 33 2) ∧
    decodeFrame (frameOfWords 0x06000000 0x0000013E 0x00030141 0) = .ok (.line 318 0 321 3) ∧
    decodeFrame (frameOfWords 0x07000000 0x00020003 0x00010001 0) = .ok (.box 3 2 1 1) ∧
    decodeFrame (frameOfWords 0x08000000 0x0001001E 0x0002000B 0x200) = .ok (.bitblit 30 1 11 2 0x200) ∧
    decodeFrame (frameOfWords 0x09000001 0 0 0) = .ok (.clear true) ∧ decodeFrame (frameOfWords 0x09000000 0 0 0) = .ok (.clear false) ∧
    decodeFrame (frameOfWords 0x0C123456 0x789ABCDE 0xF0123456 0x789ABCDE) = .ok .circle := by decide +kernel

/-- V19, V20, V22, V30: reserved frames. -/
theorem test_decode_reserved_frames :
    decodeFrame (frameOfWords 0 0 0 0) = .error .reservedOp ∧ decodeFrame (frameOfWords 0x0F000000 0 0 0) = .error .reservedOp ∧
    decodeFrame (frameOfWords 0xFF000000 0 0 0) = .error .reservedOp ∧ decodeFrame (frameOfWords 0x04000003 0 0 0) = .error .reservedMode ∧
    decodeFrame (frameOfWords 0x04000100 0 0 0) = .error .mustBeZero ∧ decodeFrame (frameOfWords 0x05000000 0 1 0) = .error .mustBeZero ∧
    decodeFrame (frameOfWords 0x06000001 0 0x00020004 0) = .error .mustBeZero ∧
    decodeFrame (frameOfWords 0x09000002 0 0 0) = .error .reservedColour := by decide +kernel

/-- The host's numbering: a `CMD` row's bit 127 is the top bit of `OP`. -/
theorem test_decodeTableWord :
    decodeTableWord 128 0x08000000000000000000000000000000 = some (.bitblit 0 0 0 0 0) ∧
    decodeTableWord 16 0x305 = some (.closeout .odd 261) ∧ decodeTableWord 16 0x106 = none := by decide +kernel

/-! ### One step -/

/-- The state a result holds. -/
def stateOf : Result → Option State
  | .next s => some s
  | .fault _ => none
  | .refused _ => none

theorem next_of_stateOf {r : Result} (h : (stateOf r).isSome = true) : ∃ t, r = .next t := by
  cases r with
  | next t => exact ⟨t, rfl⟩
  | fault e => simp [stateOf] at h
  | refused e => simp [stateOf] at h

/-- A state before SEQ's turn at a cursor. -/
def atLine (f : Field) (n : BitVec 9) (src : Addr) (v : Bool) : State :=
  { State.reset with field := f, scanLine := n, srcPtr := src, xferLen := 16, vretrace := v, run := true, irqPending := true, turns := [.seq] }

/-- What V10's table lists: source, length, flag, and the cursor after. -/
def lineAfter (s : State) : Option (Addr × BitVec 32 × Bool × Field × BitVec 9) :=
  (stateOf (step s)).map fun t => (t.srcPtr, t.xferLen, t.vretrace, t.field, t.scanLine)

/-- V10. -/
theorem test_step_eqpre : lineAfter (atLine .odd 0 0 false) = some (0x1100, 16, true, .odd, 1) ∧
    lineAfter (atLine .even 2 0 false) = some (0x1100, 16, false, .even, 3) := by decide +kernel
theorem test_step_vsync : lineAfter (atLine .even 5 0 false) = some (0x1000, 16, false, .even, 6) := by decide +kernel
theorem test_step_eqpost : lineAfter (atLine .even 8 0 false) = some (0x1100, 24, false, .even, 9) ∧
    lineAfter (atLine .odd 8 0 true) = some (0x1100, 16, true, .odd, 9) := by decide +kernel
theorem test_step_blankpre : lineAfter (atLine .odd 29 0 true) = some (0x1200, 16, true, .odd, 30) := by decide +kernel
theorem test_step_actfirst : lineAfter (atLine .even 30 0x1200 false) = some (0x2010, 16, false, .even, 31) ∧
    lineAfter (atLine .odd 30 0x1200 true) = some (0x2000, 16, false, .odd, 31) := by decide +kernel
theorem test_step_active : lineAfter (atLine .even 31 0x2010 false) = some (0x2030, 16, false, .even, 32) ∧
    lineAfter (atLine .odd 245 0x3AC0 false) = some (0x3AE0, 16, false, .odd, 246) := by decide +kernel
theorem test_step_blankpost : lineAfter (atLine .even 260 0 false) = some (0x1200, 16, false, .even, 261) := by decide +kernel
theorem test_step_closeout : lineAfter (atLine .even 261 0x1200 false) = some (0x1200, 16, false, .odd, 0) ∧
    lineAfter (atLine .odd 261 0x1200 false) = some (0x1300, 8, false, .even, 0) := by decide +kernel

/-- A state before CMD's turn, with the frame presented. -/
def atFrame (f : BitVec 128) (ready v : Bool) : State :=
  { State.reset with cmdBusy := true, cmdFrame := f, fbReady := ready, vretrace := v, turns := [.cmd] }

/-- The responses after the step. -/
def responses (s : State) : Option (List (BitVec 32)) := (stateOf (step s)).map fun t => t.rsp

/-- V18. -/
theorem test_step_queries : responses (atFrame (frameOfWords 0x01000000 0 0 0) false false) = some [0x140] ∧
    responses (atFrame (frameOfWords 0x02000000 0 0 0) false false) = some [0x1B0] ∧
    responses (atFrame (frameOfWords 0x03000000 0 0 0) false true) = some [1] ∧
    responses (atFrame (frameOfWords 0x0A000000 0 0 0) false false) = some [0x2010] ∧
    responses (atFrame (frameOfWords 0x0B000000 0 0 0) false false) = some [0x2000] := by decide +kernel

/-- V19: `SETACT` with `FB_READY = 0`. -/
theorem test_step_setact :
    (stateOf (step (atFrame (frameOfWords 0x04000002 0 0 0) false false))).map (·.pixact) = some .flip := by decide +kernel

/-- V20: `SETPIXEL 319, 431` in its write step; `SETPIXEL 320, 0` responds at once. -/
theorem test_step_setpixel :
    (stateOf (step { atFrame (frameOfWords 0x05000000 0x01AF013F 0 0) true true with ustate := .pixel .write })).map (·.wm) =
      some [(0x3AFD, 1)] ∧
    responses (atFrame (frameOfWords 0x05000000 0x00000140 0 0) true false) = some [0] := by decide +kernel

/-- V21: Flip and Clear on a word that is not zero, pixel (3,0). -/
theorem test_pixel_actions : pixelResult Config.testCfg .flip 3 0xF0F0F0F0 = 0xE0F0F0F0 ∧
    pixelResult Config.testCfg .clear 4 0xF0F0F0F0 = 0xF0F0F0F0 ∧ pixelResult Config.testCfg .set 4 0xF0F0F0F0 = 0xF8F0F0F0 := by
  decide +kernel

/-- V25: the points of a line to the right, of a steep one, and of one that starts off the screen. -/
theorem test_line_points : (lineSeg 0 0 4 2).points = [(0, 0), (1, 1), (2, 1), (3, 2), (4, 2)] ∧
    (lineSeg 0 0 1 5).points = [(0, 0), (0, 1), (0, 2), (1, 3), (1, 4), (1, 5)] ∧
    (lineSeg (-2) (-1) 2 1).points = [(-2, -1), (-1, 0), (0, 0), (1, 1), (2, 1)] := by decide +kernel

/-- V25, V26: `LINE 0, 0, 4, 2` writes (1,1) and goes on to (2,1). -/
theorem test_step_line :
    (stateOf (step { atFrame (frameOfWords 0x06000000 0 0x00020004 0) true true with
      ustate := .line ((lineSeg 0 0 4 2).advance (lineSeg 0 0 4 2).begin) .write })).map
      (fun t => (t.wm, (pixelPoint (.line 0 0 4 2) t.ustate))) = some ([(0x2014, 0x40000000)], some (2, 1)) := by decide +kernel

/-- V27: the ten points of `BOX 1, 1, 3, 2`. -/
theorem test_box_points : boxPoints (lineSeg 1 1 3 2) =
    [(1, 1), (2, 1), (3, 1), (3, 1), (3, 2), (3, 2), (2, 2), (1, 2), (1, 2), (1, 1)] := by decide +kernel

/-- V27: the first edge of `BOX 1, 1, 3, 2` ends at (3,1), and the second starts there. -/
theorem test_step_box :
    (stateOf (step { atFrame (frameOfWords 0x07000000 0x00010001 0x00020003 0) true true with
      ustate := .box 0 ⟨3, 1, 0⟩ .write })).map (fun t => (t.wm, pixelPoint (.box 1 1 3 2) t.ustate)) =
      some ([(0x2014, 0x10000000)], some (3, 1)) := by decide +kernel

/-- V28's bitmap. -/
def v28 : ByteMem := [(0x200, 0xFF), (0x201, 0xFF), (0x202, 0x81), (0x203, 0x20)]

/-- V28: the points of `BITBLIT 30, 1, 11, 2, 0x200`. -/
theorem test_blit_points : blitPoints v28 30 1 11 2 0x200 =
    [(30, 1), (31, 1), (32, 1), (33, 1), (34, 1), (35, 1), (36, 1), (37, 1), (38, 1), (39, 1), (40, 1)] ++
      [(30, 2), (37, 2), (40, 2)] := by decide +kernel

/-- V28: the second byte of the second row is read at 0x203, and its third bit, the eleventh column, is set. -/
theorem test_step_bitblit :
    (stateOf (step { atFrame (frameOfWords 0x08000000 0x0001001E 0x0002000B 0x200) true true with bm := v28, ustate := .blitFetch 1 1 })).map
      (·.ustate) = some (.blitBit 1 8 0x20 .entry) ∧
    responses { atFrame (frameOfWords 0x08000000 0x0001001E 0x0002000B 0x200) true true with ustate := .blitBit 1 10 0x20 .write } =
      some [0] := by decide +kernel

/-- V22: the last word of `CLEAR 1`; with `FB_READY = 0` it only responds. -/
theorem test_step_clear :
    (stateOf (step { atFrame (frameOfWords 0x09000001 0 0 0) true false with ustate := .clear 431 13 })).map (fun t => (t.wm, t.rsp)) =
      some ([(0x3AFD, 0xFFFFFFFF)], [0]) ∧
    (stateOf (step (atFrame (frameOfWords 0x09000001 0 0 0) false false))).map (fun t => (t.wm, t.rsp)) = some ([], [0]) := by
  decide +kernel

/-- V23: a prefix word of `FBINIT` comes from the blank-line table; the last step sets `FB_READY`. -/
theorem test_step_fbinit :
    (stateOf (step { atFrame (frameOfWords 0x10000000 0 0 0) false false with
      wm := [(0x1203, 0xB003)], ustate := .fbPrefix 431 3 })).map (fun t => (t.wm, t.ustate)) =
      some ([(0x1203, 0xB003), (0x3AF3, 0xB003)], .fbReady) ∧
    (stateOf (step { atFrame (frameOfWords 0x10000000 0 0 0) false false with ustate := .fbReady })).map
      (fun t => (t.fbReady, t.rsp, t.cmdBusy)) = some (true, [0], false) := by decide +kernel

/-- V24, with `RESET_PARITY` Even and Odd. -/
theorem test_step_start : lineAfter (atFrame (frameOfWords 0x11000000 0 0 0) false false) = some (0x1100, 16, false, .even, 1) ∧
    lineAfter { atFrame (frameOfWords 0x11000000 0 0 0) false false with field := .odd } = some (0x1100, 16, true, .odd, 1) := by
  decide +kernel

/-- V29. -/
theorem test_step_empty : responses (atFrame (frameOfWords 0x0C000000 0 0 0) true false) = some [0] ∧
    responses (atFrame (frameOfWords 0x0D000000 0 0 0) false false) = some [0] ∧
    responses (atFrame (frameOfWords 0x0E000000 0 0 0) true true) = some [0] := by decide +kernel

/-- `withFetchWord` at reset: `VSYNC.E[5]` and `WIDTH` run as the first instruction. -/
theorem test_withFetchWord : lineAfter (State.reset.withFetchWord 16 0x005) = some (0x1000, 16, false, .even, 6) ∧
    responses (State.reset.withFetchWord 128 0x01000000000000000000000000000000) = some [0x140] := by decide +kernel

/-! ### Witnesses: states that meet the hypotheses of the obligations -/

/-- After `START` (V24), the engine about to read its first word. -/
def started : State :=
  { State.reset with
    run := true, scanLine := 1, srcPtr := 0x1100, xferLen := 16, dmaAddr := 0x1100, dmaRemain := 16, dmaBusy := true
    out := [{ src := 0x1100, len := 16, words := [] }], turns := [.xfer] }

/-- The same with its record complete and its completion pending. -/
def pending : State :=
  { started with
    dmaAddr := 0x1110, dmaRemain := 0, dmaBusy := false, irqPending := true
    out := [{ src := 0x1100, len := 16, words := List.replicate 16 0 }], turns := [.seq] }

theorem started_retrace : RetraceInv started ∧ RetraceInv pending := by unfold RetraceInv; decide +kernel

theorem started_engine : EngineInv started ∧ EngineInv pending := by unfold EngineInv; decide +kernel

theorem started_signal : SignalInv started ∧ SignalInv pending := by
  constructor <;>
    (refine ⟨by decide +kernel, ?_, by decide +kernel, fun _ => ⟨_, rfl, by decide +kernel, by decide +kernel⟩⟩
     intro k r h
     match k with
     | 0 => obtain rfl := Option.some.inj h; decide +kernel
     | k + 1 => simp [started, pending] at h)

theorem started_records : RecordsInv started ∧ RecordsInv pending := by
  constructor
  · exact ⟨by simp [started], by simp [started], fun _ => ⟨_, rfl, by decide +kernel, by decide +kernel⟩⟩
  · exact ⟨by simp [pending], by simp [pending, Record.complete], by simp [pending]⟩

theorem started_memory : MemoryInv started ∧ MemoryInv pending := by unfold MemoryInv; decide +kernel

theorem started_command : CommandInv started ∧ PrefixInv started :=
  ⟨fun h => by simp [started, State.reset, State.resetWith] at h,
    fun h => by simp [started, State.reset, State.resetWith] at h, fun h => by simp [started, State.reset, State.resetWith] at h,
    fun r j h => by simp [started, State.reset, State.resetWith] at h⟩

theorem started_step : (∃ t, step started = .next t) ∧ ∃ t, step pending = .next t :=
  ⟨next_of_stateOf (by decide +kernel), next_of_stateOf (by decide +kernel)⟩

theorem witness_DecodeOfEncodeIsTheInstruction : (Instr.active .odd 245).wf = true ∧
    (Instr.bitblit 0x8000 0x7FFF 0xFFFF 1 0xFFFFFFFF).wf = true := by decide

theorem witness_ReservedEncodingsAreRefused :
    Config.testCfg.wf = true ∧ (∀ r ∈ cmdRows, r.matches (frameOfWords 0x12000000 0 0 0) = false) ∧
    ((splitFrame (frameOfWords 0x04000003 0 0 0)).op = 0x04 ∧ (splitFrame (frameOfWords 0x04000003 0 0 0)).imm2 = 3) ∧
    (atFrame (frameOfWords 0x12000000 0 0 0) true true).cmdBusy = true ∧
    (atLine .odd 262 0 false).irqPending = true ∧ 262 ≤ (atLine .odd 262 0 false).scanLine.toNat := by decide +kernel

/-- The line ranges' hypotheses at both ends of each range. -/
theorem witness_lineRanges :
    (0 : BitVec 9).toNat < 3 ∧ (2 : BitVec 9).toNat < 3 ∧ 3 ≤ (3 : BitVec 9).toNat ∧ (5 : BitVec 9).toNat < 6 ∧
    6 ≤ (6 : BitVec 9).toNat ∧ (8 : BitVec 9).toNat < 9 ∧ 9 ≤ (9 : BitVec 9).toNat ∧ (29 : BitVec 9).toNat < 30 ∧
    (30 : BitVec 9).toNat = 30 ∧ 31 ≤ (31 : BitVec 9).toNat ∧ (245 : BitVec 9).toNat < 246 ∧ 246 ≤ (246 : BitVec 9).toNat ∧
    (260 : BitVec 9).toNat < 261 ∧ (261 : BitVec 9).toNat = 261 := by decide

theorem witness_StepRunsTheLineOperation :
    pending.cfg.wf = true ∧ pending.turns = [.seq] ∧ pending.irqPending = true ∧ decodeLine pending.lineWord = .ok (.eqpre .even 1) ∧
    pending.dmaBusy = false ∧ { pending with dmaBusy := true }.dmaBusy = true := by decide +kernel

theorem witness_LinestepIsThePureTable :
    (∃ t, lineStepWith exec (atLine .even 31 0x2010 false) = .next t) ∧ (0x2010 : Addr) = Config.testCfg.fbw (fieldRow .even 30) 0 ∧
    (∃ t, lineStepWith exec (atLine .odd 245 0x3AC0 false) = .next t) ∧ (0x3AC0 : Addr) = Config.testCfg.fbw (fieldRow .odd 244) 0 :=
  ⟨next_of_stateOf (by decide +kernel), by decide +kernel, next_of_stateOf (by decide +kernel), by decide +kernel⟩

theorem witness_CursorHasPeriod524 : (0 : BitVec 9).toNat < 262 ∧ (261 : BitVec 9).toNat < 262 := by decide

theorem witness_EveryStepKeepsRetraceClosedForm : RetraceInv pending ∧ ∃ t, step pending = .next t :=
  ⟨started_retrace.2, started_step.2⟩

theorem witness_EveryStepKeepsEngineAlternation : EngineInv pending ∧ ∃ t, step pending = .next t := ⟨started_engine.2, started_step.2⟩

theorem witness_EveryStepKeepsSignalOnTheTable : SignalInv pending ∧ EngineInv pending ∧ ∃ t, step pending = .next t :=
  ⟨started_signal.2, started_engine.2, started_step.2⟩

theorem witness_EveryStepKeepsRecordsComplete : RecordsInv started ∧ EngineInv started ∧ SignalInv started ∧ ∃ t, step started = .next t :=
  ⟨started_records.1, started_engine.1, started_signal.1, started_step.1⟩

theorem witness_HandlerNeverFails :
    (atLine .odd 261 0 false).cfg.wf = true ∧ (atLine .odd 261 0 false).turns = [.seq] ∧ (atLine .odd 261 0 false).irqPending = true ∧
    (atLine .odd 261 0 false).scanLine.toNat < 262 ∧ (atLine .odd 261 0 false).dmaBusy = false := by decide +kernel

theorem witness_StartedSequencerNeverStalls :
    pending.cfg.wf = true ∧ pending.cfg.platformComplete = true ∧ pending.run = true ∧ EngineInv pending ∧ SignalInv pending ∧
    RecordsInv pending := ⟨by decide +kernel, by decide, rfl, started_engine.2, started_signal.2, started_records.2⟩

theorem witness_GateOpensWithinOneFrame :
    started.cfg.wf = true ∧ started.cfg.platformComplete = true ∧ started.run = true ∧ started.dmaBusy = true ∧ EngineInv started ∧
    SignalInv started ∧ RecordsInv started ∧ RetraceInv started :=
  ⟨by decide +kernel, by decide, rfl, rfl, started_engine.1, started_signal.1, started_records.1, started_retrace.1⟩

/-- A well-formed configuration whose regions cover all of WM: the tables in words 0 to 31, the framebuffer above. -/
def wholeCfg : Config :=
  { Config.testCfg with halfExt := 16, vsyncBase := 0, eqBase := 0, blankBase := 0, hblankBase := 0, fbBase := 32, yRes := 2 ^ 28 - 2 }

theorem wholeCfg_mapped (a : Addr) : wholeCfg.mapped a = true := by
  have := a.isLt
  simp [wholeCfg, Config.testCfg, Config.mapped, Config.regions, Config.tables, Config.fbRegion, Config.vsyncRegion, Config.eqRegion,
    Config.blankRegion, Config.hblankRegion, Region.contains, Config.halfWords]
  omega

/-- The state after `START` under that configuration. -/
def fairStart : State :=
  { started with cfg := wholeCfg, srcPtr := 0, dmaAddr := 0, out := [{ src := 0, len := 16, words := [] }], turns := [] }

/-- XFER whenever it can move, else SEQ. -/
def fairTurn (s : State) : Turn := if xferEnabled s then .xfer else .seq

/-- The run in which XFER and SEQ take every turn. -/
def fairRun : Nat → State
  | 0 => fairStart
  | k + 1 => (stateOf (takeTurn (fairTurn (fairRun k)) ((fairRun k).setTurns []))).getD fairStart

/-- In this run one of the two can always move. -/
theorem fair_moves {s : State} (h : s.cfg = wholeCfg ∧ s.scanLine.toNat < 262 ∧ s.dmaBusy = !s.irqPending) :
    ∃ t, takeTurn (fairTurn s) (s.setTurns []) = .next t ∧ t.cfg = wholeCfg ∧ t.scanLine.toNat < 262 ∧ t.dmaBusy = !t.irqPending := by
  obtain ⟨hc, hl, hb⟩ := h
  cases hi : s.irqPending
  · have hbt : s.dmaBusy = true := by rw [hb, hi]; rfl
    have he : fairTurn s = .xfer := by simp [fairTurn, xferEnabled, hbt, hc, wholeCfg_mapped]
    rw [he]
    by_cases hr : s.dmaRemain = 0
    · exact ⟨_, xferTurn_next.2 ⟨hbt, .inl ⟨hr, rfl⟩⟩, hc, hl, rfl⟩
    · exact ⟨_, xferTurn_next.2 ⟨hbt, .inr ⟨hr, by rw [State.setTurns_cfg, hc]; exact wholeCfg_mapped _, rfl⟩⟩, hc, hl, hb⟩
  · have hbf : s.dmaBusy = false := by rw [hb, hi]; rfl
    have he : fairTurn s = .seq := by simp [fairTurn, xferEnabled, hbf]
    rw [he]
    obtain ⟨i, hd⟩ := decodeScan_total (f := s.field) hl
    obtain ⟨h1, -, -, -, -, -, -, h8, h9, -, -, h12, -⟩ := lineStep_fields i (s.setTurns [])
    refine ⟨_, seqTurn_next.2 ⟨hi, i, hd, hbf, rfl⟩, h12.trans hc, ?_, by rw [h8, h9]; rfl⟩
    rw [h1, State.setTurns_scanLine, nextLine_toNat hl]
    split <;> omega

theorem fairRun_next (k : Nat) : takeTurn (fairTurn (fairRun k)) ((fairRun k).setTurns []) = .next (fairRun (k + 1)) ∧
    (fairRun k).cfg = wholeCfg ∧ (fairRun k).scanLine.toNat < 262 ∧ (fairRun k).dmaBusy = !(fairRun k).irqPending := by
  induction k with
  | zero =>
    have h : fairStart.cfg = wholeCfg ∧ fairStart.scanLine.toNat < 262 ∧ fairStart.dmaBusy = !fairStart.irqPending := by decide +kernel
    obtain ⟨t, ht, -⟩ := fair_moves h
    exact ⟨by simp only [fairRun, ht, stateOf, Option.getD_some], h⟩
  | succ k ih =>
    obtain ⟨t, ht, h⟩ := fair_moves ih.2
    have e : fairRun (k + 1) = t := by simp only [fairRun, ht, stateOf, Option.getD_some]
    obtain ⟨u, hu, -⟩ := fair_moves (e ▸ h)
    exact ⟨by rw [hu]; simp only [fairRun, hu, stateOf, Option.getD_some] at hu ⊢, e ▸ h⟩

/-- The second clause: a run that is endless, weakly fair and without `rst`, from a state with the invariants. -/
theorem witness_GateOpensWithinOneFrame_fair :
    EndlessRun (fun k => fairTurn (fairRun k)) fairRun ∧ WeaklyFair (fun k => fairTurn (fairRun k)) fairRun ∧
    (∀ k d, fairTurn (fairRun k) ≠ .rst d) ∧ (fairRun 0).cfg.platformComplete = true ∧ (fairRun 0).run = true ∧
    EngineInv (fairRun 0) ∧ SignalInv (fairRun 0) ∧ RecordsInv (fairRun 0) ∧ RetraceInv (fairRun 0) := by
  refine ⟨fun k => ?_, ⟨fun k h => ⟨k, le_refl _, ?_⟩, fun k h => ⟨k, le_refl _, ?_⟩⟩, fun k d => ?_, by decide, rfl, ?_, ⟨?_, ?_, ?_, ?_⟩, ?_, ?_⟩
  · rw [step_turn (by rw [State.setTurns_cfg, (fairRun_next k).2.1]; decide +kernel) rfl]
    exact (fairRun_next k).1
  · simp [fairTurn, h k (le_refl _)]
  · have hi : (fairRun k).irqPending = true := h k (le_refl _)
    have hb := (fairRun_next k).2.2.2
    rw [hi] at hb
    simp [fairTurn, xferEnabled, hb]
  · unfold fairTurn; split <;> simp
  · unfold EngineInv; decide +kernel
  · decide +kernel
  · intro k r h
    match k with
    | 0 => obtain rfl := Option.some.inj h; decide +kernel
    | k + 1 => simp [fairRun, fairStart] at h
  · decide +kernel
  · exact fun _ => ⟨_, rfl, by decide +kernel, by decide +kernel⟩
  · exact ⟨by simp [fairRun, fairStart], by simp [fairRun, fairStart, started], fun _ => ⟨_, rfl, by decide +kernel, by decide +kernel⟩⟩
  · unfold RetraceInv; decide +kernel

/-- R63, V17: the extension's last word is mapped, the word after it is not. -/
theorem witness_BeatEmitsOneWord :
    started.cfg.wf = true ∧ started.turns = [.xfer] ∧ started.dmaBusy = true ∧ started.dmaRemain ≠ 0 ∧
    started.cfg.mapped 0x1117 = true ∧ started.cfg.mapped 0x1118 = false := by decide +kernel

theorem witness_DoneRaisesTheCompletion :
    started.cfg.wf = true ∧ { started with dmaRemain := 0 }.turns = [.xfer] ∧ { started with dmaRemain := 0 }.dmaBusy = true ∧
    { started with dmaRemain := 0 }.dmaRemain = 0 := by decide +kernel

theorem witness_DisabledAgentsAreStuck :
    Config.testCfg.wf = true ∧ { pending with turns := [.xfer] }.dmaBusy = false ∧ { started with turns := [.seq] }.irqPending = false ∧
    { atFrame 0 true true with turns := [.host 0] }.cmdBusy = true ∧ { started with turns := [.cmd] }.cmdBusy = false := by decide +kernel

theorem witness_TransferEmitsAscendingWordsThenCompletes :
    started.cfg.wf = true ∧ started.dmaBusy = true ∧ started.dmaRemain.toNat = 16 ∧
    ∀ j, j < 16 → started.cfg.mapped (started.dmaAddr + BitVec.ofNat 32 j) = true := by decide +kernel

/-- V28, V27: where `BITBLIT` and `BOX` go next, at the end of a byte, of a row and of an edge. -/
theorem test_nextPlace :
    nextPlace (.bitblit 30 1 11 2 0x200) (.blitBit 0 7 0xFF .write) = some (.blitFetch 0 1) ∧
    nextPlace (.bitblit 30 1 11 2 0x200) (.blitBit 0 10 0xFF .write) = some (.blitFetch 1 0) ∧
    nextPlace (.bitblit 30 1 11 2 0x200) (.blitBit 1 10 0x20 .write) = none ∧
    (nextPlace (.box 1 1 3 2) (.box 1 ⟨3, 2, 0⟩ .write)).bind (pixelPoint (.box 1 1 3 2)) = some (3, 2) ∧
    nextPlace (.box 1 1 3 2) (.box 3 ⟨1, 1, 0⟩ .write) = none := by decide +kernel

/-- V5's frame, presented to a free port. -/
theorem witness_HostPresentsAFrame :
    { started with turns := [.host (frameOfWords 0x08000000 0 0x00010008 0x100)] }.cfg.wf = true ∧ started.cmdBusy = false ∧
    decodeFrame (frameOfWords 0x08000000 0 0x00010008 0x100) = .ok (.bitblit 0 0 8 1 0x100) := by decide +kernel

theorem witness_StepRunsTheCommand :
    (atFrame (frameOfWords 0x11000000 0 0 0) true true).cfg.wf = true ∧ (atFrame (frameOfWords 0x11000000 0 0 0) true true).turns = [.cmd] ∧
    (atFrame (frameOfWords 0x11000000 0 0 0) true true).cmdBusy = true ∧
    decodeFrame (atFrame (frameOfWords 0x11000000 0 0 0) true true).cmdFrame = .ok .start := by decide +kernel

/-- V29's frame with every ignored bit used, for the decoding clause. -/
theorem witness_EmptyPrimitivesOnlyRespond :
    (splitFrame (frameOfWords 0x0C123456 0x789ABCDE 0xF0123456 0x789ABCDE)).op = 0x0C ∧ (splitFrame (frameOfWords 0x0DFFFFFF 0 0 0)).op = 0x0D ∧
    (splitFrame (frameOfWords 0x0E000000 0 0 1)).op = 0x0E ∧
    ((.circle : Instr) = .circle ∨ (.circle : Instr) = .fill ∨ (.circle : Instr) = .text) := by decide +kernel

/-- V20's dropped points, one past each edge, and the two empty descriptors of V28. -/
theorem witness_SilentNoOpsOnlyRespond :
    (atFrame 0 false true).ustate = .first ∧ isDrawing (.line 0 0 4 4) = true ∧ (atFrame 0 false true).fbReady = false ∧
    inBounds Config.testCfg (320 : BitVec 16).toInt (0 : BitVec 16).toInt = false ∧
    inBounds Config.testCfg (0xFFFF : BitVec 16).toInt (5 : BitVec 16).toInt = false ∧
    inBounds Config.testCfg (0 : BitVec 16).toInt (432 : BitVec 16).toInt = false ∧
    ((0 : BitVec 16) = 0 ∨ (5 : BitVec 16) = 0) ∧ ((8 : BitVec 16) = 0 ∨ (0 : BitVec 16) = 0) := by decide +kernel

/-- Its further clauses, at `VRETRACE = 0`: the entry step at V26's off-screen (-2, -1) and at (0, 0); an unset and a set bit of V5's
byte, the last column among them; the ready first step; and the second byte of V28's second row, mapped and,
on a platform that maps only the three bytes before it, not. -/
theorem witness_SilentNoOpsOnlyRespond_entry :
    (Instr.line (-2) (-1) 2 1).isLine = false ∧
    microOk Config.testCfg (.line (-2) (-1) 2 1) (.line (lineSeg (-2) (-1) 2 1).begin .entry) = true ∧
    pixelPoint (.line (-2) (-1) 2 1) (.line (lineSeg (-2) (-1) 2 1).begin .entry) = some (-2, -1) ∧
    inBounds Config.testCfg (-2) (-1) = false ∧ inBounds Config.testCfg 0 0 = true ∧
    microOk Config.testCfg (.bitblit 0 0 8 1 0x100) (.blitBit 0 7 0xB0 .entry) = true ∧
    (UState.blitBit 0 7 0xB0 .entry).wanted = false ∧ (UState.blitBit 0 0 0xB0 .entry).wanted = true ∧
    (UState.blitBit 0 7 0xB0 .entry).phase = some .entry ∧
    (atFrame 0 true false).ustate = .first ∧ (atFrame 0 true false).fbReady = true ∧ (8 : BitVec 16) ≠ 0 ∧
    Config.testCfg.bmMapped (blitAddr 0x200 (11 : BitVec 16).toNat 1 1) = true ∧
    ({ Config.testCfg with bmMap := [⟨0x200, 3⟩] } : Config).bmMapped (blitAddr 0x200 (11 : BitVec 16).toNat 1 1) = false := by decide +kernel

theorem witness_GateHoldsUntilRetrace :
    (Instr.setpixel 319 431).isLine = false ∧ microOk Config.testCfg (.setpixel 319 431) (.pixel .poll) = true ∧
    (UState.pixel .poll).phase = some .poll := by decide +kernel

theorem witness_WriteStepPlotsOnePixel :
    (Instr.setpixel 319 431).isLine = false ∧ microOk Config.testCfg (.setpixel 319 431) (.pixel .write) = true ∧
    (UState.pixel .write).phase = some .write ∧ pixelPoint (.setpixel 319 431) (.pixel .write) = some (319, 431) ∧
    Config.testCfg.mapped (pixelAddr Config.testCfg 319 431) = true := by decide +kernel

/-- Each clause's last micro-operation, at the corner (319, 431) of the screen. -/
theorem witness_MultiStepCommandsFinish :
    inBounds Config.testCfg (319 : BitVec 16).toInt (431 : BitVec 16).toInt = true ∧
    Config.testCfg.mapped (pixelAddr Config.testCfg 319 431) = true ∧
    (⟨319, 431, 0⟩ : Walk).x = (319 : BitVec 16).toInt ∧ (⟨319, 431, 0⟩ : Walk).y = (431 : BitVec 16).toInt ∧
    0 + 1 = (1 : BitVec 16).toNat ∧ 7 + 1 = (8 : BitVec 16).toNat ∧ blitPixel 0x01 7 = true ∧
    inBounds Config.testCfg ((312 : BitVec 16).toInt + (7 : Nat)) ((431 : BitVec 16).toInt + (0 : Nat)) = true ∧
    1 ≤ Config.testCfg.yRes ∧ 1 ≤ Config.testCfg.xw ∧ Config.testCfg.mapped (Config.testCfg.fbw 431 13) = true := by decide +kernel

theorem witness_StartArmsTheFirstTransfer :
    State.reset.run = false ∧ State.reset.dmaBusy = false ∧ State.reset.scanLine = 0 ∧
    ∃ t, lineStepWith exec { State.reset with run := true } = .next t :=
  ⟨rfl, rfl, rfl, next_of_stateOf (by decide +kernel)⟩

theorem witness_SecondStartupIsANoOp :
    started.run = true ∧ (atFrame 0 true true).fbReady = true ∧ (atFrame 0 true true).ustate = .first := by decide +kernel

/-- The drawing commands' common hypotheses: configuration, platform, memory, port, flags. -/
def drawable (s : State) : Bool :=
  s.cfg.wf && s.cfg.platformComplete && Memory.wf s.cfg.wordW s.wm s.bm && s.cmdBusy && decide (s.ustate = .first) && s.fbReady && s.vretrace

theorem witness_SetpixelChangesOnePixel :
    drawable (atFrame (frameOfWords 0x05000000 0x01AF013F 0 0) true true) = true ∧
    decodeFrame (frameOfWords 0x05000000 0x01AF013F 0 0) = .ok (.setpixel 319 431) ∧
    inBounds Config.testCfg (319 : BitVec 16).toInt (431 : BitVec 16).toInt = true := by decide +kernel

theorem witness_LineDrawsItsPoints :
    drawable (atFrame (frameOfWords 0x06000000 0xFFFFFFFE 0x00010002 0) true true) = true ∧
    decodeFrame (frameOfWords 0x06000000 0xFFFFFFFE 0x00010002 0) = .ok (.line (-2) (-1) 2 1) := by decide +kernel

theorem witness_BoxDrawsFourEdges :
    drawable (atFrame (frameOfWords 0x07000000 0x00010001 0x00020003 0) true true) = true ∧
    decodeFrame (frameOfWords 0x07000000 0x00010001 0x00020003 0) = .ok (.box 1 1 3 2) := by decide +kernel

theorem witness_BitblitDrawsTheSetBits :
    drawable { atFrame (frameOfWords 0x08000000 0x0001001E 0x0002000B 0x200) true true with bm := v28 } = true ∧
    decodeFrame (frameOfWords 0x08000000 0x0001001E 0x0002000B 0x200) = .ok (.bitblit 30 1 11 2 0x200) ∧
    ∀ row, row < 2 → ∀ j, j < 2 → Config.testCfg.bmMapped (blitAddr 0x200 11 row j) = true := by decide +kernel

theorem witness_ClearFillsTheActiveWords :
    drawable (atFrame (frameOfWords 0x09000001 0 0 0) true true) = true ∧
    decodeFrame (frameOfWords 0x09000001 0 0 0) = .ok (.clear true) := by decide +kernel

theorem witness_FbinitSeedsTheFramebuffer :
    let s : State := { atFrame (frameOfWords 0x10000000 0 0 0) false false with wm := [(0x1200, 0xB000)] }
    s.cfg.wf = true ∧ s.cfg.platformComplete = true ∧ Memory.wf s.cfg.wordW s.wm s.bm = true ∧ s.cmdBusy = true ∧
    decodeFrame s.cmdFrame = .ok .fbinit ∧ s.ustate = .first ∧ s.fbReady = false := by decide +kernel

/-- For the three statements about `plot` and `plotAll`. -/
theorem witness_PlotChangesOnePixel :
    Config.testCfg.wf = true ∧ Memory.wf Config.testCfg.wordW [(0x2004, 0xF0F0F0F0)] v28 = true ∧ 319 < Config.testCfg.xRes ∧
    431 < Config.testCfg.yRes ∧ [((0 : Int), (0 : Int)), (4, 2)].Perm [(4, 2), (0, 0)] :=
  ⟨by decide +kernel, by decide +kernel, by decide, by decide, .swap _ _ _⟩

theorem witness_OnlySeqWritesItsRegisters :
    started.turns = [.xfer] ∧ (∃ t, step started = .next t) ∧ (∀ d, Turn.xfer ≠ .rst d) ∧ Turn.xfer ≠ .seq :=
  ⟨rfl, started_step.1, by simp, by decide⟩

theorem witness_OnlyCmdWritesWordMemory : pending.turns = [.seq] ∧ (∃ t, step pending = .next t) ∧ Turn.seq ≠ .cmd :=
  ⟨rfl, started_step.2, by decide⟩

/-- `SETACT Flip`, the last step of `FBINIT`, and `START` each change their bit. -/
theorem witness_ModeBitsHaveOneWriter :
    (∃ t, step (atFrame (frameOfWords 0x04000002 0 0 0) false false) = .next t) ∧
    (stateOf (step (atFrame (frameOfWords 0x04000002 0 0 0) false false))).map (·.pixact) ≠ some .set ∧
    (stateOf (step { atFrame (frameOfWords 0x10000000 0 0 0) false false with ustate := .fbReady })).map (·.fbReady) = some true ∧
    (stateOf (step (atFrame (frameOfWords 0x11000000 0 0 0) false false))).map (·.run) = some true :=
  ⟨next_of_stateOf (by decide +kernel), by decide +kernel, by decide +kernel, by decide +kernel⟩

theorem witness_TablesNeverChange :
    MemoryInv started ∧ CommandInv started ∧ (∃ t, step started = .next t) ∧ started.cfg.eqRegion ∈ started.cfg.tables ∧
    started.cfg.eqRegion.contains 0x1117 = true :=
  ⟨started_memory.1, started_command.1, started_step.1, by decide +kernel, by decide +kernel⟩

theorem witness_EveryStepKeepsPrefixSeeded : MemoryInv started ∧ CommandInv started ∧ PrefixInv started ∧ ∃ t, step started = .next t :=
  ⟨started_memory.1, started_command.1, started_command.2, started_step.1⟩

/-- `SETPIXEL 0, 0` at a poll that passes. -/
def polling (v : Bool) : State := { atFrame (frameOfWords 0x05000000 0 0 0) true v with ustate := .pixel .poll }

theorem polling_command (v : Bool) : CommandInv (polling v) :=
  fun _ => ⟨.setpixel 0 0, (by decide +kernel : decodeFrame (frameOfWords 0x05000000 0 0 0) = .ok (.setpixel 0 0)), rfl,
    (by decide +kernel : microOk Config.testCfg (.setpixel 0 0) (.pixel .poll) = true), fun _ => rfl⟩

/-- The passed poll leads to another micro-state, and it is CMD's own turn. -/
theorem witness_WriteOnlyAfterAPassedPoll :
    (∀ d ts, (polling true).turns ≠ .rst d :: ts) ∧ (∃ t, step (polling true) = .next t) ∧
    (stateOf (step (polling true))).map (·.ustate) = some (.pixel .write) ∧ (polling true).ustate ≠ .pixel .write ∧
    (polling true).turns = [.cmd] :=
  ⟨by simp [polling, atFrame], next_of_stateOf (by decide +kernel), by decide +kernel, by decide, rfl⟩

theorem witness_DrawingBeforeStartHangsForGood :
    hungBeforeStart (polling false) = true ∧ CommandInv (polling false) ∧ (∀ d ts, (polling false).turns ≠ .rst d :: ts) ∧
    ∃ t, step (polling false) = .next t :=
  ⟨by decide +kernel, polling_command false, by simp [polling, atFrame], next_of_stateOf (by decide +kernel)⟩

/-- P5's state before its fourth line: `SETPIXEL 40, 0` about to poll, the cursor at (Odd, 30); and row 1 in the even field. -/
theorem witness_AWriteCanSlipPastTheGate :
    let s : State := { atLine .odd 30 0x1200 true with
      cmdBusy := true, cmdFrame := frameOfWords 0x05000000 0x00000028 0 0, fbReady := true, ustate := .pixel .poll }
    s.cfg.wf = true ∧ s.cfg.platformComplete = true ∧ Memory.wf s.cfg.wordW s.wm s.bm = true ∧ s.cmdBusy = true ∧
    decodeFrame s.cmdFrame = .ok (.setpixel 40 0) ∧ s.ustate = .pixel .poll ∧ s.vretrace = true ∧ s.scanLine = 30 ∧
    s.irqPending = true ∧ s.dmaBusy = false ∧ inBounds s.cfg (40 : BitVec 16).toInt (0 : BitVec 16).toInt = true ∧
    (0 : BitVec 16).toInt = (if s.field = .even then 1 else 0) := by decide +kernel

theorem witness_EveryStepKeepsCommandConsistent : CommandInv (polling true) ∧ ∃ t, step (polling true) = .next t :=
  ⟨polling_command true, next_of_stateOf (by decide +kernel)⟩

theorem witness_CommandsNeverFail :
    (polling true).cfg.wf = true ∧ (polling true).cfg.platformComplete = true ∧ (∀ b, (polling true).cfg.bmMapped b = true) ∧
    (polling true).turns = [.cmd] ∧ (polling true).cmdBusy = true ∧ CommandInv (polling true) ∧ EngineInv (polling true) ∧
    (polling true).scanLine.toNat < 262 := by
  refine ⟨by decide +kernel, by decide, fun b => ?_, rfl, rfl, polling_command true, ⟨fun _ => ⟨rfl, rfl⟩, fun h => ?_⟩, by decide⟩
  · simpa [polling, atFrame, State.reset, State.resetWith, Config.testCfg, Config.bmMapped, Region.contains] using b.isLt
  · simp [polling, atFrame, State.reset, State.resetWith] at h

/-- The write step of `SETPIXEL 319, 431`, which stores. -/
theorem witness_CommandStepFrame :
    (Instr.setpixel 319 431).isLine = false ∧
    (∃ t, exec (.setpixel 319 431) { atFrame 0 true true with ustate := .pixel .write } = .next t) ∧
    MemoryInv { atFrame 0 true true with ustate := .pixel .write } ∧
    storeTarget Config.testCfg (.setpixel 319 431) (.pixel .write) = some 0x3AFD ∧
    storeTarget Config.testCfg (.setpixel 319 431) (.pixel .poll) = none :=
  ⟨rfl, next_of_stateOf (by decide +kernel), by unfold MemoryInv; decide +kernel, by decide +kernel, by decide⟩

theorem witness_EveryStepKeepsMemoryCanonical : MemoryInv pending ∧ ∃ t, step pending = .next t := ⟨started_memory.2, started_step.2⟩

theorem witness_ResetLeavesTheSpecsValues :
    { pending with turns := [.rst Draws.zero] }.cfg.wf = true ∧ MemoryInv { pending with turns := [.rst Draws.zero] } ∧
    pending.cfg.fbRegion.contains 0x1FFF = false ∧ pending.cfg.fbRegion.contains 0x3B00 = false :=
  ⟨by decide +kernel, by unfold MemoryInv; decide +kernel, by decide +kernel, by decide +kernel⟩

theorem witness_InvariantsHoldAtReset :
    Config.testCfg.wf = true ∧ Memory.wf Config.testCfg.wordW [(0x1200, 0xB000)] v28 = true := by decide +kernel

end Sys2Proof.Machine.Tests
end

/-! SUPPORT. The gate of the pixel write (R73, R182): which steps lead to its write step. -/

namespace Sys2Proof.Machine

/-- A command's step that answers a write step was a passed poll of the same pixel write. -/
theorem CmdShape.write_after_poll {i : Instr} {s t : State} (h : CmdShape i s t) (hw : t.ustate.phase = some .write) :
    s.ustate.phase = some .poll ∧ s.vretrace = true ∧ t.ustate = s.ustate.withPhase .write := by
  cases h with
  | wait hp _ => exact absurd (hp.symm.trans hw) (by decide)
  | micro u hu => exact hu hw
  | store a v u _ _ hu => exact absurd hw hu
  | answer | action | ready | storeAnswer | start => exact absurd hw (by simp [UState.phase])

/-- CMD's turn that answers a write step was a passed poll of the same pixel write. -/
theorem cmdTurn_write_after_poll {s t : State} (h : cmdTurn s = .next t) (hw : t.ustate.phase = some .write) :
    s.ustate.phase = some .poll ∧ s.vretrace = true ∧ t.ustate = s.ustate.withPhase .write := by
  obtain ⟨-, i, hd, he⟩ := cmdTurn_next.1 h
  exact (exec_shape (decodeFrame_ok hd).1 he).write_after_poll hw

/-- HOST's turn puts CMD before its first step (R170, log 11). -/
theorem hostTurn_ustate {f : BitVec 128} {s t : State} (h : hostTurn f s = .next t) : t.ustate = .first := by
  obtain ⟨-, -, rfl⟩ := hostTurn_next.1 h
  rfl

/-- XFER leaves CMD's place in its command. -/
theorem xferTurn_ustate {s t : State} (h : xferTurn s = .next t) : t.ustate = s.ustate := by
  obtain ⟨-, ⟨-, rfl⟩ | ⟨-, -, rfl⟩⟩ := xferTurn_next.1 h <;> rfl

/-- SEQ leaves CMD's place in its command. -/
theorem seqTurn_ustate {s t : State} (h : seqTurn s = .next t) : t.ustate = s.ustate := by
  obtain ⟨-, i, -, -, rfl⟩ := seqTurn_next.1 h
  rw [opState_eq]
  rfl

/-- Settles O52, turn by turn: only CMD's turn leads to a write step, and `CmdShape` says that it does so from a passed poll. -/
theorem writeOnlyAfterAPassedPoll : Obligations.WriteOnlyAfterAPassedPoll := by
  intro s t hrst h hw hmove
  obtain ⟨-, ⟨hnil, rfl⟩ | ⟨tn, ts, htn, h⟩⟩ := step_next h
  · simp [hnil] at hmove
  cases tn with
  | cmd => exact cmdTurn_write_after_poll (s := s.setTurns ts) h hw
  | host f => simp [hostTurn_ustate h, UState.phase] at hw
  | xfer => simp [htn, xferTurn_ustate h] at hmove
  | seq => simp [htn, seqTurn_ustate h] at hmove
  | rst d => exact absurd htn (hrst d ts)

end Sys2Proof.Machine

/-! SUPPORT. The sequencer's line operations (R122 to R129) and the totality of its handler (R135). -/

namespace Sys2Proof.Machine

/-- The accessor of the field (R35, R126): row 1 in an even field, row 0 in an odd one. -/
theorem fieldPointer_eq_ite (c : Config) (f : Field) :
    fieldPointer c f = if f = .even then c.fbBase + BitVec.ofNat 32 c.lineWords else c.fbBase := by
  cases f <;> rfl

/-- On a cursor below 262, with a completion pending and the engine idle, SEQ's turn is `LINESTEP` on the operation that the cursor
selects (R120, R135). -/
theorem seqTurn_total {s : State} (hp : s.irqPending = true) (hn : s.scanLine.toNat < 262) (hb : s.dmaBusy = false) :
    ∃ i, seqTurn s = .next (opState i s).advanceCursor.openTransfer := by
  obtain ⟨i, hi⟩ := decodeScan_total (f := s.field) hn
  exact ⟨i, seqTurn_next.2 ⟨hp, i, hi, hb, rfl⟩⟩

/-- Settles O19: the cursor selects an operation, a line operation never fails, and `LINESTEP` ends with `ARM`. -/
theorem handlerNeverFails : Obligations.HandlerNeverFails := by
  intro s ts hw ht hp hn hb
  obtain ⟨i, hi⟩ := seqTurn_total (s := s.setTurns ts) hp hn hb
  obtain ⟨-, -, -, -, -, haddr, hremain, hbusy, hirq, -, hrun, -⟩ := lineStep_fields i (s.setTurns ts)
  exact ⟨_, (step_turn hw ht).trans hi, hbusy, hirq, haddr, hremain, hrun⟩

/-- Settles O7: R92's ranges select the three operations, and each is one `setTransfer`, which changes no other field. -/
theorem fixedTableLinesArmTheirTable : Obligations.FixedTableLinesArmTheirTable := by
  intro f n s
  obtain ⟨-, hvsync, -, hblankpre, -, -, hblankpost, -⟩ := decodeScan_range f n
  rw [decodeLine_lineWordOf]
  exact ⟨hvsync, exec_line rfl s, hblankpre, exec_line rfl s, hblankpost, exec_line rfl s⟩

/-- Settles O9: line 30 selects `ACTFIRST`, which takes its source from the field's accessor. -/
theorem actfirstArmsFieldAndLowersRetrace : Obligations.ActfirstArmsFieldAndLowersRetrace := by
  intro f n s
  obtain ⟨-, -, -, -, hactfirst, -⟩ := decodeScan_range f n
  rw [decodeLine_lineWordOf, ← fieldPointer_eq_ite]
  exact ⟨hactfirst, exec_line rfl s⟩

end Sys2Proof.Machine

/-! SUPPORT. The four gated drawing commands inside a pixel write: their step is one `gpixStep` (R181 to R183). -/

namespace Sys2Proof.Machine

/-- Past its entry, the pixel write in progress has a pixel to write: an unset bit never leaves the entry step (R206, R208(a)). -/
theorem wanted_of_microOk {c : Config} {i : Instr} {u : UState} {ph : PixPhase} (hm : microOk c i u = true) (hp : u.phase = some ph)
    (hne : ph ≠ .entry) : u.wanted = true := by
  cases u with
  | blitBit row col byte p =>
    obtain rfl : p = ph := Option.some.inj hp
    cases i with
    | bitblit =>
      simp only [microOk, hne, decide_false, Bool.false_or, Bool.and_eq_true] at hm
      exact hm.2.1
    | _ => simp [microOk] at hm
  | _ => rfl

/-- Inside a pixel write that has a pixel, a command's step is the step of that `GPIX`, and finishing the pixel is going on to the next
place (R184, R201, R204, R206). -/
theorem exec_eq_gpixStep {i : Instr} {s : State} {ph : PixPhase} (hm : microOk s.cfg i s.ustate = true) (hp : s.ustate.phase = some ph)
    (hw : s.ustate.wanted = true) :
    ∃ x y, pixelPoint i s.ustate = some (x, y) ∧
      exec i s = gpixStep x y ph s.ustate.withPhase s fun t => .next (t.moveOn (nextPlace i s.ustate)) := by
  cases hu : s.ustate with
  | first | blitFetch | clear | fbZero | fbPrefix | fbReady => simp [hu, UState.phase] at hp
  | pixel p =>
    obtain rfl : p = ph := by simpa [hu, UState.phase] using hp
    cases i with
    | setpixel x y => exact ⟨_, _, rfl, by simp only [exec, execSetpixel, hu]; rfl⟩
    | _ => simp [hu, microOk] at hm
  | line w p =>
    obtain rfl : p = ph := by simpa [hu, UState.phase] using hp
    cases i with
    | line x0 y0 x1 y1 =>
      exact ⟨_, _, rfl, by simp only [exec, execLine, hu, lineWalkStep, walkStep_eq, ← lineNext_eq]; rfl⟩
    | _ => simp [hu, microOk] at hm
  | box e w p =>
    obtain rfl : p = ph := by simpa [hu, UState.phase] using hp
    cases i with
    | box x0 y0 x1 y1 =>
      exact ⟨_, _, rfl, by simp only [exec, execBox, hu, boxWalkStep, walkStep_eq, ← boxNext_eq]; rfl⟩
    | _ => simp [hu, microOk] at hm
  | blitBit row col byte p =>
    obtain rfl : p = ph := by simpa [hu, UState.phase] using hp
    have hb : blitPixel byte col = true := by simpa [hu, UState.wanted] using hw
    cases i with
    | bitblit x0 y0 cols rows bmp =>
      exact ⟨_, _, rfl, by simp only [exec, execBitblit, hu, blitBitStep, hb, if_true, ← blitAdvance_eq]; rfl⟩
    | _ => simp [hu, microOk] at hm

/-- The poll step of `GPIX` (R182). -/
theorem gpixStep_poll (x y : Int) (f : PixPhase → UState) (s : State) (k : State → Result) :
    gpixStep x y .poll f s k = .next (if s.vretrace = true then s.setMicro (f .write) else s) := by
  unfold gpixStep
  split_ifs <;> rfl

/-- Settles O32: a command at a poll is at the poll step of its `GPIX`. -/
theorem gateHoldsUntilRetrace : Obligations.GateHoldsUntilRetrace := by
  intro i s _ hm hp
  obtain ⟨x, y, -, he⟩ := exec_eq_gpixStep hm hp (wanted_of_microOk hm hp (by decide))
  exact he.trans (gpixStep_poll x y _ s _)

end Sys2Proof.Machine

/-! SUPPORT. The encoder and the decoder as inverses (R91, R94 to R97), format by format. -/

namespace Sys2Proof

/-- The line word of a well-formed line operation decodes to it: its `SCAN_LINE` lies in the operation's own range (R92). -/
theorem decodeLine_encodeLine {i : Instr} {lw : BitVec 10} (hwf : i.wf = true) (he : encodeLine i = some lw) : decodeLine lw = .ok i := by
  cases i with
  | eqpre f n | vsync f n | eqpost f n | blankpre f n | actfirst f n | active f n | blankpost f n | closeout f n =>
    obtain rfl := Option.some.inj he
    obtain ⟨hlo, hhi⟩ := (inLines_iff _ _ n).1 hwf
    rw [decodeLine_lineWordOf]
    grind [decodeScan_range f n]
  | _ => exact absurd he (by simp [encodeLine])

/-- The fields of a command decode to it (R96, R97). -/
theorem decodeFields_encodeFields {i : Instr} {c : CmdFields} (he : encodeFields i = some c) : decodeFields c = .ok i := by
  cases i with
  | eqpre | vsync | eqpost | blankpre | actfirst | active | blankpost | closeout => exact absurd he (by simp [encodeFields])
  | setact a => obtain rfl := Option.some.inj he; cases a <;> rfl
  | clear colour => obtain rfl := Option.some.inj he; cases colour <;> rfl
  | _ => obtain rfl := Option.some.inj he; rfl

/-- Settles O1: each instruction has one format, whose decoder inverts its encoder. -/
theorem decodeOfEncodeIsTheInstruction : Obligations.DecodeOfEncodeIsTheInstruction := by
  intro i hwf
  cases i with
  | eqpre | vsync | eqpost | blankpre | actfirst | active | blankpost | closeout => exact decodeLine_encodeLine hwf rfl
  | _ => exact (decodeFrame_joinFrame _).trans (decodeFields_encodeFields rfl)

end Sys2Proof

/-! SUPPORT. What every step keeps of SEQ and XFER: the flag's closed form (R132), the alternation of transfer and completion (R237,
R238), the signal's table (R131) and the records (R155). Each is read off `SeqShape`, one case per kind of step. -/

namespace Sys2Proof.Machine

/-- `op_plan` for a state that agrees with `s` on the registers of SEQ: `START` runs its line operation with `RUN` already set. -/
theorem op_plan_of_agree {s s' : State} {i : Instr}
    (he : s'.scanLine = s.scanLine ∧ s'.field = s.field ∧ s'.vretrace = s.vretrace ∧ s'.srcPtr = s.srcPtr ∧
      s'.xferLen = s.xferLen ∧ s'.cfg = s.cfg ∧ s'.out = s.out)
    (hi : decodeScan s.field s.scanLine = .ok i) :
    (opState i s').vretrace = (linePlan s.field s.scanLine.toNat).2.2.flag s.vretrace ∧
    (opState i s').xferLen = (linePlan s.field s.scanLine.toNat).2.1.words s.cfg s.xferLen ∧
    ((31 ≤ s.scanLine.toNat → s.scanLine.toNat < 246 →
        s.srcPtr = s.cfg.fbw (fieldRow s.field (s.scanLine.toNat - 1)) 0) →
      (opState i s').srcPtr = (linePlan s.field s.scanLine.toNat).1.addr s.cfg s.srcPtr) := by
  obtain ⟨hscan, hfield, hflag, hsrc, hlen, hcfg, -⟩ := he
  rw [← hscan, ← hfield] at hi
  simpa only [hscan, hfield, hflag, hsrc, hlen, hcfg] using op_plan hi

/-! ### The retrace flag -/

/-- The flag that a line leaves is the closed form at the cursor after it (R130, R132). -/
theorem retraceWindow_advance (f : Field) {n : Nat} (hn : n < 262) :
    (linePlan f n).2.2.flag (retraceWindow f n) =
      retraceWindow (if n = 261 then otherField f else f) (if n = 261 then 0 else n + 1) := by
  unfold linePlan retraceWindow
  rcases line_phases hn with r | r | r | r | r | r | r | r <;> cases f <;> grind [NextRetrace.flag, otherField]

/-- Settles O15: only a line step moves the cursor or the flag, and it moves both by the table of R130. -/
theorem everyStepKeepsRetraceClosedForm : Obligations.EveryStepKeepsRetraceClosedForm := by
  intro s t hinv h
  obtain ⟨hlt, hv⟩ := hinv
  cases step_seqShape h with
  | quiet h | beat _ _ _ h | done _ _ h =>
    obtain ⟨hscan, hfield, hflag, -⟩ := h
    rw [RetraceInv, hscan, hfield, hflag]
    exact ⟨hlt, hv⟩
  | line s' i he hrun hi hb ht =>
    obtain ⟨hscan, hfield, hflag, -⟩ := ht
    rw [RetraceInv, hscan, hfield, hflag, (op_plan_of_agree he hi).1, hv, nextLine_toNat hlt, nextField_eq, retraceWindow_advance _ hlt]
    exact ⟨by split_ifs <;> omega, rfl⟩
  | rst h =>
    obtain ⟨hscan, -, hflag, -⟩ := h
    rw [RetraceInv, hscan, hflag]
    exact ⟨by decide, by simp [retraceWindow]⟩

/-! ### The alternation of transfer and completion -/

/-- A transfer in flight says that the sequencer was started (R238). -/
theorem EngineInv.run_of_busy {s : State} (h : EngineInv s) (hb : s.dmaBusy = true) : s.run = true := by
  by_contra hr
  exact absurd ((h.1 (by simpa using hr)).1.symm.trans hb) (by decide)

/-- A completion pending says that the sequencer was started (R237). -/
theorem EngineInv.run_of_pending {s : State} (h : EngineInv s) (hp : s.irqPending = true) : s.run = true := by
  by_contra hr
  exact absurd ((h.1 (by simpa using hr)).2.symm.trans hp) (by decide)

/-- A started engine in which exactly one of the two is 1. -/
theorem EngineInv.of_run {s : State} (hr : s.run = true) (hx : s.dmaBusy = !s.irqPending) : EngineInv s :=
  ⟨fun h => absurd (h.symm.trans hr) (by decide), fun _ => hx⟩

/-- Settles O16: a line step arms from a pending completion or by `START`, and `DONE` turns the transfer into its completion. -/
theorem everyStepKeepsEngineAlternation : Obligations.EveryStepKeepsEngineAlternation := by
  intro s t hinv h
  cases step_seqShape h with
  | quiet h =>
    obtain ⟨-, -, -, -, -, hrun, -, -, hbusy, hirq, -⟩ := h
    rwa [EngineInv, hrun, hbusy, hirq]
  | line s' i he hrun hi hb ht =>
    obtain ⟨-, -, -, -, -, -, -, hbusy, hirq, -, hrun', -⟩ := ht
    have hr : s'.run = true := by
      rcases hrun with ⟨-, hr⟩ | ⟨hr, hp⟩
      · exact hr
      · exact hr.trans (hinv.run_of_pending hp)
    exact .of_run (hrun'.trans hr) (by rw [hbusy, hirq]; rfl)
  | beat hb _ _ h =>
    obtain ⟨-, -, -, -, -, hrun, -, -, hbusy, hirq, -⟩ := h
    rwa [EngineInv, hrun, hbusy, hirq]
  | done hb _ h =>
    obtain ⟨-, -, -, -, -, hrun, -, -, hbusy, hirq, -⟩ := h
    exact .of_run (hrun.trans (hinv.run_of_busy hb)) (by rw [hbusy, hirq]; rfl)
  | rst h =>
    obtain ⟨-, -, -, hrun, hbusy, hirq, -⟩ := h
    exact ⟨fun _ => ⟨hbusy, hirq⟩, fun hr => absurd (hrun.symm.trans hr) (by decide)⟩

/-! ### The signal -/

/-- A record emitted into keeps its source and length; so does every other record (R152). -/
theorem appendWord_map_header (l : List Record) (w : WordVal) :
    (appendWord l w).map (fun r => (r.src, r.len)) = l.map fun r => (r.src, r.len) := by
  rcases List.eq_nil_or_concat' l with rfl | ⟨l, r, rfl⟩
  · rfl
  · simp [appendWord_concat]

/-- A signal whose records have the same headers is on the table too. -/
theorem SignalInv.of_headers {s t : State} (hinv : SignalInv s) (hcfg : t.cfg = s.cfg) (hscan : t.scanLine = s.scanLine)
    (hfield : t.field = s.field) (hsrc : t.srcPtr = s.srcPtr) (hlen : t.xferLen = s.xferLen) (hrun : t.run = s.run)
    (hout : t.out.map (fun r => (r.src, r.len)) = s.out.map fun r => (r.src, r.len)) : SignalInv t := by
  obtain ⟨hcur, hrec, hnone, hlast⟩ := hinv
  have hlength : t.out.length = s.out.length := by simpa using congrArg List.length hout
  refine ⟨?_, fun k r hr => ?_, fun hr => ?_, fun hr => ?_⟩
  · rw [hcfg, hscan, hfield, hlength, hcur]
  · have hk := congrArg (fun l => l[k]?) hout
    simp only [List.getElem?_map, hr, Option.map_some] at hk
    obtain ⟨q, hq, he⟩ := Option.map_eq_some_iff.1 hk.symm
    simp only [Prod.mk.injEq] at he
    rw [hcfg, ← he.1, ← he.2]
    exact hrec k q hq
  · rw [hnone (hrun ▸ hr)] at hlength
    exact List.eq_nil_of_length_eq_zero hlength
  · obtain ⟨q, hq, hqs, hql⟩ := hlast (hrun ▸ hr)
    have hk := congrArg List.getLast? hout
    simp only [List.getLast?_map, hq, Option.map_some] at hk
    obtain ⟨r, hr', he⟩ := Option.map_eq_some_iff.1 hk
    simp only [Prod.mk.injEq] at he
    exact ⟨r, hr', by rw [he.1, hqs, hsrc], by rw [he.2, hql, hlen]⟩

/-- Between two lines of one field the handler's registers are those of the line before (R131). -/
theorem SignalInv.previous {s : State} (h : SignalInv s) (hn : s.scanLine.toNat ≠ 0) :
    s.srcPtr = armedSrc s.cfg s.field (s.scanLine.toNat - 1) ∧
    s.xferLen = BitVec.ofNat 32 (armedLen s.cfg s.field (s.scanLine.toNat - 1)) := by
  obtain ⟨hcur, hrec, hnone, hlast⟩ := h
  have hscan : s.scanLine.toNat = s.out.length % 262 := congrArg Prod.snd hcur
  have hfield : s.field = (cursorAt s.cfg s.out.length).1 := congrArg Prod.fst hcur
  have hrun : s.run = true := by
    by_contra hr
    rw [hnone (by simpa using hr)] at hscan
    exact hn hscan
  obtain ⟨r, hr, hsrc, hlen⟩ := hlast hrun
  rw [List.getLast?_eq_getElem?] at hr
  obtain ⟨hs, hl⟩ := hrec _ _ hr
  have hprev : cursorAt s.cfg (s.out.length - 1) = (s.field, s.scanLine.toNat - 1) := by
    rw [hfield, hscan]
    unfold cursorAt
    rw [show (s.out.length - 1) / 262 = s.out.length / 262 by omega, show (s.out.length - 1) % 262 = s.out.length % 262 - 1 by omega]
  rw [hprev] at hs hl
  exact ⟨hsrc.symm.trans hs, hlen.symm.trans hl⟩

theorem SignalInv.scan_lt {s : State} (h : SignalInv s) : s.scanLine.toNat < 262 := by
  have hscan : s.scanLine.toNat = s.out.length % 262 := congrArg Prod.snd h.1
  omega

/-- On an active line the row of the line before is the one that R127 advances. -/
theorem SignalInv.previous_row {s : State} (h : SignalInv s) (hlo : 31 ≤ s.scanLine.toNat) (hhi : s.scanLine.toNat < 246) :
    s.srcPtr = s.cfg.fbw (fieldRow s.field (s.scanLine.toNat - 1)) 0 := by
  rw [(h.previous (by omega)).1]
  unfold armedSrc
  split_ifs <;> first | rfl | omega

/-- What a line step arms is R131's source and length for the cursor (R130, R131). -/
theorem SignalInv.armed {s s' : State} {i : Instr} (h : SignalInv s)
    (he : s'.scanLine = s.scanLine ∧ s'.field = s.field ∧ s'.vretrace = s.vretrace ∧ s'.srcPtr = s.srcPtr ∧
      s'.xferLen = s.xferLen ∧ s'.cfg = s.cfg ∧ s'.out = s.out)
    (hi : decodeScan s.field s.scanLine = .ok i) :
    (opState i s').srcPtr = armedSrc s.cfg s.field s.scanLine.toNat ∧
    (opState i s').xferLen = BitVec.ofNat 32 (armedLen s.cfg s.field s.scanLine.toNat) := by
  obtain ⟨-, hlen, hsrc⟩ := op_plan_of_agree he hi
  rw [hlen, hsrc h.previous_row]
  refine ⟨linePlan_addr _ _ _ h.scan_lt _ fun hf hn => ?_, linePlan_words _ _ _ h.scan_lt _ fun hf hn => ?_⟩
  · rw [(h.previous (by omega)).1, hn]
    rfl
  · rw [(h.previous (by omega)).2, hn, hf]
    rfl

/-- Settles O17: a line step opens the record of the cursor and advances it; no other step but `rst` touches a record's header. -/
theorem everyStepKeepsSignalOnTheTable : Obligations.EveryStepKeepsSignalOnTheTable := by
  intro s t hinv heng h
  cases step_seqShape h with
  | quiet h | done _ _ h =>
    obtain ⟨hscan, hfield, -, hsrc, hlen, hrun, -, -, -, -, hout, hcfg⟩ := h
    exact hinv.of_headers hcfg hscan hfield hsrc hlen hrun (by rw [hout])
  | beat _ _ _ h =>
    obtain ⟨hscan, hfield, -, hsrc, hlen, hrun, -, -, -, -, hout, hcfg⟩ := h
    exact hinv.of_headers hcfg hscan hfield hsrc hlen hrun (by rw [hout, appendWord_map_header])
  | line s' i he hrun hi hb ht =>
    obtain ⟨hscan, hfield, -, hsrc, hlen, -, -, -, -, hout, hrun', hcfg⟩ := ht
    obtain ⟨hasrc, halen⟩ := hinv.armed he hi
    obtain ⟨hcur, hrec, -, -⟩ := hinv
    refine ⟨?_, fun k r hr => ?_, fun hr => ?_, fun _ => ⟨_, by rw [hout, List.getLast?_concat], rfl, rfl⟩⟩
    · rw [hscan, hfield, hout, hcfg, List.length_append, List.length_singleton, cursorAt_succ, ← hcur, nextField_eq,
        nextLine_toNat (decodeScan_ok hi).2.2.2]
    · rw [hout, List.getElem?_append] at hr
      rw [hcfg]
      split_ifs at hr with hk
      · exact hrec k r hr
      · obtain ⟨hk0, rfl⟩ := List.getElem?_eq_some_iff.1 hr
        obtain rfl : k = s.out.length := by simp at hk0; omega
        rw [← hcur]
        simpa using ⟨hsrc.trans hasrc, hlen.trans halen⟩
    · rcases hrun with ⟨-, hr'⟩ | ⟨hr', hp⟩
      · exact absurd (hr.symm.trans (hrun'.trans hr')) (by decide)
      · exact absurd (hr.symm.trans (hrun'.trans (hr'.trans (heng.run_of_pending hp)))) (by decide)
  | rst h =>
    obtain ⟨hscan, hfield, -, hrun, -, -, hout, hcfg⟩ := h
    refine ⟨by rw [hscan, hfield, hout, hcfg]; rfl, fun k r hr => absurd hr (by simp [hout]), fun _ => hout, fun hr => ?_⟩
    exact absurd (hrun.symm.trans hr) (by decide)

/-! ### The records -/

/-- A started sequencer has a last record, the one it opened last (R155). -/
theorem SignalInv.last_record {s : State} (h : SignalInv s) (hr : s.run = true) : ∃ l r, s.out = l ++ [r] := by
  obtain ⟨r, hr, -⟩ := h.2.2.2 hr
  obtain ⟨l, hl⟩ := List.getLast?_eq_some_iff.1 hr
  exact ⟨l, r, hl⟩

/-- The invariant of the records, for a transfer in flight in the last one. -/
theorem RecordsInv.busy_iff {s : State} {l : List Record} {r : Record} (hb : s.dmaBusy = true) (ho : s.out = l ++ [r]) :
    RecordsInv s ↔ (∀ q ∈ l, q.complete) ∧ r.words.length + s.dmaRemain.toNat = r.len.toNat ∧
      s.dmaAddr = r.src + BitVec.ofNat 32 r.words.length := by
  simp [RecordsInv, hb, ho]

/-- The invariant of the records with no transfer in flight. -/
theorem RecordsInv.idle_iff {s : State} (hb : s.dmaBusy = false) : RecordsInv s ↔ ∀ q ∈ s.out, q.complete := by
  simp only [RecordsInv, hb, forall_const, Bool.false_eq_true, false_implies, and_true, and_iff_right_iff_imp]
  exact fun h q hq => h q (List.dropLast_subset _ hq)

/-- Settles O18: `BEAT` moves one word from what is left to the record in flight, `DONE` finds nothing left, and a line step opens an
empty record after complete ones. -/
theorem everyStepKeepsRecordsComplete : Obligations.EveryStepKeepsRecordsComplete := by
  intro s t hinv heng hsig h
  cases step_seqShape h with
  | quiet h =>
    obtain ⟨-, -, -, -, -, -, haddr, hremain, hbusy, -, hout, -⟩ := h
    rwa [RecordsInv, haddr, hremain, hbusy, hout]
  | line s' i he hrun hi hb ht =>
    obtain ⟨-, -, -, -, -, haddr, hremain, hbusy, -, hout, -⟩ := ht
    refine (RecordsInv.busy_iff hbusy hout).2 ⟨(RecordsInv.idle_iff hb).1 hinv, ?_, ?_⟩
    · simp [hremain]
    · simp [haddr]
  | beat hb hne _ h =>
    obtain ⟨-, -, -, -, -, -, haddr, hremain, hbusy, -, hout, -⟩ := h
    obtain ⟨l, r, ho⟩ := hsig.last_record (heng.run_of_busy hb)
    obtain ⟨hl, hlen, hr⟩ := (RecordsInv.busy_iff hb ho).1 hinv
    rw [ho, appendWord_concat] at hout
    refine (RecordsInv.busy_iff (hbusy.trans hb) hout).2 ⟨hl, ?_, ?_⟩
    · rw [hremain, List.length_append, List.length_singleton]
      have hpos : 0 < s.dmaRemain.toNat := Nat.pos_of_ne_zero fun h0 => hne (BitVec.eq_of_toNat_eq h0)
      show _ = r.len.toNat
      bv_omega
    · rw [haddr, hr, List.length_append, List.length_singleton, BitVec.ofNat_add, ← BitVec.add_assoc]
      rfl
  | done hb hzero h =>
    obtain ⟨-, -, -, -, -, -, -, -, hbusy, -, hout, -⟩ := h
    obtain ⟨l, r, ho⟩ := hsig.last_record (heng.run_of_busy hb)
    obtain ⟨hl, hlen, -⟩ := (RecordsInv.busy_iff hb ho).1 hinv
    have hr : r.words.length = r.len.toNat := by simpa [hzero] using hlen
    rw [RecordsInv.idle_iff hbusy, hout, ho]
    simpa [or_imp, forall_and] using And.intro hl (show r.complete from hr)
  | rst h =>
    obtain ⟨-, -, -, -, hbusy, -, hout, -⟩ := h
    rw [RecordsInv.idle_iff hbusy, hout]
    simp

end Sys2Proof.Machine

/-! SUPPORT. Every step of the four gated drawing commands, named by its phase (R181 to R184, R201, R204, R206), and the first and the last
step of each command. -/

namespace Sys2Proof.Machine

/-! ### The phases of a pixel write -/

/-- Past its entry, a pixel write is in range (R181). -/
theorem inBounds_of_microOk {c : Config} {i : Instr} {u : UState} {ph : PixPhase} {x y : Int} (hm : microOk c i u = true)
    (hp : u.phase = some ph) (hne : ph ≠ .entry) (hxy : pixelPoint i u = some (x, y)) : inBounds c x y = true := by
  cases u with
  | first | blitFetch | clear | fbZero | fbPrefix | fbReady => simp [UState.phase] at hp
  | pixel p | line _ p | box _ _ p | blitBit _ _ _ p =>
    obtain rfl : p = ph := Option.some.inj hp
    cases i <;> simp_all [microOk, pixelPoint]

/-- The entry step of a point that has a pixel to write: in range it goes to the poll, out of range it is passed (R181, R203). -/
theorem exec_entry_wanted {i : Instr} {s : State} {x y : Int} (hm : microOk s.cfg i s.ustate = true)
    (hp : s.ustate.phase = some .entry) (hw : s.ustate.wanted = true) (hxy : pixelPoint i s.ustate = some (x, y)) :
    exec i s = .next (if inBounds s.cfg x y = true then s.setMicro (s.ustate.withPhase .poll)
      else s.moveOn (nextPlace i s.ustate)) := by
  obtain ⟨x', y', hxy', he⟩ := exec_eq_gpixStep hm hp hw
  obtain ⟨rfl, rfl⟩ : x' = x ∧ y' = y := by simpa using hxy'.symm.trans hxy
  rw [he, gpixStep]
  split_ifs <;> rfl

/-- The entry step of an unset bit passes it (R206, R208(a)). -/
theorem exec_entry_unwanted {i : Instr} {s : State} (hm : microOk s.cfg i s.ustate = true) (hw : s.ustate.wanted = false) :
    exec i s = .next (s.moveOn (nextPlace i s.ustate)) := by
  cases hu : s.ustate with
  | blitBit row col byte p =>
    have hb : blitPixel byte col = false := by simpa [hu, UState.wanted] using hw
    cases i with
    | bitblit x0 y0 cols rows bmp =>
      simp only [exec, execBitblit, hu, blitBitStep, hb, Bool.false_eq_true, if_false]
      exact blitAdvance_eq x0 y0 cols rows bmp row col byte p s
    | _ => simp [hu, microOk] at hm
  | _ => simp [hu, UState.wanted] at hw

/-- The entry step of any point (R181, R203, R208(a)). -/
theorem exec_entry {i : Instr} {s : State} {x y : Int} (hm : microOk s.cfg i s.ustate = true) (hp : s.ustate.phase = some .entry)
    (hxy : pixelPoint i s.ustate = some (x, y)) :
    exec i s = .next (if s.ustate.wanted = true ∧ inBounds s.cfg x y = true then s.setMicro (s.ustate.withPhase .poll)
      else s.moveOn (nextPlace i s.ustate)) := by
  cases hw : s.ustate.wanted with
  | true => simpa using exec_entry_wanted hm hp hw hxy
  | false => simpa using exec_entry_unwanted hm hw

/-- The write step (R183). -/
theorem exec_write {i : Instr} {s : State} {x y : Int} (hm : microOk s.cfg i s.ustate = true) (hp : s.ustate.phase = some .write)
    (hxy : pixelPoint i s.ustate = some (x, y)) (hmap : s.cfg.mapped (pixelAddr s.cfg x.toNat y.toNat) = true) :
    exec i s = .next (State.moveOn { s with wm := plot s.cfg s.pixact s.wm (x, y) } (nextPlace i s.ustate)) := by
  have hin := inBounds_of_microOk hm hp (by decide) hxy
  obtain ⟨x', y', hxy', he⟩ := exec_eq_gpixStep hm hp (wanted_of_microOk hm hp (by decide))
  obtain ⟨rfl, rfl⟩ : x' = x ∧ y' = y := by simpa using hxy'.symm.trans hxy
  rw [he, gpixStep_write hin hmap]

/-- Settles O33: past its entry the point is in range, so the store is `plot`. -/
theorem writeStepPlotsOnePixel : Obligations.WriteStepPlotsOnePixel :=
  fun _ _ _ _ _ hm hp hxy hmap => exec_write hm hp hxy hmap

/-! ### First steps -/

theorem ifReady_of_ready {s : State} (h : s.fbReady = true) (k : State → Result) : ifReady s k = k s := by simp [ifReady, h]

theorem ifReady_of_not_ready {s : State} (h : s.fbReady = false) (k : State → Result) : ifReady s k = .next (s.respond 0) := by
  simp [ifReady, h]

/-- R171: before `FBINIT` the first step of a drawing command responds 0. -/
theorem exec_first_not_ready {i : Instr} {s : State} (hd : isDrawing i = true) (hu : s.ustate = .first) (hr : s.fbReady = false) :
    exec i s = .next (s.respond 0) := by
  cases i with
  | setpixel | line | box | bitblit | clear | circle | fill | text =>
    simp only [exec, execSetpixel, execLine, execBox, execBitblit, execClear, execCircle, execFill, execText, hu]
    exact ifReady_of_not_ready hr _
  | _ => simp [isDrawing] at hd

/-- The empty primitives respond 0, ready or not (R171, R210 to R212). -/
theorem exec_empty {i : Instr} (h : i = .circle ∨ i = .fill ∨ i = .text) (s : State) : exec i s = .next (s.respond 0) := by
  rcases h with rfl | rfl | rfl <;> exact ite_self _

section
variable {s : State} (hu : s.ustate = .first) (hr : s.fbReady = true)
include hu hr

/-- `SETPIXEL`'s first step is the entry step of its point (R184). -/
theorem exec_setpixel_first (x y : BitVec 16) :
    exec (.setpixel x y) s = exec (.setpixel x y) (s.setMicro (.pixel .entry)) := by
  simp only [exec, execSetpixel, hu, State.setMicro_ustate, ifReady_of_ready hr]
  rfl

/-- `LINE`'s first step is the entry step of its first point (R201). -/
theorem exec_line_first (x0 y0 x1 y1 : BitVec 16) :
    exec (.line x0 y0 x1 y1) s = exec (.line x0 y0 x1 y1) (s.setMicro (.line (lineSeg x0 y0 x1 y1).begin .entry)) := by
  simp only [exec, execLine, hu, State.setMicro_ustate, ifReady_of_ready hr]
  simp only [lineWalkStep, walkStep_eq, lineNext_eq x0 y0 x1 y1 _ .entry, gpixStep, State.moveOn_setMicro]
  rfl

/-- `BOX`'s first step is the entry step of its first edge's first point (R204). -/
theorem exec_box_first (x0 y0 x1 y1 : BitVec 16) :
    exec (.box x0 y0 x1 y1) s =
      exec (.box x0 y0 x1 y1) (s.setMicro (.box 0 (boxEdge (lineSeg x0 y0 x1 y1) 0).begin .entry)) := by
  simp only [exec, execBox, hu, State.setMicro_ustate, ifReady_of_ready hr]
  simp only [boxWalkStep, walkStep_eq, boxNext_eq x0 y0 x1 y1 _ _ .entry, gpixStep, State.moveOn_setMicro]
  rfl

omit hu hr in
theorem zext16_eq_zero (v : BitVec 16) : zext16 v = 0 ↔ v = 0 := by simp [zext16, BitVec.toNat_eq]

/-- `BITBLIT`'s first step: a descriptor with no columns or no rows responds, any other goes to its first byte (R206). -/
theorem exec_bitblit_first (x0 y0 cols rows : BitVec 16) (bmp : Addr) :
    exec (.bitblit x0 y0 cols rows bmp) s =
      .next (if cols = 0 ∨ rows = 0 then s.respond 0 else s.setMicro (.blitFetch 0 0)) := by
  simp only [exec, execBitblit, hu, ifReady_of_ready hr, zext16_eq_zero]
  split_ifs <;> rfl

end

/-- `BITBLIT`'s read of a byte (R207); an unmapped byte leaves CMD stuck (R64). -/
theorem exec_bitblit_fetch {s : State} {row j : Nat} (hu : s.ustate = .blitFetch row j) (x0 y0 cols rows : BitVec 16) (bmp : Addr) :
    exec (.bitblit x0 y0 cols rows bmp) s =
      if s.cfg.bmMapped (blitAddr bmp cols.toNat row j) = true then
        .next (s.setMicro (.blitBit row (8 * j) (s.readByte (blitAddr bmp cols.toNat row j)) .entry))
      else .fault .cmdUnmappedByte := by
  simp only [exec, execBitblit, hu]
  rfl

/-- A `SETPIXEL` out of range responds in its first step (R181, R231). -/
theorem exec_setpixel_outside {s : State} {x y : BitVec 16} (hu : s.ustate = .first) (hb : inBounds s.cfg x.toInt y.toInt = false) :
    exec (.setpixel x y) s = .next (s.respond 0) := by
  cases hr : s.fbReady with
  | false => exact exec_first_not_ready rfl hu hr
  | true =>
    rw [exec_setpixel_first hu hr, exec_entry_wanted (s := s.setMicro (.pixel .entry)) (x := x.toInt) (y := y.toInt) rfl rfl rfl rfl,
      State.setMicro_cfg, hb]
    rfl

/-- An empty `BITBLIT` responds in its first step (R206, R231). -/
theorem exec_bitblit_empty {s : State} {x0 y0 cols rows : BitVec 16} {bmp : Addr} (hu : s.ustate = .first) (h : cols = 0 ∨ rows = 0) :
    exec (.bitblit x0 y0 cols rows bmp) s = .next (s.respond 0) := by
  cases hr : s.fbReady with
  | false => exact exec_first_not_ready rfl hu hr
  | true => rw [exec_bitblit_first hu hr, if_pos h]

/-- Settles O31, clause by clause: the first steps that only respond, the entry step, the way to it, and the byte read. -/
theorem silentNoOpsOnlyRespond : Obligations.SilentNoOpsOnlyRespond := by
  refine ⟨fun i s hu h => ⟨.first, ?_⟩, fun i s x y _ hm hp hxy => exec_entry hm hp hxy, fun s hu hr => ⟨?_, ?_, ?_, ?_⟩,
    fun s x0 y0 cols rows bmp row j hu => ?_⟩
  · rcases h with ⟨hd, hr⟩ | ⟨x, y, rfl, hb⟩ | ⟨x0, y0, cols, rows, bmp, rfl, he⟩
    · exact exec_first_not_ready hd hu hr
    · exact exec_setpixel_outside hu hb
    · exact exec_bitblit_empty hu he
  · exact exec_setpixel_first hu hr
  · exact exec_line_first hu hr
  · exact exec_box_first hu hr
  · intro x0 y0 cols rows bmp hc hr'
    rw [exec_bitblit_first hu hr, if_neg (not_or.2 ⟨hc, hr'⟩)]
  · exact exec_bitblit_fetch hu x0 y0 cols rows bmp

/-! ### Last steps -/

/-- The write step of a command's last point responds 0 (R184, R201, R204, R206). -/
theorem exec_write_last {i : Instr} {s : State} {x y : Int} (hm : microOk s.cfg i s.ustate = true) (hp : s.ustate.phase = some .write)
    (hxy : pixelPoint i s.ustate = some (x, y)) (hmap : s.cfg.mapped (pixelAddr s.cfg x.toNat y.toNat) = true)
    (hlast : nextPlace i s.ustate = none) :
    ∃ u, exec i s = .next { s with wm := plot s.cfg s.pixact s.wm (x, y), rsp := s.rsp ++ [0], cmdBusy := false, ustate := u } :=
  ⟨.first, by rw [exec_write hm hp hxy hmap, hlast]; rfl⟩

/-- A step of `CLEAR` at a word: the store, and then the next word or the response (R185). -/
theorem exec_clear_word {s : State} {colour : Bool} {r j : Nat} (hu : s.ustate = .clear r j) :
    exec (.clear colour) s = storeStep s (s.cfg.fbw r j) (colourPattern s.cfg colour) fun t =>
      .next (t.moveOn ((nextWord s.cfg.avo (s.cfg.avo + s.cfg.xw) s.cfg.yRes r j).map fun p => .clear p.1 p.2)) := by
  simp only [exec, execClear, hu, clearStep]
  cases nextWord s.cfg.avo (s.cfg.avo + s.cfg.xw) s.cfg.yRes r j <;> rfl

theorem colourPattern_eq (c : Config) (colour : Bool) : colourPattern c colour = if colour = true then 2 ^ c.wordW - 1 else 0 := by
  simp [colourPattern]

/-- Settles O34: the last point of each drawing command has no next place, and the last word of `CLEAR` no next word. -/
theorem multiStepCommandsFinish : Obligations.MultiStepCommandsFinish := by
  intro s
  refine ⟨fun x y hu hb hmap => ?_, fun x0 y0 x1 y1 w hu hx hy hb hmap => ?_, fun x0 y0 x1 y1 w hu hx hy hb hmap => ?_,
    fun x0 y0 cols rows bmp row col byte hu hrow hcol hbit hb hmap => ?_, fun colour hu hy hxw hmap => ?_, fun hu => ⟨.first, ?_⟩⟩
  · exact exec_write_last (by simp [hu, microOk, sext16, hb]) (by rw [hu]; rfl) (by rw [hu]; rfl) hmap (by rw [hu]; rfl)
  · exact exec_write_last (by simp [hu, microOk, hb]) (by rw [hu]; rfl) (by rw [hu]; rfl) hmap
      (by simp [hu, nextPlace, Seg.after, Seg.isEnd, lineSeg, sext16, hx, hy])
  · exact exec_write_last (by simp [hu, microOk, hb]) (by rw [hu]; rfl) (by rw [hu]; rfl) hmap
      (by simp [hu, nextPlace, Seg.after, Seg.isEnd, boxEdge, lineSeg, sext16, hx, hy])
  · refine exec_write_last ?_ (by rw [hu]; rfl) (by rw [hu]; rfl) hmap ?_
    · simp only [hu, microOk, zext16, sext16, hbit, hb, Bool.and_true, Bool.or_true, Bool.and_eq_true]
      exact ⟨decide_eq_true (by omega), decide_eq_true (by omega)⟩
    · rw [hu]
      simp only [nextPlace]
      rw [if_neg (by omega), if_neg (by omega)]
  · refine ⟨.first, ?_⟩
    have hlast : nextWord s.cfg.avo (s.cfg.avo + s.cfg.xw) s.cfg.yRes (s.cfg.yRes - 1) (s.cfg.avo + s.cfg.xw - 1) = none := by
      rw [nextWord, if_neg (by omega), if_neg (by omega)]
    rw [exec_clear_word hu, storeStep_mapped hmap, hlast, colourPattern_eq]
    rfl
  · simp only [exec, execFbinit, hu]
    rfl

end Sys2Proof.Machine

/-! SUPPORT. Where a command in progress can be and where its step leads: the invariant of `CMD_USTATE` (R33, R170, R171), the hang before
`START` (R271), and that no command fails (R230). -/

namespace Sys2Proof.Machine

/-! ### `microOk`, micro-state by micro-state -/

section
variable (c : Config)

theorem microOk_fetch_iff {x0 y0 cols rows : BitVec 16} {bmp : Addr} {row j : Nat} :
    microOk c (.bitblit x0 y0 cols rows bmp) (.blitFetch row j) = true ↔ row < rows.toNat ∧ 8 * j < cols.toNat := by
  simp only [microOk, Bool.and_eq_true, decide_eq_true_eq]
  rfl

theorem microOk_bit_iff {x0 y0 cols rows : BitVec 16} {bmp : Addr} {row col : Nat} {byte : BitVec 8} {ph : PixPhase} :
    microOk c (.bitblit x0 y0 cols rows bmp) (.blitBit row col byte ph) = true ↔
      (row < rows.toNat ∧ col < cols.toNat) ∧
        (ph = .entry ∨ blitPixel byte col = true ∧ inBounds c (x0.toInt + col) (y0.toInt + row) = true) := by
  simp only [microOk, Bool.and_eq_true, Bool.or_eq_true, decide_eq_true_eq]
  rfl

theorem microOk_clear_iff {colour : Bool} {r j : Nat} :
    microOk c (.clear colour) (.clear r j) = true ↔ r < c.yRes ∧ c.avo ≤ j ∧ j < c.avo + c.xw := by
  simp [microOk, and_assoc]

theorem microOk_fbZero_iff {r j : Nat} : microOk c .fbinit (.fbZero r j) = true ↔ r < c.yRes ∧ j < c.lineWords := by simp [microOk]

theorem microOk_fbPrefix_iff {r j : Nat} : microOk c .fbinit (.fbPrefix r j) = true ↔ r < c.yRes ∧ j < c.avo := by simp [microOk]

end

/-! ### The places of a command -/

/-- The places of a command: before its first step, at a point, or at a byte or a word with its indices in range. -/
inductive Place (c : Config) : Instr → UState → Prop where
  | first (i : Instr) : Place c i .first
  | point {i : Instr} {u : UState} (ph : PixPhase) (hp : u.phase = some ph) : Place c i u
  | fetch {x0 y0 cols rows : BitVec 16} {bmp : Addr} {row j : Nat} (hr : row < rows.toNat) (hj : 8 * j < cols.toNat) :
      Place c (.bitblit x0 y0 cols rows bmp) (.blitFetch row j)
  | clear {colour : Bool} {r j : Nat} (hr : r < c.yRes) (hlo : c.avo ≤ j) (hhi : j < c.avo + c.xw) :
      Place c (.clear colour) (.clear r j)
  | fbZero {r j : Nat} (hr : r < c.yRes) (hj : j < c.lineWords) : Place c .fbinit (.fbZero r j)
  | fbPrefix {r j : Nat} (hr : r < c.yRes) (hj : j < c.avo) : Place c .fbinit (.fbPrefix r j)
  | fbReady : Place c .fbinit .fbReady

theorem Place.of_microOk {c : Config} {i : Instr} {u : UState} (h : microOk c i u = true) : Place c i u := by
  cases u with
  | first => exact .first i
  | pixel ph | line _ ph | box _ _ ph | blitBit _ _ _ ph => exact .point ph rfl
  | blitFetch row j =>
    cases i with
    | bitblit =>
      obtain ⟨hr, hj⟩ := (microOk_fetch_iff c).1 h
      exact .fetch hr hj
    | _ => exact absurd h (by simp [microOk])
  | clear r j =>
    cases i with
    | clear =>
      obtain ⟨hr, hlo, hhi⟩ := (microOk_clear_iff c).1 h
      exact .clear hr hlo hhi
    | _ => exact absurd h (by simp [microOk])
  | fbZero r j =>
    cases i with
    | fbinit =>
      obtain ⟨hr, hj⟩ := (microOk_fbZero_iff c).1 h
      exact .fbZero hr hj
    | _ => exact absurd h (by simp [microOk])
  | fbPrefix r j =>
    cases i with
    | fbinit =>
      obtain ⟨hr, hj⟩ := (microOk_fbPrefix_iff c).1 h
      exact .fbPrefix hr hj
    | _ => exact absurd h (by simp [microOk])
  | fbReady =>
    cases i with
    | fbinit => exact .fbReady
    | _ => exact absurd h (by simp [microOk])

/-- A command that has a point at its place is one of the four gated ones. -/
theorem pixelPoint_of_microOk {c : Config} {i : Instr} {u : UState} {ph : PixPhase} (hm : microOk c i u = true)
    (hp : u.phase = some ph) : ∃ x y, pixelPoint i u = some (x, y) := by
  cases u with
  | first | blitFetch | clear | fbZero | fbPrefix | fbReady => simp [UState.phase] at hp
  | pixel | line | box | blitBit => cases i <;> first | exact ⟨_, _, rfl⟩ | exact absurd hm (by simp [microOk])

/-! ### The steps of `FBINIT` -/

/-- A step of the zero-fill (R186). -/
theorem exec_fbZero {s : State} {r j : Nat} (hu : s.ustate = .fbZero r j) :
    exec .fbinit s = storeStep s (s.cfg.fbw r j) 0 fun t =>
      .next (t.setMicro ((nextWord 0 s.cfg.lineWords s.cfg.yRes r j).elim (afterZeroFill s.cfg) fun p => .fbZero p.1 p.2)) := by
  simp only [exec, execFbinit, hu, fbZeroStep]
  cases nextWord 0 s.cfg.lineWords s.cfg.yRes r j <;> rfl

/-- A step of the seeding, with its word of the blank table mapped (R187). -/
theorem exec_fbPrefix {s : State} {r j : Nat} (hu : s.ustate = .fbPrefix r j) (hmap : s.cfg.mapped (blankWordAddr s.cfg j) = true) :
    exec .fbinit s = storeStep s (s.cfg.fbw r j) (s.readWord (blankWordAddr s.cfg j)) fun t =>
      .next (t.setMicro ((nextWord 0 s.cfg.avo s.cfg.yRes r j).elim .fbReady fun p => .fbPrefix p.1 p.2)) := by
  simp only [exec, execFbinit, hu, fbPrefixStep, hmap, if_true]
  cases nextWord 0 s.cfg.avo s.cfg.yRes r j <;> rfl

/-- The seeding is stuck at an unmapped word of the blank table (T7). -/
theorem exec_fbPrefix_next {s t : State} {r j : Nat} (hu : s.ustate = .fbPrefix r j) (h : exec .fbinit s = .next t) :
    s.cfg.mapped (blankWordAddr s.cfg j) = true := by
  by_contra hmap
  simp [exec, execFbinit, hu, fbPrefixStep, hmap] at h

theorem exec_fbReady {s : State} (hu : s.ustate = .fbReady) : exec .fbinit s = .next (s.markReady.respond 0) := by
  simp only [exec, execFbinit, hu]

theorem exec_fbinit_first {s : State} (hu : s.ustate = .first) :
    exec .fbinit s = .next (if s.fbReady = true then s.respond 0 else s.setMicro (.fbZero 0 0)) := by
  simp only [exec, execFbinit, hu]
  split_ifs <;> rfl

theorem exec_clear_first {s : State} (hu : s.ustate = .first) (hr : s.fbReady = true) (colour : Bool) :
    exec (.clear colour) s = .next (s.setMicro (.clear 0 s.cfg.avo)) := by
  simp only [exec, execClear, hu, ifReady_of_ready hr]

/-! ### Every step keeps the command consistent -/

/-- The next place of a command is one of its own, with every index in range. -/
theorem nextPlace_microOk {c : Config} {i : Instr} {u u' : UState} (hm : microOk c i u = true) (h : nextPlace i u = some u') :
    microOk c i u' = true := by
  unfold nextPlace at h
  split at h
  · obtain ⟨w', -, rfl⟩ := Option.map_eq_some_iff.1 h
    simp [microOk]
  · split at h
    · obtain rfl := Option.some.inj h
      simp [microOk]
    · split_ifs at h
      obtain rfl := Option.some.inj h
      simp [microOk]
  · obtain ⟨⟨hrow, hcol⟩, -⟩ := (microOk_bit_iff c).1 hm
    split_ifs at h with hc h8 hr <;> obtain rfl := Option.some.inj h
    · exact (microOk_fetch_iff c).2 ⟨hrow, by omega⟩
    · exact (microOk_bit_iff c).2 ⟨⟨hrow, hc⟩, .inl rfl⟩
    · exact (microOk_fetch_iff c).2 ⟨hr, by omega⟩
  · exact absurd h (by simp)

/-- A point in range whose bit is set may be in any phase. -/
theorem withPhase_microOk {c : Config} {i : Instr} {u : UState} {x y : Int} (ph : PixPhase) (hm : microOk c i u = true)
    (hxy : pixelPoint i u = some (x, y)) (hw : u.wanted = true) (hb : inBounds c x y = true) :
    microOk c i (u.withPhase ph) = true := by
  cases u with
  | first | blitFetch | clear | fbZero | fbPrefix | fbReady => exact hm
  | pixel | line | box | blitBit => cases i <;> simp_all [microOk, pixelPoint, UState.withPhase, UState.wanted]

/-- What a step of a command leaves in progress: nothing, or a place of the command. -/
def Continues (c : Config) (i : Instr) (t : State) : Prop := t.cmdBusy = false ∨ microOk c i t.ustate = true

theorem Continues.moveOn {c : Config} {i : Instr} (s : State) {o : Option UState} (h : ∀ u, o = some u → microOk c i u = true) :
    Continues c i (s.moveOn o) := by
  cases o with
  | none => exact .inl rfl
  | some u => exact .inr (h u rfl)

/-- The write step of `GPIX` (R183). -/
theorem gpixStep_write_next {x y : Int} {f : PixPhase → UState} {s t : State} {k : State → Result}
    (h : gpixStep x y .write f s k = .next t) :
    s.cfg.mapped (pixelAddr s.cfg x.toNat y.toNat) = true ∧
      k (s.storeWord (pixelAddr s.cfg x.toNat y.toNat)
        (pixelResult s.cfg s.pixact x.toNat (s.readWord (pixelAddr s.cfg x.toNat y.toNat)))) = .next t :=
  storeStep_next.1 h

/-- A step at a point goes to another phase of it or to the next place. -/
theorem exec_point_continues {i : Instr} {s t : State} {ph : PixPhase} (hm : microOk s.cfg i s.ustate = true)
    (hp : s.ustate.phase = some ph) (h : exec i s = .next t) : Continues s.cfg i t := by
  obtain ⟨x, y, hxy⟩ := pixelPoint_of_microOk hm hp
  have hnext : ∀ u, nextPlace i s.ustate = some u → microOk s.cfg i u = true := fun u => nextPlace_microOk hm
  cases ph with
  | entry =>
    rw [exec_entry hm hp hxy] at h
    obtain rfl := (Host.Outcome.next.inj h).symm
    split_ifs with hb
    · exact .inr (withPhase_microOk .poll hm hxy hb.1 hb.2)
    · exact .moveOn s hnext
  | poll =>
    have hw := wanted_of_microOk hm hp (by decide)
    have hb := inBounds_of_microOk hm hp (by decide) hxy
    obtain ⟨x', y', -, he⟩ := exec_eq_gpixStep hm hp hw
    rw [he, gpixStep_poll] at h
    obtain rfl := (Host.Outcome.next.inj h).symm
    split_ifs
    · exact .inr (withPhase_microOk .write hm hxy hw hb)
    · exact .inr hm
  | write =>
    obtain ⟨x', y', -, he⟩ := exec_eq_gpixStep hm hp (wanted_of_microOk hm hp (by decide))
    rw [he] at h
    obtain ⟨-, h⟩ := gpixStep_write_next h
    obtain rfl := (Host.Outcome.next.inj h).symm
    exact .moveOn _ hnext

/-- `START` is one step: it responds (R189). -/
theorem exec_start_responds {s t : State} (h : exec .start s = .next t) : t.cmdBusy = false := by
  simp only [exec, execStart] at h
  split_ifs at h
  · obtain rfl := (Host.Outcome.next.inj h).symm
    rfl
  · obtain ⟨u, -, h⟩ := andThen_next.1 h
    obtain rfl := (Host.Outcome.next.inj h).symm
    rfl

/-- The first step of a ready drawing command responds or goes to a place of the command. -/
theorem exec_drawing_first_continues {i : Instr} {s t : State} (g : s.cfg.Good) (hd : isDrawing i = true) (hu : s.ustate = .first)
    (hr : s.fbReady = true) (h : exec i s = .next t) : Continues s.cfg i t := by
  cases i with
  | setpixel x y =>
    rw [exec_setpixel_first hu hr] at h
    exact exec_point_continues (s := s.setMicro (.pixel .entry)) rfl rfl h
  | line x0 y0 x1 y1 =>
    rw [exec_line_first hu hr] at h
    exact exec_point_continues (s := s.setMicro (.line _ .entry)) rfl rfl h
  | box x0 y0 x1 y1 =>
    rw [exec_box_first hu hr] at h
    exact exec_point_continues (s := s.setMicro (.box _ _ .entry)) rfl rfl h
  | bitblit x0 y0 cols rows bmp =>
    rw [exec_bitblit_first hu hr] at h
    obtain rfl := (Host.Outcome.next.inj h).symm
    split_ifs with hz
    · exact .inl rfl
    · simp only [← zext16_eq_zero, zext16] at hz
      exact .inr ((microOk_fetch_iff _).2 (by omega))
  | clear colour =>
    rw [exec_clear_first hu hr] at h
    obtain rfl := (Host.Outcome.next.inj h).symm
    have hy := g.yRes
    have hx := g.xw_pos
    exact .inr ((microOk_clear_iff _).2 (by omega))
  | circle | fill | text =>
    rw [exec_empty (by decide)] at h
    obtain rfl := (Host.Outcome.next.inj h).symm
    exact .inl rfl
  | _ => simp [isDrawing] at hd

/-- The first step of a command responds or goes to a place of the command. -/
theorem exec_first_continues {i : Instr} {s t : State} (g : s.cfg.Good) (hi : i.isLine = false) (hu : s.ustate = .first)
    (h : exec i s = .next t) : Continues s.cfg i t := by
  cases i with
  | eqpre | vsync | eqpost | blankpre | actfirst | active | blankpost | closeout => exact absurd hi (by simp [Instr.isLine])
  | width | height | retrace | setact | evenptr | oddptr =>
    obtain rfl := (Host.Outcome.next.inj h).symm
    exact .inl rfl
  | start => exact .inl (exec_start_responds h)
  | fbinit =>
    rw [exec_fbinit_first hu] at h
    obtain rfl := (Host.Outcome.next.inj h).symm
    split_ifs
    · exact .inl rfl
    · have hy := g.yRes
      have hl := g.lineWords_pos
      exact .inr ((microOk_fbZero_iff _).2 (by omega))
  | setpixel | line | box | bitblit | clear | circle | fill | text =>
    cases hr : s.fbReady with
    | false =>
      rw [exec_first_not_ready rfl hu hr] at h
      obtain rfl := (Host.Outcome.next.inj h).symm
      exact .inl rfl
    | true => exact exec_drawing_first_continues g rfl hu hr h

/-- After the zero-fill `FBINIT` seeds the row starts, if there are any (R187). -/
theorem afterZeroFill_microOk {c : Config} (g : c.Good) : microOk c .fbinit (afterZeroFill c) = true := by
  unfold afterZeroFill
  split_ifs with h
  · exact (microOk_fbPrefix_iff c).2 ⟨by have := g.yRes; omega, h⟩
  · rfl

/-- A step of a command in its own place responds or goes to a place of the command. -/
theorem exec_continues {i : Instr} {s t : State} (g : s.cfg.Good) (hi : i.isLine = false) (hm : microOk s.cfg i s.ustate = true)
    (h : exec i s = .next t) : Continues s.cfg i t := by
  have hplace := Place.of_microOk hm
  generalize hu : s.ustate = u at hplace
  cases hplace with
  | first => exact exec_first_continues g hi hu h
  | point ph hp => exact exec_point_continues hm (hu ▸ hp) h
  | fetch hr hj =>
    rw [exec_bitblit_fetch hu] at h
    split_ifs at h
    obtain rfl := (Host.Outcome.next.inj h).symm
    exact .inr ((microOk_bit_iff _).2 ⟨⟨hr, hj⟩, .inl rfl⟩)
  | clear hr hlo hhi =>
    rw [exec_clear_word hu] at h
    obtain ⟨-, h⟩ := storeStep_next.1 h
    obtain rfl := (Host.Outcome.next.inj h).symm
    refine .moveOn _ fun u hu => ?_
    obtain ⟨⟨r', j'⟩, hn, rfl⟩ := Option.map_eq_some_iff.1 hu
    exact (microOk_clear_iff _).2 (nextWord_some (by omega) hlo hr hn)
  | fbZero hr hj =>
    rw [exec_fbZero hu] at h
    obtain ⟨-, h⟩ := storeStep_next.1 h
    obtain rfl := (Host.Outcome.next.inj h).symm
    right
    cases hn : nextWord 0 s.cfg.lineWords s.cfg.yRes _ _ with
    | none => exact afterZeroFill_microOk g
    | some p =>
      obtain ⟨hr', -, hj'⟩ := nextWord_some (by omega) (Nat.zero_le _) hr hn
      exact (microOk_fbZero_iff _).2 ⟨hr', hj'⟩
  | fbPrefix hr hj =>
    rw [exec_fbPrefix hu (exec_fbPrefix_next hu h)] at h
    obtain ⟨-, h⟩ := storeStep_next.1 h
    obtain rfl := (Host.Outcome.next.inj h).symm
    right
    cases hn : nextWord 0 s.cfg.avo s.cfg.yRes _ _ with
    | none => rfl
    | some p =>
      obtain ⟨hr', -, hj'⟩ := nextWord_some (by omega) (Nat.zero_le _) hr hn
      exact (microOk_fbPrefix_iff _).2 ⟨hr', hj'⟩
  | fbReady =>
    rw [exec_fbReady hu] at h
    obtain rfl := (Host.Outcome.next.inj h).symm
    exact .inl rfl

/-- A first step that does not respond is one of a ready drawing command, or of a first `FBINIT` (R171, R188). -/
theorem exec_first_busy {i : Instr} {s t : State} (hi : i.isLine = false) (hu : s.ustate = .first) (h : exec i s = .next t)
    (hb : t.cmdBusy = true) : s.fbReady = !decide (i = .fbinit) := by
  by_contra hr
  have hfree : t.cmdBusy = false := by
    cases i with
    | eqpre | vsync | eqpost | blankpre | actfirst | active | blankpost | closeout => exact absurd hi (by simp [Instr.isLine])
    | width | height | retrace | setact | evenptr | oddptr =>
      obtain rfl := (Host.Outcome.next.inj h).symm
      rfl
    | start => exact exec_start_responds h
    | fbinit =>
      rw [exec_fbinit_first hu, if_pos (by simpa using hr)] at h
      obtain rfl := (Host.Outcome.next.inj h).symm
      rfl
    | setpixel | line | box | bitblit | clear | circle | fill | text =>
      rw [exec_first_not_ready rfl hu (by simpa using hr)] at h
      obtain rfl := (Host.Outcome.next.inj h).symm
      rfl
  exact absurd (hfree.symm.trans hb) (by decide)

/-- While a command is in progress `FB_READY` is as it needs it (R171, R188). -/
theorem exec_keeps_ready {i : Instr} {s t : State} (hi : i.isLine = false)
    (hr : s.ustate ≠ .first → s.fbReady = !decide (i = .fbinit)) (h : exec i s = .next t) (hb : t.cmdBusy = true) :
    t.fbReady = !decide (i = .fbinit) := by
  have hs : s.fbReady = !decide (i = .fbinit) := by
    by_cases hu : s.ustate = .first
    · exact exec_first_busy hi hu h hb
    · exact hr hu
  cases exec_shape hi h with
  | wait | micro | store => exact hs
  | answer | action | ready | storeAnswer | start => exact absurd hb (by simp)

/-- A state with the same command port has the same invariant. -/
theorem CommandInv.congr {s t : State} (h : CommandInv s) (hcfg : t.cfg = s.cfg) (hbusy : t.cmdBusy = s.cmdBusy)
    (hframe : t.cmdFrame = s.cmdFrame) (hu : t.ustate = s.ustate) (hr : t.fbReady = s.fbReady) : CommandInv t := by
  rwa [CommandInv, hcfg, hbusy, hframe, hu, hr]

theorem cmdTurn_keeps_command {s t : State} (g : s.cfg.Good) (hinv : CommandInv s) (h : cmdTurn s = .next t) : CommandInv t := by
  obtain ⟨hb, i, hd, he⟩ := cmdTurn_next.1 h
  obtain ⟨i', hd', hi, hm, hr⟩ := hinv hb
  obtain rfl : i = i' := Except.ok.inj (hd.symm.trans hd')
  intro hbt
  have hframe : t.cmdFrame = s.cmdFrame := by
    cases exec_shape hi he with
    | start => exact absurd hbt (by simp)
    | _ => rfl
  refine ⟨i, hframe ▸ hd, hi, ?_, fun _ => exec_keeps_ready hi hr he hbt⟩
  rcases exec_continues g hi hm he with hfree | hm'
  · exact absurd (hfree.symm.trans hbt) (by decide)
  · rwa [takeTurn_cfg (tn := .cmd) h]

/-- Settles O55, turn by turn: a presentation starts at the first micro-state, CMD's step goes to a place of its command, and the other
agents leave the command port. -/
theorem everyStepKeepsCommandConsistent : Obligations.EveryStepKeepsCommandConsistent := by
  intro s t hinv h
  obtain ⟨hw, ⟨-, rfl⟩ | ⟨tn, ts, -, h⟩⟩ := step_next h
  · exact hinv
  cases tn with
  | host f =>
    obtain ⟨-, ⟨i, hd⟩, rfl⟩ := hostTurn_next.1 h
    exact fun _ => ⟨i, hd, (decodeFrame_ok hd).1, rfl, fun hne => absurd rfl hne⟩
  | cmd => exact cmdTurn_keeps_command (s := s.setTurns ts) ((Config.wf_iff_good _).1 hw) hinv h
  | xfer =>
    obtain ⟨-, ⟨-, rfl⟩ | ⟨-, -, rfl⟩⟩ := xferTurn_next.1 h
    · exact hinv.congr rfl rfl rfl rfl rfl
    · exact hinv.congr rfl rfl rfl rfl rfl
  | seq =>
    obtain ⟨-, i, -, -, rfl⟩ := seqTurn_next.1 h
    obtain ⟨-, -, -, -, -, -, -, -, -, -, -, hcfg, -, -, -, hr, hbusy, hframe, hu, -⟩ := lineStep_fields i (s.setTurns ts)
    exact hinv.congr hcfg hbusy hframe hu hr
  | rst d =>
    obtain rfl := (Host.Outcome.next.inj h).symm
    exact fun hb => absurd hb (by simp [State.resetWith])

/-! ### The hang before `START` -/

/-- What the hang before `START` is (R271). -/
theorem hungBeforeStart_iff {s : State} :
    hungBeforeStart s = true ↔ s.cmdBusy = true ∧ s.ustate.phase = some .poll ∧ s.vretrace = false ∧ s.irqPending = false ∧
      s.run = false ∧ s.dmaBusy = false := by
  simp only [hungBeforeStart, hung, xferEnabled, seqEnabled, Bool.and_eq_true, Bool.not_eq_true', decide_eq_true_eq]
  constructor
  · rintro ⟨⟨⟨⟨⟨⟨hb, hp⟩, hv⟩, -⟩, hi⟩, hr⟩, hd⟩
    exact ⟨hb, hp, hv, hi, hr, hd⟩
  · rintro ⟨hb, hp, hv, hi, hr, hd⟩
    simp [hb, hp, hv, hi, hr, hd]

/-- Settles O53: HOST, XFER and SEQ are disabled, and CMD's poll reads the flag as 0 and stays. -/
theorem drawingBeforeStartHangsForGood : Obligations.DrawingBeforeStartHangsForGood := by
  intro s t hhung hinv hrst h
  obtain ⟨hb, hp, hv, hirq, -, hbusy⟩ := hungBeforeStart_iff.1 hhung
  have hstay : t = s.setTurns t.turns := by
    obtain ⟨-, ⟨-, rfl⟩ | ⟨tn, ts, htn, h⟩⟩ := step_next h
    · rfl
    cases tn with
    | host f => exact absurd ((hostTurn_next.1 h).1.symm.trans hb) (by decide)
    | cmd =>
      obtain ⟨-, i, hd, he⟩ := cmdTurn_next.1 h
      obtain ⟨i', hd', hi, hm, -⟩ := hinv hb
      obtain rfl : i = i' := Except.ok.inj (hd.symm.trans hd')
      rw [gateHoldsUntilRetrace i (s.setTurns ts) hi hm hp, if_neg (by simp [hv])] at he
      obtain rfl := (Host.Outcome.next.inj he).symm
      rfl
    | xfer => exact absurd ((xferTurn_next.1 h).1.symm.trans hbusy) (by decide)
    | seq => exact absurd ((seqTurn_next.1 h).1.symm.trans hirq) (by decide)
    | rst d => exact absurd htn (hrst d ts)
  refine ⟨hstay, ?_⟩
  rw [hstay]
  exact hhung

/-! ### No command fails -/

/-- A step at a point always answers, with the framebuffer mapped. -/
theorem exec_point_total {i : Instr} {s : State} {ph : PixPhase} (g : s.cfg.Good) (hpl : s.cfg.platformComplete = true)
    (hm : microOk s.cfg i s.ustate = true) (hp : s.ustate.phase = some ph) : ∃ t, exec i s = .next t := by
  cases hw : s.ustate.wanted with
  | false => exact ⟨_, exec_entry_unwanted hm hw⟩
  | true =>
    obtain ⟨x, y, hxy, he⟩ := exec_eq_gpixStep hm hp hw
    rw [he]
    exact gpixStep_total g hpl (fun hne => inBounds_of_microOk hm hp hne hxy) fun u => ⟨_, rfl⟩

/-- `START` answers with the engine idle or already started, on a cursor below 262 (R189). -/
theorem exec_start_total {s : State} (hinv : EngineInv s) (hn : s.scanLine.toNat < 262) : ∃ t, exec .start s = .next t := by
  cases hr : s.run with
  | true => exact ⟨s.respond 0, by simp [exec, execStart, hr]⟩
  | false =>
    obtain ⟨i, hi⟩ := decodeScan_total (f := s.field) hn
    have hline := (startStep_next (s := s.markRun)).2 ⟨i, hi, (hinv.1 hr).1, rfl⟩
    exact ⟨_, by simp only [exec, execStart, hr, Bool.false_eq_true, if_false, hline]; rfl⟩

/-- The first step of a ready drawing command always answers. -/
theorem exec_drawing_first_total {i : Instr} {s : State} (g : s.cfg.Good) (hpl : s.cfg.platformComplete = true)
    (hd : isDrawing i = true) (hu : s.ustate = .first) (hr : s.fbReady = true) : ∃ t, exec i s = .next t := by
  cases i with
  | setpixel x y =>
    rw [exec_setpixel_first hu hr]
    exact exec_point_total (s := s.setMicro (.pixel .entry)) g hpl rfl rfl
  | line x0 y0 x1 y1 =>
    rw [exec_line_first hu hr]
    exact exec_point_total (s := s.setMicro (.line _ .entry)) g hpl rfl rfl
  | box x0 y0 x1 y1 =>
    rw [exec_box_first hu hr]
    exact exec_point_total (s := s.setMicro (.box _ _ .entry)) g hpl rfl rfl
  | bitblit x0 y0 cols rows bmp => exact ⟨_, exec_bitblit_first hu hr x0 y0 cols rows bmp⟩
  | clear colour => exact ⟨_, exec_clear_first hu hr colour⟩
  | circle | fill | text => exact ⟨_, exec_empty (by decide) s⟩
  | _ => simp [isDrawing] at hd

/-- The first step of a command always answers. -/
theorem exec_first_total {i : Instr} {s : State} (g : s.cfg.Good) (hpl : s.cfg.platformComplete = true) (hi : i.isLine = false)
    (hu : s.ustate = .first) (hinv : EngineInv s) (hn : s.scanLine.toNat < 262) : ∃ t, exec i s = .next t := by
  cases i with
  | eqpre | vsync | eqpost | blankpre | actfirst | active | blankpost | closeout => exact absurd hi (by simp [Instr.isLine])
  | width | height | retrace | setact | evenptr | oddptr => exact ⟨_, rfl⟩
  | start => exact exec_start_total hinv hn
  | fbinit => exact ⟨_, exec_fbinit_first hu⟩
  | setpixel | line | box | bitblit | clear | circle | fill | text =>
    cases hr : s.fbReady with
    | false => exact ⟨_, exec_first_not_ready rfl hu hr⟩
    | true => exact exec_drawing_first_total g hpl rfl hu hr

/-- On a complete platform the blank table is mapped (R62). -/
theorem blankWord_mapped {c : Config} (g : c.Good) (hpl : c.platformComplete = true) {j : Nat} (hj : j < c.lineWords) :
    c.mapped (blankWordAddr c j) = true :=
  Config.table_mapped hpl Config.Good.blankRegion_mem (g.blank_in_table hj)

/-- A step of a command in its own place always answers, with every region and byte mapped. -/
theorem exec_total {i : Instr} {s : State} (g : s.cfg.Good) (hpl : s.cfg.platformComplete = true)
    (hbm : ∀ b, s.cfg.bmMapped b = true) (hi : i.isLine = false) (hm : microOk s.cfg i s.ustate = true) (hinv : EngineInv s)
    (hn : s.scanLine.toNat < 262) : ∃ t, exec i s = .next t := by
  have hplace := Place.of_microOk hm
  have hrow := g.row
  generalize hu : s.ustate = u at hplace
  cases hplace with
  | first => exact exec_first_total g hpl hi hu hinv hn
  | point ph hp => exact exec_point_total g hpl hm (hu ▸ hp)
  | fetch => exact ⟨_, by rw [exec_bitblit_fetch hu, if_pos (hbm _)]⟩
  | clear hr hlo hhi => exact ⟨_, by rw [exec_clear_word hu, storeStep_mapped (Config.fbw_mapped g hpl hr (by omega))]⟩
  | fbZero hr hj => exact ⟨_, by rw [exec_fbZero hu, storeStep_mapped (Config.fbw_mapped g hpl hr hj)]⟩
  | @fbPrefix r j hr hj =>
    have hblank := blankWord_mapped g hpl (j := j) (by omega)
    exact ⟨_, by rw [exec_fbPrefix hu hblank, storeStep_mapped (Config.fbw_mapped g hpl hr (by omega))]⟩
  | fbReady => exact ⟨_, exec_fbReady hu⟩

/-- Settles O56: CMD's turn is a step of the command in its own place. -/
theorem commandsNeverFail : Obligations.CommandsNeverFail := by
  intro s ts hw hpl hbm ht hb hcmd heng hn
  obtain ⟨i, hd, hi, hm, -⟩ := hcmd hb
  obtain ⟨t, h⟩ := exec_total (s := s.setTurns ts) ((Config.wf_iff_good _).1 hw) hpl hbm hi hm heng hn
  exact ⟨t, (step_turn hw ht).trans (takeTurn_cmd (s := s.setTurns ts) hb hd h)⟩

end Sys2Proof.Machine

/-! SUPPORT. The word memory along a step: what is stored, and by whom (R61, R71, R76, R241). -/

namespace Sys2Proof.Machine

/-! ### What a step stores -/

/-- A value a command stores has the width of a word, or is a copy of one (R183, R185 to R187). -/
def Storable (s : State) (v : WordVal) : Prop := v < 2 ^ s.cfg.wordW ∨ ∃ b, v = s.readWord b

/-- A step of a command stores at most one word, the one `storeTarget` names. -/
theorem exec_wm {i : Instr} {s t : State} (hi : i.isLine = false) (h : exec i s = .next t) :
    t.wm = s.wm ∨ ∃ a v, storeTarget s.cfg i s.ustate = some a ∧ Storable s v ∧ t.wm = (s.storeWord a v).wm := by
  cases exec_shape hi h with
  | store a v _ ha hv | storeAnswer a v ha hv => exact .inr ⟨a, v, ha, hv, rfl⟩
  | start u _ _ hl =>
    obtain ⟨j, -, -, rfl⟩ := startStep_next.1 hl
    obtain ⟨-, -, -, -, -, -, -, -, -, -, -, -, hwm, -⟩ := lineStep_fields j s.markRun
    exact .inl hwm
  | _ => exact .inl rfl

/-- What a step does to the word memory. -/
inductive WmShape (s t : State) : Prop where
  | same (h : t.wm = s.wm)
  | store (i : Instr) (a : Addr) (v : WordVal) (hb : s.cmdBusy = true) (hd : decodeFrame s.cmdFrame = .ok i)
      (ha : storeTarget s.cfg i s.ustate = some a) (hv : Storable s v) (h : t.wm = (s.storeWord a v).wm)
  | redraw (fb : WordMem) (h : t.wm = redrawFramebuffer s.cfg s.wm fb)

/-- XFER and SEQ leave both memories and the command unit's registers. -/
theorem engineTurn_frame {tn : Turn} {s t : State} (htn : tn = .xfer ∨ tn = .seq) (h : takeTurn tn s = .next t) :
    t.wm = s.wm ∧ t.bm = s.bm ∧ t.pixact = s.pixact ∧ t.fbReady = s.fbReady ∧ t.cmdBusy = s.cmdBusy ∧ t.cmdFrame = s.cmdFrame ∧
      t.ustate = s.ustate ∧ t.run = s.run := by
  rcases htn with rfl | rfl
  · obtain ⟨-, ⟨-, rfl⟩ | ⟨-, -, rfl⟩⟩ := xferTurn_next.1 h <;> exact ⟨rfl, rfl, rfl, rfl, rfl, rfl, rfl, rfl⟩
  · obtain ⟨-, i, -, -, rfl⟩ := seqTurn_next.1 h
    obtain ⟨-, -, -, -, -, -, -, -, -, -, hrun, -, hwm, hbm, hact, hready, hbusy, hframe, hu, -⟩ := lineStep_fields i s
    exact ⟨hwm, hbm, hact, hready, hbusy, hframe, hu, hrun⟩

theorem step_wmShape {s t : State} (h : step s = .next t) : WmShape s t := by
  obtain ⟨-, ⟨-, rfl⟩ | ⟨tn, ts, -, h⟩⟩ := step_next h
  · exact .same rfl
  cases tn with
  | host f =>
    obtain ⟨-, -, rfl⟩ := hostTurn_next.1 h
    exact .same rfl
  | cmd =>
    obtain ⟨hb, i, hd, he⟩ := cmdTurn_next.1 h
    rcases exec_wm (decodeFrame_ok hd).1 he with hwm | ⟨a, v, ha, hv, hwm⟩
    · exact .same hwm
    · exact .store i a v hb hd ha hv hwm
  | xfer => exact .same (engineTurn_frame (.inl rfl) h).1
  | seq => exact .same (engineTurn_frame (.inr rfl) h).1
  | rst d =>
    obtain rfl := (Host.Outcome.next.inj h).symm
    exact .redraw d.fb rfl

/-- A command's step leaves BM, the configuration, its frame and the schedule. -/
theorem exec_frame {i : Instr} {s t : State} (hi : i.isLine = false) (h : exec i s = .next t) :
    t.cfg = s.cfg ∧ t.bm = s.bm ∧ t.cmdFrame = s.cmdFrame ∧ t.turns = s.turns := by
  cases exec_shape hi h with
  | start u _ _ hl =>
    obtain ⟨j, -, -, rfl⟩ := startStep_next.1 hl
    obtain ⟨-, -, -, -, -, -, -, -, -, -, -, hcfg, -, hbm, -, -, -, hframe, -, -, hts⟩ := lineStep_fields j s.markRun
    exact ⟨hcfg, hbm, hframe, hts⟩
  | _ => exact ⟨rfl, rfl, rfl, rfl⟩

/-- Nothing writes BM (R61). -/
theorem step_bm {s t : State} (h : step s = .next t) : t.bm = s.bm := by
  obtain ⟨-, ⟨-, rfl⟩ | ⟨tn, ts, -, h⟩⟩ := step_next h
  · rfl
  cases tn with
  | host f =>
    obtain ⟨-, -, rfl⟩ := hostTurn_next.1 h
    rfl
  | cmd =>
    obtain ⟨-, i, hd, he⟩ := cmdTurn_next.1 h
    exact (exec_frame (decodeFrame_ok hd).1 he).2.1
  | xfer => exact (engineTurn_frame (.inl rfl) h).2.1
  | seq => exact (engineTurn_frame (.inr rfl) h).2.1
  | rst d =>
    obtain rfl := (Host.Outcome.next.inj h).symm
    rfl

/-! ### Canonical form -/

theorem MemoryInv.storable_lt {s : State} {v : WordVal} (h : MemoryInv s) (hv : Storable s v) : v < 2 ^ s.cfg.wordW := by
  rcases hv with hv | ⟨b, rfl⟩
  · exact hv
  · exact Memory.wf_read_lt h _

/-- Settles O58: a step stores one word of `WORD_W` bits, or `rst` redraws the framebuffer with such words. -/
theorem everyStepKeepsMemoryCanonical : Obligations.EveryStepKeepsMemoryCanonical := by
  intro s t hinv h
  rw [MemoryInv, step_cfg h, step_bm h]
  cases step_wmShape h with
  | same h => rwa [h]
  | store i a v _ _ _ hv h =>
    rw [h]
    exact Memory.write_wf a.isLt (hinv.storable_lt hv) hinv
  | redraw fb h' =>
    rw [h']
    exact redrawFramebuffer_wf _ ((Config.wf_iff_good _).1 (step_next h).1) fb _ _ hinv

/-! ### The tables -/

/-- Settles O50: CMD stores framebuffer words only, and so does `rst`. -/
theorem tablesNeverChange : Obligations.TablesNeverChange := by
  intro s t r a hmem hcmd h hr ha
  have g := (Config.wf_iff_good _).1 (step_next h).1
  have hrise := Memory.wf_rising hmem
  cases step_wmShape h with
  | same h => rw [h]
  | store i b v hb hd hb' _ h =>
    obtain ⟨i', hd', -, hm, -⟩ := hcmd hb
    obtain rfl : i = i' := Except.ok.inj (hd.symm.trans hd')
    obtain ⟨row, j, hrow, hj, rfl⟩ := storeTarget_fbw g hm hb'
    rw [h]
    refine Memory.read_write_other _ _ _ _ hrise ?_
    rintro rfl
    exact g.fbw_ne_table hrow hj hr ha rfl
  | redraw fb h => rw [h, redrawFramebuffer_outside _ _ _ (g.table_not_fb hr ha) _ hrise]

/-! ### Who writes what -/

/-- Settles O57, shape by shape. -/
theorem commandStepFrame : Obligations.CommandStepFrame := by
  intro i s t hi h
  obtain ⟨hcfg, hbm, hframe, hts⟩ := exec_frame hi h
  refine ⟨hcfg, hbm, hframe, hts, fun hne => ?_, fun hact => ?_, fun hne => ?_, fun hnone => ?_, fun hmem a ha b hb => ?_⟩
  · cases exec_shape hi h with
    | start _ hs => exact absurd hs hne
    | _ => exact ⟨rfl, rfl, rfl, rfl, rfl, rfl, rfl, rfl, rfl, rfl, rfl⟩
  · cases exec_shape hi h with
    | action a ha => exact absurd ha (hact a)
    | start u _ _ hl =>
      obtain ⟨j, -, -, rfl⟩ := startStep_next.1 hl
      obtain ⟨-, -, -, -, -, -, -, -, -, -, -, -, -, -, hact', -⟩ := lineStep_fields j s.markRun
      exact hact'
    | _ => rfl
  · cases exec_shape hi h with
    | ready hs => exact absurd hs hne
    | start u _ _ hl =>
      obtain ⟨j, -, -, rfl⟩ := startStep_next.1 hl
      obtain ⟨-, -, -, -, -, -, -, -, -, -, -, -, -, -, -, hready, -⟩ := lineStep_fields j s.markRun
      exact hready
    | _ => rfl
  · rcases exec_wm hi h with hwm | ⟨a, v, ha, -⟩
    · exact hwm
    · exact absurd (hnone.symm.trans ha) (by simp)
  · rcases exec_wm hi h with hwm | ⟨a', v, ha', -, hwm⟩
    · rw [State.readWord, hwm, State.readWord]
    · obtain rfl : a' = a := Option.some.inj (ha'.symm.trans ha)
      rw [State.readWord, hwm]
      exact State.readWord_storeWord_other s a' b v (Memory.wf_rising hmem) hb

/-- Settles O48: a step that stores is CMD's, and nothing writes BM or the configuration. -/
theorem onlyCmdWritesWordMemory : Obligations.OnlyCmdWritesWordMemory := by
  intro s t tn ts ht h
  refine ⟨step_bm h, step_cfg h, fun hcmd hrst => ?_⟩
  rw [step_turn (step_next h).1 ht] at h
  cases tn with
  | host f =>
    obtain ⟨-, -, rfl⟩ := hostTurn_next.1 h
    rfl
  | cmd => exact absurd rfl hcmd
  | xfer => exact (engineTurn_frame (.inl rfl) h).1
  | seq => exact (engineTurn_frame (.inr rfl) h).1
  | rst d => exact absurd rfl (hrst d)

/-- Settles O47: HOST and XFER write no register of SEQ, and a command that is no `START` neither (`CommandStepFrame`). -/
theorem onlySeqWritesItsRegisters : Obligations.OnlySeqWritesItsRegisters := by
  intro s t tn ts ht h hrst hseq hstart
  rw [step_turn (step_next h).1 ht] at h
  cases tn with
  | host f =>
    obtain ⟨-, -, rfl⟩ := hostTurn_next.1 h
    exact ⟨rfl, rfl, rfl, rfl, rfl, rfl⟩
  | cmd =>
    obtain ⟨-, i, hd, he⟩ := cmdTurn_next.1 h
    obtain ⟨-, -, -, -, hregs, -⟩ := commandStepFrame i _ t (decodeFrame_ok hd).1 he
    obtain ⟨hscan, hfield, hflag, hsrc, hlen, hrun, -⟩ := hregs (by rintro rfl; exact hstart rfl hd)
    exact ⟨hscan, hfield, hflag, hsrc, hlen, hrun⟩
  | xfer =>
    obtain ⟨-, ⟨-, rfl⟩ | ⟨-, -, rfl⟩⟩ := xferTurn_next.1 h <;> exact ⟨rfl, rfl, rfl, rfl, rfl, rfl⟩
  | seq => exact absurd rfl hseq
  | rst d => exact absurd rfl (hrst d)

/-- The mode bits after a command's step: `SETACT`, `FBINIT` and `START` write one each (R26, R28, R29). -/
theorem exec_modeBits {i : Instr} {s t : State} (hi : i.isLine = false) (h : exec i s = .next t) :
    (t.pixact ≠ s.pixact → i = .setact t.pixact) ∧ (t.fbReady ≠ s.fbReady → t.fbReady = true ∧ i = .fbinit) ∧
      (t.run ≠ s.run → t.run = true ∧ i = .start) := by
  cases exec_shape hi h with
  | action a ha => exact ⟨fun _ => ha, fun hne => absurd rfl hne, fun hne => absurd rfl hne⟩
  | ready hi' => exact ⟨fun hne => absurd rfl hne, fun _ => ⟨rfl, hi'⟩, fun hne => absurd rfl hne⟩
  | start u hi' _ hl =>
    obtain ⟨j, -, -, rfl⟩ := startStep_next.1 hl
    obtain ⟨-, -, -, -, -, -, -, -, -, -, hrun, -, -, -, hact, hready, -⟩ := lineStep_fields j s.markRun
    exact ⟨fun hne => absurd hact hne, fun hne => absurd hready hne, fun _ => ⟨hrun, hi'⟩⟩
  | _ => exact ⟨fun hne => absurd rfl hne, fun hne => absurd rfl hne, fun hne => absurd rfl hne⟩

/-- Settles O49: HOST, XFER and SEQ write none of the three, and a command's step writes its own. -/
theorem modeBitsHaveOneWriter : Obligations.ModeBitsHaveOneWriter := by
  intro s t tn ts ht h hrst
  rw [step_turn (step_next h).1 ht] at h
  have hsame : t.pixact = s.pixact ∧ t.fbReady = s.fbReady ∧ t.run = s.run ∨ tn = .cmd := by
    cases tn with
    | host f =>
      obtain ⟨-, -, rfl⟩ := hostTurn_next.1 h
      exact .inl ⟨rfl, rfl, rfl⟩
    | cmd => exact .inr rfl
    | xfer =>
      obtain ⟨-, -, hact, hready, -, -, -, hrun⟩ := engineTurn_frame (.inl rfl) h
      exact .inl ⟨hact, hready, hrun⟩
    | seq =>
      obtain ⟨-, -, hact, hready, -, -, -, hrun⟩ := engineTurn_frame (.inr rfl) h
      exact .inl ⟨hact, hready, hrun⟩
    | rst d => exact absurd rfl (hrst d)
  rcases hsame with ⟨hact, hready, hrun⟩ | rfl
  · exact ⟨fun hne => absurd hact hne, fun hne => absurd hready hne, fun hne => absurd hrun hne⟩
  · obtain ⟨-, i, hd, he⟩ := cmdTurn_next.1 h
    obtain ⟨hact, hready, hrun⟩ := exec_modeBits (decodeFrame_ok hd).1 he
    exact ⟨fun hne => ⟨rfl, hact hne ▸ hd⟩, fun hne => ⟨(hready hne).1, rfl, (hready hne).2 ▸ hd⟩,
      fun hne => ⟨(hrun hne).1, rfl, (hrun hne).2 ▸ hd⟩⟩

end Sys2Proof.Machine

/-! SUPPORT. The start of every row, its `AVO` words ahead of the pixels (R187, R188, R266): drawing stays behind it, `FBINIT` seeds it word by
word. And the state after reset (R42). -/

namespace Sys2Proof.Machine

/-! ### Seeded row starts -/

/-- The words of the row starts before word `j` of row `r`, rows ascending, are seeded. -/
def SeededBefore (s : State) (r j : Nat) : Prop :=
  ∀ r' i, r' < s.cfg.yRes → i < s.cfg.avo → (r' < r ∨ (r' = r ∧ i < j)) → prefixSeeded s r' i

/-- Every row start is seeded. -/
def Seeded (s : State) : Prop := ∀ r i, r < s.cfg.yRes → i < s.cfg.avo → prefixSeeded s r i

theorem prefixInv_iff (s : State) :
    PrefixInv s ↔ (s.fbReady = true → Seeded s) ∧ (s.cmdBusy = true → s.fbReady = false → s.ustate = .fbReady → Seeded s) ∧
      (∀ r j, s.cmdBusy = true → s.fbReady = false → s.ustate = .fbPrefix r j → SeededBefore s r j) := Iff.rfl

/-- Seeding looks at the configuration and the word memory only. -/
theorem prefixSeeded_congr {s t : State} (hcfg : t.cfg = s.cfg) (hwm : t.wm = s.wm) (r i : Nat) : prefixSeeded t r i ↔ prefixSeeded s r i := by
  rw [prefixSeeded, prefixSeeded, State.readWord, State.readWord, State.readWord, State.readWord, hcfg, hwm]

theorem Seeded.congr {s t : State} (h : Seeded s) (hcfg : t.cfg = s.cfg) (hwm : t.wm = s.wm) : Seeded t := by
  intro r i hr hi
  rw [hcfg] at hr hi
  exact (prefixSeeded_congr hcfg hwm r i).2 (h r i hr hi)

theorem SeededBefore.congr {s t : State} {r j : Nat} (h : SeededBefore s r j) (hcfg : t.cfg = s.cfg) (hwm : t.wm = s.wm) :
    SeededBefore t r j := by
  intro r' i hr hi hb
  rw [hcfg] at hr hi
  exact (prefixSeeded_congr hcfg hwm r' i).2 (h r' i hr hi hb)

theorem PrefixInv.congr {s t : State} (h : PrefixInv s) (hcfg : t.cfg = s.cfg) (hwm : t.wm = s.wm) (hbusy : t.cmdBusy = s.cmdBusy)
    (hready : t.fbReady = s.fbReady) (hu : t.ustate = s.ustate) : PrefixInv t := by
  obtain ⟨h1, h2, h3⟩ := (prefixInv_iff s).1 h
  rw [prefixInv_iff, hready, hbusy, hu]
  exact ⟨fun a => (h1 a).congr hcfg hwm, fun a b c => (h2 a b c).congr hcfg hwm, fun r j a b c => (h3 r j a b c).congr hcfg hwm⟩

section
variable {s : State} (g : s.cfg.Good) (hmem : MemoryInv s)
include g hmem

/-- A store to another word of the framebuffer leaves a seeded word seeded. -/
theorem prefixSeeded_storeWord {r j r' i : Nat} {v : WordVal} (hr : r < s.cfg.yRes) (hj : j < s.cfg.lineWords) (hr' : r' < s.cfg.yRes)
    (hi : i < s.cfg.avo) (hne : ¬(r' = r ∧ i = j)) (h : prefixSeeded s r' i) : prefixSeeded (s.storeWord (s.cfg.fbw r j) v) r' i := by
  have hrow := g.row
  have hrise := Memory.wf_rising hmem
  rw [prefixSeeded, State.storeWord_cfg, State.readWord_storeWord_other s _ _ v hrise (g.blank_ne_fbw hr hj (by omega)),
    State.readWord_storeWord_other s _ _ v hrise fun e => hne (g.fbw_inj hr' (by omega) hr hj e)]
  exact h

/-- `FBINIT` seeds the word it stores to (R187). -/
theorem prefixSeeded_seed {r j : Nat} (hr : r < s.cfg.yRes) (hj : j < s.cfg.avo) :
    prefixSeeded (s.storeWord (s.cfg.fbw r j) (s.readWord (blankWordAddr s.cfg j))) r j := by
  have hrow := g.row
  have hrise := Memory.wf_rising hmem
  rw [prefixSeeded, State.storeWord_cfg, State.readWord_storeWord_same s _ _ hrise,
    State.readWord_storeWord_other s _ _ _ hrise (g.blank_ne_fbw hr (by omega) (by omega))]

/-- With the word `FBINIT` seeds, everything before any later place is seeded. -/
theorem seededBefore_seed {r j r2 j2 : Nat} (hr : r < s.cfg.yRes) (hj : j < s.cfg.avo) (h : SeededBefore s r j)
    (hnext : ∀ r' i, i < s.cfg.avo → (r' < r2 ∨ (r' = r2 ∧ i < j2)) → r' < r ∨ (r' = r ∧ i ≤ j)) :
    SeededBefore (s.storeWord (s.cfg.fbw r j) (s.readWord (blankWordAddr s.cfg j))) r2 j2 := by
  have hrow := g.row
  intro r' i hr' hi hb
  rw [State.storeWord_cfg] at hr' hi
  by_cases he : r' = r ∧ i = j
  · obtain ⟨rfl, rfl⟩ := he
    exact prefixSeeded_seed g hmem hr hj
  · refine prefixSeeded_storeWord g hmem hr (by omega) hr' hi he (h r' i hr' hi ?_)
    have := hnext r' i hi hb
    omega

end

/-- The word after (R185, R186): in the same row, or the first of the next row. -/
theorem nextWord_some_cases {lo hi rows r i r' i' : Nat} (h : nextWord lo hi rows r i = some (r', i')) :
    (i + 1 < hi ∧ r' = r ∧ i' = i + 1) ∨ (¬i + 1 < hi ∧ r + 1 < rows ∧ r' = r + 1 ∧ i' = lo) := by
  unfold nextWord at h
  split_ifs at h with hw hr <;> simp only [Option.some.injEq, Prod.mk.injEq] at h <;> omega

/-- There is no word after the last of the last row. -/
theorem nextWord_none {lo hi rows r i : Nat} (h : nextWord lo hi rows r i = none) : ¬i + 1 < hi ∧ ¬r + 1 < rows := by
  unfold nextWord at h
  split_ifs at h with hw hr
  exact ⟨hw, hr⟩

/-- A drawing command stores behind the row start (R37, R185). -/
theorem storeTarget_active {c : Config} (g : c.Good) {i : Instr} {u : UState} {a : Addr} (hi : i ≠ .fbinit)
    (hm : microOk c i u = true) (h : storeTarget c i u = some a) :
    ∃ r j, r < c.yRes ∧ c.avo ≤ j ∧ j < c.lineWords ∧ a = c.fbw r j := by
  have hpixel : ∀ x y : Int, inBounds c x y = true →
      ∃ r j, r < c.yRes ∧ c.avo ≤ j ∧ j < c.lineWords ∧ pixelAddr c x.toNat y.toNat = c.fbw r j := fun x y hb =>
    ⟨_, _, (inBounds_toNat hb).2, (g.wordIndex_range (inBounds_toNat hb).1).1, g.wordIndex_lt (inBounds_toNat hb).1, rfl⟩
  unfold storeTarget at h
  split at h
  · obtain rfl := Option.some.inj h
    exact hpixel _ _ hm
  · obtain rfl := Option.some.inj h
    exact hpixel _ _ hm
  · obtain rfl := Option.some.inj h
    exact hpixel _ _ hm
  · split_ifs at h
    obtain rfl := Option.some.inj h
    exact hpixel _ _ (((microOk_bit_iff c).1 hm).2.resolve_left (by decide)).2
  · obtain rfl := Option.some.inj h
    obtain ⟨hr, hlo, hhi⟩ := (microOk_clear_iff c).1 hm
    exact ⟨_, _, hr, hlo, by have := g.row; omega, rfl⟩
  · exact absurd rfl hi
  · exact absurd rfl hi
  · exact absurd h (by simp)

/-- A step of a command that is no `FBINIT` keeps the row starts. -/
theorem exec_keeps_seeded {i : Instr} {s t : State} (g : s.cfg.Good) (hmem : MemoryInv s) (hne : i ≠ .fbinit) (hi : i.isLine = false)
    (hm : microOk s.cfg i s.ustate = true) (h : exec i s = .next t) (hs : Seeded s) : Seeded t := by
  have hcfg := (exec_frame hi h).1
  rcases exec_wm hi h with hwm | ⟨a, v, ha, -, hwm⟩
  · exact hs.congr hcfg hwm
  · obtain ⟨r, j, hr, hlo, hj, rfl⟩ := storeTarget_active g hne hm ha
    have hs' : Seeded (s.storeWord (s.cfg.fbw r j) v) := fun r' i hr' hi' =>
      prefixSeeded_storeWord g hmem hr hj hr' hi' (fun he => absurd (he.2 ▸ hi' : j < s.cfg.avo) (by omega)) (hs r' i hr' hi')
    exact hs'.congr hcfg hwm

/-- The invariant while `FB_READY` is 1. -/
theorem PrefixInv.of_ready {s : State} (hr : s.fbReady = true) (h : Seeded s) : PrefixInv s :=
  (prefixInv_iff s).2 ⟨fun _ => h, fun _ hr' => absurd (hr.symm.trans hr') (by decide),
    fun _ _ _ hr' => absurd (hr.symm.trans hr') (by decide)⟩

/-- The invariant before `FBINIT` has come to the row starts. -/
theorem PrefixInv.of_not_ready {s : State} (hr : s.fbReady = false)
    (hu : s.cmdBusy = true → s.ustate ≠ .fbReady ∧ ∀ r j, s.ustate ≠ .fbPrefix r j) : PrefixInv s :=
  (prefixInv_iff s).2 ⟨fun hr' => absurd (hr.symm.trans hr') (by decide), fun hb _ he => absurd he (hu hb).1,
    fun r j hb _ he => absurd he ((hu hb).2 r j)⟩

/-- The invariant while `FBINIT` copies. -/
theorem PrefixInv.of_copying {s : State} {r j : Nat} (hr : s.fbReady = false) (hu : s.ustate = .fbPrefix r j) (h : SeededBefore s r j) :
    PrefixInv s := by
  refine (prefixInv_iff s).2 ⟨fun hr' => absurd (hr.symm.trans hr') (by decide), fun _ _ he => absurd (hu.symm.trans he) (by simp),
    fun r' j' _ _ he => ?_⟩
  obtain ⟨rfl, rfl⟩ : r = r' ∧ j = j' := by simpa using hu.symm.trans he
  exact h

/-- The invariant when `FBINIT` has copied. -/
theorem PrefixInv.of_copied {s : State} (hu : s.ustate = .fbReady) (h : Seeded s) : PrefixInv s :=
  (prefixInv_iff s).2 ⟨fun _ => h, fun _ _ _ => h, fun _ _ _ _ he => absurd (hu.symm.trans he) (by simp)⟩

/-- A step of `FBINIT` keeps the invariant: the copy seeds the word of its place before it goes on. -/
theorem fbinit_keeps_prefix {s t : State} (g : s.cfg.Good) (hmem : MemoryInv s) (hm : microOk s.cfg .fbinit s.ustate = true)
    (hb : s.cmdBusy = true) (hr : s.fbReady = false) (hinv : PrefixInv s) (h : exec .fbinit s = .next t) : PrefixInv t := by
  obtain ⟨-, hdone, hcopy⟩ := (prefixInv_iff s).1 hinv
  have hplace := Place.of_microOk hm
  generalize hu : s.ustate = u at hplace hdone hcopy
  cases hplace with
  | first =>
    rw [exec_fbinit_first hu, if_neg (by simp [hr])] at h
    obtain rfl := (Host.Outcome.next.inj h).symm
    exact .of_not_ready hr fun _ => by simp
  | point ph hp =>
    obtain ⟨x, y, hxy⟩ := pixelPoint_of_microOk hm (hu ▸ hp)
    simp [pixelPoint] at hxy
  | @fbZero r j hrow hj =>
    rw [exec_fbZero hu] at h
    obtain ⟨-, h⟩ := storeStep_next.1 h
    obtain rfl := (Host.Outcome.next.inj h).symm
    cases hn : nextWord 0 s.cfg.lineWords s.cfg.yRes r j with
    | some p => exact .of_not_ready hr fun _ => by simp
    | none =>
      by_cases ha : 0 < s.cfg.avo
      · exact .of_copying (r := 0) (j := 0) hr (by simp [afterZeroFill, ha]) fun r' i _ _ hb' => absurd hb' (by omega)
      · exact .of_copied (by simp [afterZeroFill, ha]) fun r' i _ hi => absurd hi (by simp; omega)
  | @fbPrefix r j hrow hj =>
    have hbefore := hcopy r j hb hr rfl
    rw [exec_fbPrefix hu (exec_fbPrefix_next hu h)] at h
    obtain ⟨-, h⟩ := storeStep_next.1 h
    obtain rfl := (Host.Outcome.next.inj h).symm
    cases hn : nextWord 0 s.cfg.avo s.cfg.yRes r j with
    | some p =>
      obtain ⟨r2, j2⟩ := p
      have hnext := nextWord_some_cases hn
      exact .of_copying (r := r2) (j := j2) hr (by simp)
        ((seededBefore_seed g hmem hrow hj hbefore (by omega)).congr rfl rfl)
    | none =>
      have hall := seededBefore_seed g hmem hrow hj hbefore (r2 := s.cfg.yRes) (j2 := 0) (by
        have hlast := nextWord_none hn
        omega)
      exact .of_copied (by simp) fun r' i hr' hi => (hall r' i hr' hi (.inl hr'))
  | fbReady =>
    rw [exec_fbReady hu] at h
    obtain rfl := (Host.Outcome.next.inj h).symm
    exact .of_ready rfl ((hdone hb hr rfl).congr rfl rfl)

/-- CMD's turn keeps the row starts seeded. -/
theorem cmdTurn_keeps_prefix {s t : State} (g : s.cfg.Good) (hmem : MemoryInv s) (hcmd : CommandInv s) (hinv : PrefixInv s)
    (h : cmdTurn s = .next t) : PrefixInv t := by
  have hcmd' := cmdTurn_keeps_command g hcmd h
  obtain ⟨hb, i, hd, he⟩ := cmdTurn_next.1 h
  obtain ⟨i', hd', hi, hm, hready⟩ := hcmd hb
  obtain rfl : i = i' := Except.ok.inj (hd.symm.trans hd')
  by_cases hne : i = .fbinit
  · subst hne
    cases hr : s.fbReady with
    | false => exact fbinit_keeps_prefix g hmem hm hb hr hinv he
    | true =>
      have hu : s.ustate = .first := by
        by_contra hu
        exact absurd (hr.symm.trans (hready hu)) (by decide)
      rw [exec_fbinit_first hu, if_pos hr] at he
      obtain rfl := (Host.Outcome.next.inj he).symm
      exact .of_ready hr ((show Seeded s from hinv.1 hr).congr rfl rfl)
  · have hsame : t.fbReady = s.fbReady := by
      by_contra hc
      exact hne ((exec_modeBits hi he).2.1 hc).2
    cases hr : s.fbReady with
    | true => exact .of_ready (hsame.trans hr) (exec_keeps_seeded g hmem hne hi hm he (hinv.1 hr))
    | false =>
      refine .of_not_ready (hsame.trans hr) fun hbt => ?_
      obtain ⟨k, hk, -, hmk, -⟩ := hcmd' hbt
      rw [(exec_frame hi he).2.2.1] at hk
      obtain rfl : i = k := Except.ok.inj (hd.symm.trans hk)
      refine ⟨fun hu => ?_, fun r j hu => ?_⟩ <;> rw [hu] at hmk <;> exact absurd (by cases i <;> simp_all [microOk]) hne

/-- Settles O51, turn by turn: HOST's presentation and `rst` end at a micro-state outside `FBINIT`, XFER and SEQ store nothing. -/
theorem everyStepKeepsPrefixSeeded : Obligations.EveryStepKeepsPrefixSeeded := by
  intro s t hmem hcmd hinv h
  have hcfg := step_cfg h
  obtain ⟨hw, ⟨-, rfl⟩ | ⟨tn, ts, -, h⟩⟩ := step_next h
  · exact hinv
  cases tn with
  | host f =>
    obtain ⟨-, -, rfl⟩ := hostTurn_next.1 h
    exact ⟨hinv.1, fun _ _ hu => absurd hu (by simp), fun _ _ _ _ hu => absurd hu (by simp)⟩
  | cmd => exact cmdTurn_keeps_prefix (s := s.setTurns ts) ((Config.wf_iff_good _).1 hw) hmem hcmd hinv h
  | xfer =>
    obtain ⟨hwm, -, -, hready, hbusy, -, hu, -⟩ := engineTurn_frame (.inl rfl) h
    exact hinv.congr hcfg hwm hbusy hready hu
  | seq =>
    obtain ⟨hwm, -, -, hready, hbusy, -, hu, -⟩ := engineTurn_frame (.inr rfl) h
    exact hinv.congr hcfg hwm hbusy hready hu
  | rst d =>
    obtain rfl := (Host.Outcome.next.inj h).symm
    exact .of_not_ready rfl fun hb => absurd hb (by simp [State.resetWith])

/-! ### Reset -/

/-- Settles O59: the registers are those of `State.resetWith`, and the redrawing stays inside the framebuffer. -/
theorem resetLeavesTheSpecsValues : Obligations.ResetLeavesTheSpecsValues := by
  refine ⟨fun c wm bm d => rfl, fun s d ts hw hmem ht => ⟨redrawFramebuffer s.cfg s.wm d.fb, step_turn hw ht, fun a ha => ?_⟩⟩
  exact redrawFramebuffer_outside s.cfg d.fb a ha s.wm (Memory.wf_rising hmem)

/-- Settles O60: at reset nothing runs, nothing is recorded and no command is in progress. -/
theorem invariantsHoldAtReset : Obligations.InvariantsHoldAtReset := by
  intro c wm bm d _ hmem
  refine ⟨⟨by simp [State.resetWith], by simp [State.resetWith, retraceWindow]⟩,
    ⟨fun _ => ⟨rfl, rfl⟩, fun h => absurd h (by simp [State.resetWith])⟩,
    ⟨by simp [State.resetWith, cursorAt], fun k r h => absurd h (by simp [State.resetWith]), fun _ => rfl,
      fun h => absurd h (by simp [State.resetWith])⟩,
    (RecordsInv.idle_iff rfl).2 (by simp [State.resetWith]), fun h => absurd h (by simp [State.resetWith]),
    .of_not_ready rfl fun h => absurd h (by simp [State.resetWith]), hmem⟩

end Sys2Proof.Machine

/-! SUPPORT. The decoders against the printed tables (R93, R97), and what is refused (R104). -/

namespace Sys2Proof

/-! ### The rows of R93 -/

/-- The mnemonic that a scan line selects (R92). -/
def scanMnemonic (n : BitVec 9) : Option String := ((decodeScan .even n).toOption).map Instr.mnemonic

/-- The field takes no part in the selection (R92). -/
theorem decodeScan_mnemonic (f : Field) (n : BitVec 9) : ((decodeScan f n).toOption).map Instr.mnemonic = scanMnemonic n := by
  unfold scanMnemonic decodeScan
  split_ifs <;> rfl

/-- The rows of R93 are disjoint: each scan line below 262 lies in exactly one row, one of its own mnemonic. -/
theorem lineRows_partition : ∀ n : BitVec 9,
    (lineRows.filter fun r => decide (n.toNat &&& r.mask.toNat = r.pattern.toNat)).map (·.mnemonic) = (scanMnemonic n).toList := by
  decide +kernel

theorem scanMatches_iff (m : String) (n : BitVec 9) : scanMatches m n = true ↔ scanMnemonic n = some m := by
  rw [← Option.mem_toList, ← lineRows_partition n]
  simp [scanMatches, and_comm, and_assoc]

/-- Settles O3: both sides say that the scan line's mnemonic is `m`. -/
theorem lineWordDecodesByItsTableRow : Obligations.LineWordDecodesByItsTableRow := by
  intro lw m
  rw [← lineWordOf_fields lw, exists_lineRow, scanMatches_iff, decodeLine_lineWordOf, ← decodeScan_mnemonic (lineField lw)]
  cases decodeScan (lineField lw) (lineScan lw) <;> simp [Except.toOption]

/-! ### The rows of R97 -/

/-- All bits of a frame. -/
def fullFields : CmdFields :=
  { op := .allOnes 8, z0 := .allOnes 22, imm2 := .allOnes 2, y0 := .allOnes 16, x0 := .allOnes 16, y1 := .allOnes 16, x1 := .allOnes 16,
    bmp := .allOnes 32 }

/-- A row of R97 in the decoder's words: the mnemonic, the operation code, and the condition on the other fields. -/
structure FrameRow where
  mnemonic : String
  op : BitVec 8
  ok : Bool

/-- The rows of R97 as conditions on the fields `c`. -/
def CmdFields.rows (c : CmdFields) : List FrameRow :=
  [⟨"WIDTH", 0x01, c.bare⟩, ⟨"HEIGHT", 0x02, c.bare⟩, ⟨"RETRACE", 0x03, c.bare⟩, ⟨"SETACT", 0x04, decide (c.z0 = 0) && c.noWords⟩,
   ⟨"SETPIXEL", 0x05, c.noImm && c.noPoint1 && decide (c.bmp = 0)⟩, ⟨"LINE", 0x06, c.noImm && decide (c.bmp = 0)⟩,
   ⟨"BOX", 0x07, c.noImm && decide (c.bmp = 0)⟩, ⟨"BITBLIT", 0x08, c.noImm⟩,
   ⟨"CLEAR", 0x09, decide (c.z0 = 0) && c.noWords && !c.imm2.getLsbD 1⟩, ⟨"EVENPTR", 0x0A, c.bare⟩, ⟨"ODDPTR", 0x0B, c.bare⟩,
   ⟨"CIRCLE", 0x0C, true⟩, ⟨"FILL", 0x0D, true⟩, ⟨"TEXT", 0x0E, true⟩, ⟨"FBINIT", 0x10, c.bare⟩, ⟨"START", 0x11, c.bare⟩]

/-- That a printed row and a row of conditions say the same of the fields `c`. -/
def SameRow (c : CmdFields) (r : TableRow 128) (q : FrameRow) : Prop :=
  r.mnemonic = q.mnemonic ∧ (r.matches (joinFrame c) = true ↔ c.op = q.op ∧ q.ok = true)

theorem SameRow.of_fields {c : CmdFields} {r : TableRow 128} {q : FrameRow} (mask pattern : CmdFields) (hm : splitFrame r.mask = mask)
    (hp : splitFrame r.pattern = pattern) (hq : r.mnemonic = q.mnemonic) (h : c.and mask = pattern ↔ c.op = q.op ∧ q.ok = true) :
    SameRow c r q :=
  ⟨hq, by rw [TableRow.matches_joinFrame, hm, hp, h]⟩

/-- A row without operands matches the bare frame only. -/
theorem and_full_iff (c : CmdFields) (op : BitVec 8) : c.and fullFields = bareFields op ↔ c.op = op ∧ c.bare = true := by
  simp only [CmdFields.and, fullFields, BitVec.and_allOnes, bareFields, CmdFields.mk.injEq]
  simp [CmdFields.bare, CmdFields.noImm, CmdFields.noWords, CmdFields.noPoint0, CmdFields.noPoint1, and_assoc]

/-- `IMM2[1]`, read by mask. -/
theorem imm2_high_iff (b : BitVec 2) : b &&& 2#2 = 0#2 ↔ b.getLsbD 1 = false := by
  revert b
  decide

/-- `SETACT` and `CLEAR` have an operand in `IMM2`. -/
theorem and_immMask_iff (c : CmdFields) (op : BitVec 8) (m : BitVec 2) :
    c.and { fullFields with imm2 := m } = bareFields op ↔ c.op = op ∧ (c.z0 = 0 ∧ c.noWords = true) ∧ c.imm2 &&& m = 0 := by
  simp only [CmdFields.and, fullFields, BitVec.and_allOnes, bareFields, CmdFields.mk.injEq]
  simp [CmdFields.noWords, CmdFields.noPoint0, CmdFields.noPoint1]
  tauto

/-- `SETPIXEL` has one point. -/
theorem and_pointMask_iff (c : CmdFields) (op : BitVec 8) :
    c.and { fullFields with y0 := 0, x0 := 0 } = bareFields op ↔
      c.op = op ∧ (c.noImm && c.noPoint1 && decide (c.bmp = 0)) = true := by
  simp only [CmdFields.and, fullFields, BitVec.and_allOnes, bareFields, CmdFields.mk.injEq]
  simp [CmdFields.noImm, CmdFields.noPoint1, and_assoc]

/-- `LINE` and `BOX` have two points. -/
theorem and_pointsMask_iff (c : CmdFields) (op : BitVec 8) :
    c.and { fullFields with y0 := 0, x0 := 0, y1 := 0, x1 := 0 } = bareFields op ↔
      c.op = op ∧ (c.noImm && decide (c.bmp = 0)) = true := by
  simp only [CmdFields.and, fullFields, BitVec.and_allOnes, bareFields, CmdFields.mk.injEq]
  simp [CmdFields.noImm, and_assoc]

/-- `BITBLIT` uses all words. -/
theorem and_wordsMask_iff (c : CmdFields) (op : BitVec 8) :
    c.and { fullFields with y0 := 0, x0 := 0, y1 := 0, x1 := 0, bmp := 0 } = bareFields op ↔ c.op = op ∧ c.noImm = true := by
  simp only [CmdFields.and, fullFields, BitVec.and_allOnes, bareFields, CmdFields.mk.injEq]
  simp [CmdFields.noImm]

/-- The empty primitives ignore all but `OP`. -/
theorem and_opMask_iff (c : CmdFields) (op : BitVec 8) : c.and (bareFields (.allOnes 8)) = bareFields op ↔ c.op = op ∧ true = true := by
  simp only [CmdFields.and, BitVec.and_allOnes, bareFields, CmdFields.mk.injEq]
  simp

/-- The printed rows are the rows of conditions. -/
theorem cmdRows_sameRow (c : CmdFields) : List.Forall₂ (SameRow c) cmdRows c.rows := by
  have bare : ∀ (r : TableRow 128) (op : BitVec 8), splitFrame r.mask = fullFields → splitFrame r.pattern = bareFields op →
      SameRow c r ⟨r.mnemonic, op, c.bare⟩ := fun r op hm hp => .of_fields _ _ hm hp rfl (and_full_iff c op)
  have points : ∀ (r : TableRow 128) (op : BitVec 8), splitFrame r.mask = { fullFields with y0 := 0, x0 := 0, y1 := 0, x1 := 0 } →
      splitFrame r.pattern = bareFields op → SameRow c r ⟨r.mnemonic, op, c.noImm && decide (c.bmp = 0)⟩ :=
    fun r op hm hp => .of_fields _ _ hm hp rfl (and_pointsMask_iff c op)
  have empty : ∀ (r : TableRow 128) (op : BitVec 8), splitFrame r.mask = bareFields (.allOnes 8) →
      splitFrame r.pattern = bareFields op → SameRow c r ⟨r.mnemonic, op, true⟩ :=
    fun r op hm hp => .of_fields _ _ hm hp rfl (and_opMask_iff c op)
  refine .cons (bare _ _ (by decide) (by decide)) (.cons (bare _ _ (by decide) (by decide)) (.cons (bare _ _ (by decide) (by decide))
    (.cons ?setact (.cons ?setpixel (.cons (points _ _ (by decide) (by decide)) (.cons (points _ _ (by decide) (by decide))
    (.cons ?bitblit (.cons ?clear (.cons (bare _ _ (by decide) (by decide)) (.cons (bare _ _ (by decide) (by decide))
    (.cons (empty _ _ (by decide) (by decide)) (.cons (empty _ _ (by decide) (by decide)) (.cons (empty _ _ (by decide) (by decide))
    (.cons (bare _ _ (by decide) (by decide)) (.cons (bare _ _ (by decide) (by decide)) .nil)))))))))))))))
  case setact =>
    refine .of_fields { fullFields with imm2 := 0 } (bareFields 0x04) (by decide) (by decide) rfl ((and_immMask_iff c _ _).trans ?_)
    simp
  case setpixel => exact .of_fields _ (bareFields 0x05) (by decide) (by decide) rfl (and_pointMask_iff c _)
  case bitblit => exact .of_fields _ (bareFields 0x08) (by decide) (by decide) rfl (and_wordsMask_iff c _)
  case clear =>
    refine .of_fields { fullFields with imm2 := 2 } (bareFields 0x09) (by decide) (by decide) rfl ((and_immMask_iff c _ _).trans ?_)
    simp [imm2_high_iff]

/-- Matching a printed row is meeting the conditions of a row. -/
theorem exists_cmdRow {c : CmdFields} {m : String} :
    (∃ r ∈ cmdRows, r.mnemonic = m ∧ r.matches (joinFrame c) = true) ↔
      ∃ q ∈ c.rows, q.mnemonic = m ∧ c.op = q.op ∧ q.ok = true := by
  have hrows := cmdRows_sameRow c
  generalize cmdRows = rs at hrows
  generalize c.rows = qs at hrows
  induction hrows with
  | nil => simp
  | cons h _ ih =>
    obtain ⟨hname, hmatch⟩ := h
    simp only [List.mem_cons, exists_eq_or_imp, ih, hname, hmatch]

/-- What the operation of a row's code does with the row's condition. -/
theorem requireZero_mnemonic {b : Bool} {i : Instr} {m : String} :
    (∃ j, requireZero b i = .ok j ∧ j.mnemonic = m) ↔ i.mnemonic = m ∧ b = true := by
  cases b <;> simp [requireZero]

theorem actOfCode_eq_none_iff : ∀ b : BitVec 2, actOfCode b = none ↔ b = 3 := by decide

theorem decodeSetact_mnemonic {c : CmdFields} {m : String} :
    (∃ j, decodeSetact c = .ok j ∧ j.mnemonic = m) ↔ ("SETACT" = m ∧ (decide (c.z0 = 0) && c.noWords) = true) ∧ c.imm2 ≠ 3 := by
  rw [ne_eq, ← actOfCode_eq_none_iff]
  unfold decodeSetact
  cases hz : decide (c.z0 = 0) && c.noWords
  · simp
  · cases actOfCode c.imm2 <;> simp [Instr.mnemonic]

theorem decodeClear_mnemonic {c : CmdFields} {m : String} :
    (∃ j, decodeClear c = .ok j ∧ j.mnemonic = m) ↔ "CLEAR" = m ∧ (decide (c.z0 = 0) && c.noWords && !c.imm2.getLsbD 1) = true := by
  unfold decodeClear
  cases hz : decide (c.z0 = 0) && c.noWords
  · simp
  · cases hc : c.imm2.getLsbD 1 <;> simp [Instr.mnemonic]

/-- With the operation code of a row the decoder asks for the row's condition, and `SETACT` for one more. -/
theorem decodeFields_of_row {c : CmdFields} {q : FrameRow} {m : String} (hq : q ∈ c.rows) (hop : c.op = q.op) :
    (∃ i, decodeFields c = .ok i ∧ i.mnemonic = m) ↔ (q.mnemonic = m ∧ q.ok = true) ∧ (q.mnemonic = "SETACT" → c.imm2 ≠ 3) := by
  simp only [CmdFields.rows, List.mem_cons, List.not_mem_nil, or_false] at hq
  unfold decodeFields
  rw [hop]
  have zero : ∀ {b : Bool} {i : Instr}, i.mnemonic ≠ "SETACT" → ((∃ j, requireZero b i = .ok j ∧ j.mnemonic = m) ↔
      (i.mnemonic = m ∧ b = true) ∧ (i.mnemonic = "SETACT" → c.imm2 ≠ 3)) := fun hi => requireZero_mnemonic.trans (by simp [hi])
  have empty : ∀ {i : Instr}, i.mnemonic ≠ "SETACT" → ((∃ j, (Except.ok i : Except Reject Instr) = .ok j ∧ j.mnemonic = m) ↔
      (i.mnemonic = m ∧ true = true) ∧ (i.mnemonic = "SETACT" → c.imm2 ≠ 3)) := fun hi => by simp [hi]
  rcases hq with rfl | rfl | rfl | rfl | rfl | rfl | rfl | rfl | rfl | rfl | rfl | rfl | rfl | rfl | rfl | rfl
  exacts [zero (by decide), zero (by decide), zero (by decide), decodeSetact_mnemonic.trans (by simp), zero (by simp [Instr.mnemonic]),
    zero (by simp [Instr.mnemonic]), zero (by simp [Instr.mnemonic]), zero (by simp [Instr.mnemonic]), decodeClear_mnemonic.trans (by simp), zero (by decide),
    zero (by decide),
    empty (by decide), empty (by decide), empty (by decide), zero (by decide), zero (by decide)]

theorem decodeFields_no_row {c : CmdFields} (h : ∀ q ∈ c.rows, c.op ≠ q.op) : decodeFields c = .error .reservedOp := by
  simp only [CmdFields.rows, List.forall_mem_cons, ne_eq, BitVec.toNat_eq] at h
  unfold decodeFields
  split <;> simp_all

/-- Rows have different operation codes (R96). -/
theorem rows_op_inj {c : CmdFields} {q q' : FrameRow} (hq : q ∈ c.rows) (hq' : q' ∈ c.rows) (h : q.op = q'.op) : q = q' :=
  List.inj_on_of_nodup_map (f := FrameRow.op) (by simp [CmdFields.rows] : (c.rows.map FrameRow.op).Nodup) hq hq' h

theorem decodeFields_mnemonic {c : CmdFields} {m : String} :
    (∃ i, decodeFields c = .ok i ∧ i.mnemonic = m) ↔
      (∃ q ∈ c.rows, q.mnemonic = m ∧ c.op = q.op ∧ q.ok = true) ∧ (m = "SETACT" → c.imm2 ≠ 3) := by
  by_cases hrow : ∃ q ∈ c.rows, c.op = q.op
  · obtain ⟨q, hq, hop⟩ := hrow
    rw [decodeFields_of_row hq hop]
    constructor
    · rintro ⟨⟨rfl, hok⟩, hmode⟩
      exact ⟨⟨q, hq, rfl, hop, hok⟩, hmode⟩
    · rintro ⟨⟨q', hq', rfl, hop', hok⟩, hmode⟩
      obtain rfl := rows_op_inj hq hq' (hop.symm.trans hop')
      exact ⟨⟨rfl, hok⟩, hmode⟩
  · push Not at hrow
    rw [decodeFields_no_row hrow]
    constructor
    · rintro ⟨i, h, -⟩
      exact absurd h (by simp)
    · rintro ⟨⟨q, hq, -, hop, -⟩, -⟩
      exact absurd hop (hrow q hq)

/-- Settles O2: the decoder and the table both ask for the condition of a row. -/
theorem frameDecodesByItsTableRow : Obligations.FrameDecodesByItsTableRow := by
  intro f m
  rw [decodeFrame, decodeFields_mnemonic, ← exists_cmdRow, joinFrame_splitFrame]

/-! ### Reserved encodings -/

/-- A frame is reserved when no row of R97 matches it, or when it is a `SETACT` of mode 3 (R104(a)). -/
def ReservedFrame (f : BitVec 128) : Prop :=
  (∀ r ∈ cmdRows, r.matches f = false) ∨ ((splitFrame f).op = 0x04 ∧ (splitFrame f).imm2 = 3)

/-- A reserved frame decodes to nothing. -/
theorem decodeFrame_reserved {f : BitVec 128} (h : ReservedFrame f) : ∃ r, decodeFrame f = .error r := by
  cases hd : decodeFrame f with
  | error r => exact ⟨r, rfl⟩
  | ok i =>
    exfalso
    rcases h with hrow | ⟨hop, hmode⟩
    · obtain ⟨⟨r, hr, -, hmatch⟩, -⟩ := (frameDecodesByItsTableRow f i.mnemonic).1 ⟨i, hd, rfl⟩
      exact absurd ((hrow r hr).symm.trans hmatch) (by decide)
    · have hsetact : (⟨"SETACT", 0x04, decide ((splitFrame f).z0 = 0) && (splitFrame f).noWords⟩ : FrameRow) ∈ (splitFrame f).rows := by
        simp [CmdFields.rows]
      exact ((decodeFields_of_row hsetact hop).1 ⟨i, hd, rfl⟩).2 rfl hmode

namespace Machine

theorem hostTurn_reserved {f : BitVec 128} {s : State} (hb : s.cmdBusy = false) (h : ReservedFrame f) :
    hostTurn f s = .refused .reservedFrame := by
  obtain ⟨r, hr⟩ := decodeFrame_reserved h
  simp [hostTurn, hb, hr]

theorem cmdTurn_reserved {s : State} (hb : s.cmdBusy = true) (h : ReservedFrame s.cmdFrame) : cmdTurn s = .refused .reservedFrame := by
  obtain ⟨r, hr⟩ := decodeFrame_reserved h
  simp [cmdTurn, hb, hr]

theorem seqTurn_reserved {s : State} (hp : s.irqPending = true) (hn : 262 ≤ s.scanLine.toNat) : seqTurn s = .refused .reservedLine := by
  have hd : decodeLine s.lineWord = .error .reservedLine := by
    rw [State.lineWord, decodeLine_lineWordOf, decodeScan_reserved (by omega)]
  simp [seqTurn, hp, lineStepWith, hd]

/-- Settles O4, turn by turn. -/
theorem reservedEncodingsAreRefused : Obligations.ReservedEncodingsAreRefused := fun s ts hw =>
  ⟨fun _ ht hb h => (step_turn hw ht).trans (hostTurn_reserved (s := s.setTurns ts) hb h),
    fun ht hb h => (step_turn hw ht).trans (cmdTurn_reserved (s := s.setTurns ts) hb h),
    fun ht hp hn => (step_turn hw ht).trans (seqTurn_reserved (s := s.setTurns ts) hp hn)⟩

end Machine

/-- Settles O5, word by word. -/
theorem vectorWordsDecode : Obligations.VectorWordsDecode := by
  unfold Obligations.VectorWordsDecode
  decide

end Sys2Proof

/-! SUPPORT. The line operations and the handler (R120 to R133), the turns of the agents (R12, R152 to R154, R170), and the commands of
one step (R175 to R180, R189, R210 to R212). -/

namespace Sys2Proof.Machine

/-! ### Line operations -/

/-- Settles O6: lines 0 to 2 select `EQPRE`, one transfer and the flag. -/
theorem eqpreArmsEqualizingTable : Obligations.EqpreArmsEqualizingTable := by
  intro f n s
  obtain ⟨heqpre, -⟩ := decodeScan_range f n
  rw [decodeLine_lineWordOf]
  refine ⟨heqpre, (exec_line rfl s).trans ?_⟩
  cases f <;> rfl

/-- Settles O8: the extension is that of `eqpostLength`. -/
theorem eqpostExtendsLineEightOfEvenField : Obligations.EqpostExtendsLineEightOfEvenField := by
  intro f n s
  obtain ⟨-, -, heqpost, -⟩ := decodeScan_range f n
  rw [decodeLine_lineWordOf]
  refine ⟨heqpost, (exec_line rfl s).trans ?_⟩
  have h8 : n = 8#9 ↔ n.toNat = 8 := lineNumber_eq (by decide)
  simp only [opState, eqpostLength, h8, ← apply_ite (BitVec.ofNat 32)]
  rfl

/-- Settles O10: lines 31 to 245 select `ACTIVE`, one transfer. -/
theorem activeAdvancesTwoStrides : Obligations.ActiveAdvancesTwoStrides := by
  intro f n s
  obtain ⟨-, -, -, -, -, hactive, -⟩ := decodeScan_range f n
  rw [decodeLine_lineWordOf]
  exact ⟨hactive, exec_line rfl s⟩

/-- Settles O11, field by field. -/
theorem closeoutIsAHalfLineOfOddField : Obligations.CloseoutIsAHalfLineOfOddField := by
  intro f n s
  obtain ⟨-, -, -, -, -, -, -, hcloseout⟩ := decodeScan_range f n
  rw [decodeLine_lineWordOf]
  refine ⟨hcloseout, (exec_line rfl s).trans ?_⟩
  cases f <;> rfl

/-! ### The handler -/

theorem lineStep_of_decode {s : State} {i : Instr} (hd : decodeScan s.field s.scanLine = .ok i) :
    lineStepWith exec s = armTransfer (opState i s).advanceCursor := by
  simp only [lineStepWith, State.lineWord, decodeLine_lineWordOf, hd, exec_line (decodeScan_ok hd).1, andThen_of_next]

/-- Settles O12: the operation of the cursor, the advance, and `ARM`, which a transfer in flight refuses. -/
theorem stepRunsTheLineOperation : Obligations.StepRunsTheLineOperation := by
  intro s ts i hw ht hp hd
  rw [State.lineWord, decodeLine_lineWordOf] at hd
  have hline := lineStep_of_decode (s := s.setTurns ts) hd
  have hstep : step s = armTransfer (opState i (s.setTurns ts)).advanceCursor := by
    rw [step_turn hw ht, ← hline]
    exact if_pos hp
  have hbusy : (opState i (s.setTurns ts)).advanceCursor.dmaBusy = s.dmaBusy := by rw [opState_eq]; rfl
  refine ⟨fun hb => ?_, fun hb => ⟨opState i (s.setTurns ts), exec_line (decodeScan_ok hd).1 _, ?_⟩⟩
  · rw [hstep, armTransfer, if_pos (hbusy.trans hb)]
  · rw [hstep, armTransfer, if_neg (by rw [hbusy, hb]; decide), opState_eq]
    rfl

/-- Settles O13: `op_plan` for the operation that the cursor selects; the advance and `ARM` leave the three registers. -/
theorem linestepIsThePureTable : Obligations.LinestepIsThePureTable := by
  intro s t h
  obtain ⟨i, hd, -, rfl⟩ := lineStep_next.1 h
  exact op_plan hd

/-- Settles O14, by the closed form of the advance. -/
theorem cursorHasPeriod524 : Obligations.CursorHasPeriod524 := by
  intro f n hn
  have cursor : ∀ k, (advance^[k] (f, n)).2.toNat = (n.toNat + k) % 262 ∧
      (advance^[k] (f, n)).1 = if (n.toNat + k) / 262 % 2 = 0 then f else otherField f := iter_advance f n hn
  refine ⟨?_, ?_, fun k hk hk' he => ?_⟩
  · obtain ⟨hline, hfield⟩ := cursor 262
    exact Prod.ext (hfield.trans (if_neg (by omega))) (BitVec.eq_of_toNat_eq (by dsimp only; omega))
  · obtain ⟨hline, hfield⟩ := cursor 524
    exact Prod.ext (hfield.trans (if_pos (by omega))) (BitVec.eq_of_toNat_eq (by dsimp only; omega))
  · obtain ⟨hline, hfield⟩ := cursor k
    rw [he] at hline hfield
    obtain rfl : k = 262 := by dsimp only at hline; omega
    rw [if_neg (by omega)] at hfield
    exact otherField_ne f hfield.symm

/-- Settles O20: a transfer in flight has its next word mapped, or is done; otherwise the completion is pending. -/
theorem startedSequencerNeverStalls : Obligations.StartedSequencerNeverStalls := by
  intro s hw hpl hrun heng hsig hrec
  have halt := heng.2 hrun
  cases hp : s.irqPending with
  | true => exact .inr hp
  | false =>
    have hb : s.dmaBusy = true := by rw [halt, hp]; rfl
    left
    by_cases hr : s.dmaRemain = 0
    · simp [xferEnabled, hb, hr]
    · have hpos : 0 < s.dmaRemain.toNat := Nat.pos_of_ne_zero fun h0 => hr (BitVec.eq_of_toNat_eq h0)
      have hmap := remaining_mapped hw hpl hb hsig hrec 0 hpos
      rw [BitVec.add_zero] at hmap
      simp [xferEnabled, hb, hmap]

/-! ### Turns -/

/-- A `BEAT` at an unmapped word leaves XFER stuck (R152). -/
theorem xferTurn_unmapped {s : State} (hb : s.dmaBusy = true) (hr : s.dmaRemain ≠ 0) (hm : s.cfg.mapped s.dmaAddr = false) :
    xferTurn s = .fault .xferUnmapped := by
  rw [xferTurn, if_pos hb, if_neg hr, if_neg (by simp [hm])]

/-- Settles O22: XFER's turn with words left is `BEAT` or stuck. -/
theorem beatEmitsOneWord : Obligations.BeatEmitsOneWord := by
  intro s ts hw ht hb hr
  rw [step_turn hw ht]
  refine ⟨fun hm => xferTurn_next.2 ⟨hb, .inr ⟨hr, hm, rfl⟩⟩, fun hm => xferTurn_unmapped hb hr hm⟩

/-- Settles O23: XFER's turn with no words left is `DONE`. -/
theorem doneRaisesTheCompletion : Obligations.DoneRaisesTheCompletion := by
  intro s ts hw ht hb hr
  rw [step_turn hw ht]
  exact xferTurn_next.2 ⟨hb, .inl ⟨hr, rfl⟩⟩

/-- Settles O24, agent by agent. -/
theorem disabledAgentsAreStuck : Obligations.DisabledAgentsAreStuck := by
  intro s ts hw
  refine ⟨fun ht hb => ?_, fun ht hp => ?_, fun f ht hb => ?_, fun ht hb => ?_⟩ <;> rw [step_turn hw ht]
  · simp [takeTurn, xferTurn, hb]
  · simp [takeTurn, seqTurn, hp]
  · simp [takeTurn, hostTurn, hb]
  · simp [takeTurn, cmdTurn, hb]

/-- Settles O26: HOST's turn on a free port presents a frame that decodes. -/
theorem hostPresentsAFrame : Obligations.HostPresentsAFrame := by
  intro s f ts i hw ht hb hd
  rw [step_turn hw ht]
  exact hostTurn_next.2 ⟨hb, ⟨i, hd⟩, rfl⟩

/-- Settles O27: CMD's turn on a busy port is `exec` of what the frame decodes to. -/
theorem stepRunsTheCommand : Obligations.StepRunsTheCommand := by
  intro s ts i hw ht hb hd
  rw [step_turn hw ht]
  simp [takeTurn, cmdTurn, hb, hd]

/-! ### Commands of one step -/

/-- Settles O28: each query is one response. -/
theorem queriesRespondInOneStep : Obligations.QueriesRespondInOneStep :=
  ⟨by decide, fun _ => ⟨.first, rfl, rfl, rfl, rfl, rfl⟩⟩

/-- Settles O29: `SETACT` is one write and one response. -/
theorem setactWritesPixact : Obligations.SetactWritesPixact :=
  ⟨by decide, by decide, by decide, by decide, fun _ _ => ⟨.first, rfl⟩⟩

/-- Settles O30: these operation codes are decoded without a look at the other fields. -/
theorem emptyPrimitivesOnlyRespond : Obligations.EmptyPrimitivesOnlyRespond := by
  refine ⟨fun f => ⟨fun h => ?_, fun h => ?_, fun h => ?_⟩, fun i s h => ⟨.first, exec_empty h s⟩⟩ <;>
    simp only [decodeFrame, decodeFields, h] <;> rfl

/-- `START` before the first `START` is the body of `LINESTEP` with `RUN` set, and a response (R189). -/
theorem exec_start_first {s t : State} (hr : s.run = false) (h : lineStepWith exec { s with run := true } = .next t) :
    exec .start s = .next (t.respond 0) := by
  have h' : lineStepWith execLineOp s.markRun = .next t := startStep_next.2 (lineStep_next.1 h)
  simp [exec, execStart, hr, h']

/-- Settles O35: `START` runs the operation of the cursor, which is `EQPRE` at line 0. -/
theorem startArmsTheFirstTransfer : Obligations.StartArmsTheFirstTransfer := by
  intro s hr hb
  refine ⟨fun t h => ⟨.first, exec_start_first hr h⟩, fun hn => ⟨.first, ?_⟩⟩
  obtain ⟨heqpre, -⟩ := decodeScan_range s.field s.scanLine
  have hline := (lineStep_next (s := s.markRun)).2 ⟨_, heqpre (by simp [hn]), hb, rfl⟩
  rw [exec_start_first hr hline]
  cases hf : s.field <;> simp [opState, State.setTransfer, State.setRetrace, State.advanceCursor, State.openTransfer, State.respond,
    State.markRun, retraceAfterEqpre, nextLine, nextField, hn, hf]

/-- Settles O36: both test their flag first. -/
theorem secondStartupIsANoOp : Obligations.SecondStartupIsANoOp := by
  refine fun s => ⟨fun hr => ⟨.first, ?_⟩, fun hr hu => ⟨.first, ?_⟩⟩
  · exact if_pos hr
  · rw [exec_fbinit_first hu, if_pos hr]
    rfl

end Sys2Proof.Machine

/-! SUPPORT. The gated pixel write as an algebra (R37, R183, R213): it changes one pixel, two writes commute, and a write repeated is
undone under Flip and idle under Set and Clear. And the points of a line (R201, R202). -/

namespace Sys2Proof.Machine

/-! ### One write -/

/-- A point of the screen is in range (R38). -/
theorem inBounds_natCast {c : Config} {x y : Nat} (hx : x < c.xRes) (hy : y < c.yRes) : inBounds c x y = true :=
  (inBounds_iff c x y).2 ⟨by omega, by omega, by omega, by omega⟩

/-- The pixel at `(x, y)` is the bit that a write at `(x', y')` acts on exactly when the two are the same point. -/
theorem same_pixel_iff {c : Config} (g : c.Good) {x y x' y' : Nat} (hx : x < c.xRes) (hy : y < c.yRes) (hx' : x' < c.xRes)
    (hy' : y' < c.yRes) :
    ((pixelAddr c x y).toNat = (pixelAddr c x' y').toNat ∧ bitIndex c x = bitIndex c x') ↔ x = x' ∧ y = y' := by
  constructor
  · rintro ⟨ha, hb⟩
    exact pixel_inj g hx hy hx' hy' ha hb
  · rintro ⟨rfl, rfl⟩
    exact ⟨rfl, rfl⟩

/-- Settles O44: a point out of range writes nothing, and a point in range acts on the bit of its own pixel. -/
theorem plotChangesOnePixel : Obligations.PlotChangesOnePixel := by
  intro c a wm bm p x y hw hmem hx hy
  have g := (Config.wf_iff_good c).1 hw
  obtain ⟨px, py⟩ := p
  unfold pixelLit
  rw [plot_read a (Memory.wf_rising hmem)]
  by_cases hb : inBounds c px py = true
  · obtain ⟨h1, h2, h3, h4⟩ := (inBounds_iff c px py).1 hb
    lift px to Nat using h1
    lift py to Nat using h3
    have hsame := same_pixel_iff g hx hy (x' := px) (y' := py) (by omega) (by omega)
    simp only [hb, true_and, Int.toNat_natCast, Prod.mk.injEq, Nat.cast_inj, ← hsame]
    by_cases ha : (pixelAddr c x y).toNat = (pixelAddr c px py).toNat
    · rw [if_pos ha, pixelResult_testBit g a px (Memory.wf_read_lt hmem _)]
      simp only [ha, true_and]
    · simp only [ha, false_and, if_false]
  · have hne : ¬((x : Int), (y : Int)) = (px, py) := by
      rintro ⟨⟩
      exact hb (inBounds_natCast hx hy)
    rw [if_neg (fun h => hb h.1), if_neg hne]

/-! ### Two writes -/

section
variable {c : Config} (g : c.Good) {v : WordVal} (hv : v < 2 ^ c.wordW)
include g hv

theorem pixelResult_comm (a : PixAct) (x x' : Nat) :
    pixelResult c a x (pixelResult c a x' v) = pixelResult c a x' (pixelResult c a x v) := by
  apply Nat.eq_of_testBit_eq
  intro k
  rw [pixelResult_testBit g a x (pixelResult_lt _ _ _ _), pixelResult_testBit g a x' (pixelResult_lt _ _ _ _),
    pixelResult_testBit g a x hv, pixelResult_testBit g a x' hv]
  split_ifs <;> rfl

theorem pixelResult_flip_flip (x : Nat) : pixelResult c .flip x (pixelResult c .flip x v) = v := by
  apply Nat.eq_of_testBit_eq
  intro k
  rw [pixelResult_testBit g _ x (pixelResult_lt _ _ _ _), pixelResult_testBit g _ x hv]
  split_ifs <;> simp [actOnPixel]

theorem pixelResult_idem {a : PixAct} (ha : a ≠ .flip) (x : Nat) :
    pixelResult c a x (pixelResult c a x v) = pixelResult c a x v := by
  apply Nat.eq_of_testBit_eq
  intro k
  rw [pixelResult_testBit g a x (pixelResult_lt _ _ _ _), pixelResult_testBit g a x hv]
  cases a <;> simp_all [actOnPixel]

end

section
variable {c : Config} (g : c.Good) {wm : WordMem} {bm : ByteMem} (h : Memory.wf c.wordW wm bm = true)

/-- Well-formed memories with equal reads are equal. -/
theorem wordMem_ext {wm' : WordMem} (h : Memory.wf c.wordW wm bm = true) (h' : Memory.wf c.wordW wm' bm = true)
    (hr : ∀ b, Memory.read wmDefault wm b = Memory.read wmDefault wm' b) : wm = wm' :=
  Memory.ext_of_read (Memory.wf_rising h) (Memory.wf_rising h') (Memory.wf_nondefault h) (Memory.wf_nondefault h') hr

include h in
/-- Two writes one after the other, read at one address. -/
theorem plot_plot_read (a : PixAct) (p q : Int × Int) (b : Nat) :
    Memory.read wmDefault (plot c a (plot c a wm p) q) b =
      if inBounds c q.1 q.2 = true ∧ b = (pixelAddr c q.1.toNat q.2.toNat).toNat then
        pixelResult c a q.1.toNat
          (if inBounds c p.1 p.2 = true ∧ b = (pixelAddr c p.1.toNat p.2.toNat).toNat then
            pixelResult c a p.1.toNat (Memory.read wmDefault wm b) else Memory.read wmDefault wm b)
      else if inBounds c p.1 p.2 = true ∧ b = (pixelAddr c p.1.toNat p.2.toNat).toNat then
        pixelResult c a p.1.toNat (Memory.read wmDefault wm b) else Memory.read wmDefault wm b := by
  rw [plot_read a (Memory.wf_rising (plot_wf h a p)), plot_read a (Memory.wf_rising h)]

include g h

theorem plot_comm (a : PixAct) (p q : Int × Int) : plot c a (plot c a wm p) q = plot c a (plot c a wm q) p := by
  refine wordMem_ext (plot_wf (plot_wf h a p) a q) (plot_wf (plot_wf h a q) a p) fun b => ?_
  rw [plot_plot_read h, plot_plot_read h]
  split_ifs
  · exact pixelResult_comm g (Memory.wf_read_lt h b) a _ _
  · rfl
  · rfl
  · rfl

theorem plot_flip_flip (p : Int × Int) : plot c .flip (plot c .flip wm p) p = wm := by
  refine wordMem_ext (plot_wf (plot_wf h _ p) _ p) h fun b => ?_
  rw [plot_plot_read h]
  split_ifs
  · exact pixelResult_flip_flip g (Memory.wf_read_lt h b) _
  · rfl

theorem plot_idem {a : PixAct} (ha : a ≠ .flip) (p : Int × Int) : plot c a (plot c a wm p) p = plot c a wm p := by
  refine wordMem_ext (plot_wf (plot_wf h _ p) _ p) (plot_wf h _ p) fun b => ?_
  rw [plot_plot_read h, plot_read a (Memory.wf_rising h)]
  split_ifs
  · exact pixelResult_idem g (Memory.wf_read_lt h b) ha _
  · rfl

end

/-! ### Lists of writes -/

theorem plotAll_cons (c : Config) (a : PixAct) (wm : WordMem) (p : Int × Int) (ps : List (Int × Int)) :
    plotAll c a wm (p :: ps) = plotAll c a (plot c a wm p) ps := rfl

theorem plotAll_append (c : Config) (a : PixAct) (wm : WordMem) (ps qs : List (Int × Int)) :
    plotAll c a wm (ps ++ qs) = plotAll c a (plotAll c a wm ps) qs := List.foldl_append

theorem plotAll_perm {c : Config} (g : c.Good) {bm : ByteMem} (a : PixAct) {ps qs : List (Int × Int)} (hp : ps.Perm qs) :
    ∀ {wm : WordMem}, Memory.wf c.wordW wm bm = true → plotAll c a wm ps = plotAll c a wm qs := by
  induction hp with
  | nil => exact fun _ => rfl
  | cons p _ ih => exact fun h => ih (plot_wf h a p)
  | swap p q ps =>
    intro wm h
    rw [plotAll_cons, plotAll_cons, plot_comm g h, ← plotAll_cons, ← plotAll_cons]
  | trans _ _ ih ih' => exact fun h => (ih h).trans (ih' h)

/-- Settles O45, by induction on the permutation: two neighbours commute. -/
theorem drawingIsOrderIndependent : Obligations.DrawingIsOrderIndependent :=
  fun c a _ _ _ _ hw hmem hp => plotAll_perm ((Config.wf_iff_good c).1 hw) a hp hmem

/-- Plotting a list twice plots its first point twice, and the rest twice. -/
theorem plotAll_twice_cons {c : Config} (g : c.Good) {wm : WordMem} {bm : ByteMem} (h : Memory.wf c.wordW wm bm = true) (a : PixAct)
    (p : Int × Int) (ps : List (Int × Int)) :
    plotAll c a (plotAll c a wm (p :: ps)) (p :: ps) = plotAll c a (plotAll c a (plot c a (plot c a wm p) p) ps) ps := by
  rw [← plotAll_append, ← plotAll_cons, ← plotAll_cons, ← plotAll_append]
  exact plotAll_perm g a (List.perm_middle (l₁ := p :: ps)) h

/-- Settles O46, by induction on the points. -/
theorem redrawingUnderFlipRestores : Obligations.RedrawingUnderFlipRestores := by
  intro c a wm bm ps hw hmem
  have g := (Config.wf_iff_good c).1 hw
  induction ps generalizing wm with
  | nil => simp [plotAll]
  | cons p ps ih =>
    rw [plotAll_twice_cons g hmem]
    by_cases ha : a = .flip
    · subst ha
      rw [plot_flip_flip g hmem, ih wm hmem, if_pos rfl, if_pos rfl]
    · rw [plot_idem g hmem ha, ih _ (plot_wf hmem a p), if_neg ha, if_neg ha, plotAll_cons]

/-! ### The points of a line -/

/-- Settles O39: the walk is at the end point after `span` turns and not before, and each turn moves by at most one. -/
theorem linePointsJoinTheEnds : Obligations.LinePointsJoinTheEnds := by
  intro g
  obtain ⟨hx, hy⟩ := walk_end g
  refine ⟨?_, ?_, ?_, ?_, ?_⟩
  · simp [Seg.points, Seg.begin, List.range_succ_eq_map]
  · simp [Seg.points, List.range_succ, hx, hy]
  · simp [Seg.points, Seg.span]
  · simp only [Seg.points, List.range_succ, List.map_append, List.map_singleton, List.dropLast_concat, List.mem_map, List.mem_range,
      not_exists, not_and]
    intro k hk he
    have hend := walk_not_end g k hk
    simp_all [Seg.isEnd]
  · rw [Seg.points, List.isChain_map]
    refine (List.isChain_range_succ _ _).2 fun k _ => ?_
    rw [walk_succ]
    exact advance_near g _

end Sys2Proof.Machine

/-! SUPPORT. The commands of several steps run to their end by CMD alone (R184, R185 to R188, R201, R204, R206). -/

namespace Sys2Proof.Machine

/-- The response at the end of a drawing command, with the word memory it leaves. -/
def answered (s : State) (wm : WordMem) : State := { s.respond 0 with wm := wm }

theorem runTurns_nil_answered (s : State) (wm : WordMem) : runTurns [] (answered s wm) = .next (drawn s wm) := rfl

section
variable {s : State} (hw : s.cfg.wf = true) (hp : s.cfg.platformComplete = true) (hb : s.cmdBusy = true) (hv : s.vretrace = true)
  (hu : s.ustate = .first) (hr : s.fbReady = true)
include hw hp hb hv hu hr

/-- `SETPIXEL` from its first step (R184). -/
theorem setpixel_run {x y : BitVec 16} (hd : decodeFrame s.cmdFrame = .ok (.setpixel x y)) :
    runTurns (List.replicate (pointCost s.cfg (x.toInt, y.toInt)) .cmd) s =
      .next (drawn s (plot s.cfg s.pixact s.wm (x.toInt, y.toInt))) := by
  have hfirst : exec (.setpixel x y) (atMicro s .first s.wm) =
      gpixStep x.toInt y.toInt .entry .pixel (atMicro s .first s.wm) fun t => .next (t.respond 0) :=
    ifReady_of_ready (s := atMicro s .first s.wm) hr _
  have hrun := pixel_run (u0 := .first) (ts := []) (fin := answered s) hw hp hb hd hv hfirst (fun wm ph _ => rfl) fun u wm => rfl
  rw [List.append_nil, ← hu] at hrun
  exact hrun

/-- `LINE` from its first step (R201). -/
theorem line_run {x0 y0 x1 y1 : BitVec 16} (hd : decodeFrame s.cmdFrame = .ok (.line x0 y0 x1 y1)) :
    runTurns (List.replicate (((lineSeg x0 y0 x1 y1).points.map (pointCost s.cfg)).sum) .cmd) s =
      .next (drawn s (plotAll s.cfg s.pixact s.wm (lineSeg x0 y0 x1 y1).points)) := by
  have hfirst : exec (.line x0 y0 x1 y1) (atMicro s .first s.wm) =
      walkStep (lineSeg x0 y0 x1 y1) (lineSeg x0 y0 x1 y1).begin .entry .line (atMicro s .first s.wm) fun t => .next (t.respond 0) :=
    ifReady_of_ready (s := atMicro s .first s.wm) hr _
  have hrun := seg_run (ts := []) (fin := answered s) hw hp hb hd hv (fun w wm ph => rfl) (fun u wm => rfl) hfirst
  rw [List.append_nil, ← hu] at hrun
  exact hrun

/-- `BOX` from its first step: its four edges, one after the other (R204). -/
theorem box_run {x0 y0 x1 y1 : BitVec 16} (hd : decodeFrame s.cmdFrame = .ok (.box x0 y0 x1 y1)) :
    runTurns (List.replicate (((boxPoints (lineSeg x0 y0 x1 y1)).map (pointCost s.cfg)).sum) .cmd) s =
      .next (drawn s (plotAll s.cfg s.pixact s.wm (boxPoints (lineSeg x0 y0 x1 y1)))) := by
  generalize hg : lineSeg x0 y0 x1 y1 = gg
  have edge : ∀ (e : Fin 4) (u0 : UState) (wm : WordMem) (fin : WordMem → State) (ts : List Turn),
      (∀ u wm, boxAfterEdge gg e (atMicro s u wm) = .next (fin wm)) →
      exec (.box x0 y0 x1 y1) (atMicro s u0 wm) =
        walkStep (boxEdge gg e) (boxEdge gg e).begin .entry (.box e) (atMicro s u0 wm) (boxAfterEdge gg e) →
      runTurns (List.replicate (((boxEdge gg e).points.map (pointCost s.cfg)).sum) .cmd ++ ts) (atMicro s u0 wm) =
        runTurns ts (fin (plotAll s.cfg s.pixact wm (boxEdge gg e).points)) :=
    fun e u0 wm fin ts hk h0 => seg_run hw hp hb hd hv (fun w wm ph => by rw [← hg]; rfl) hk h0
  have hfirst : exec (.box x0 y0 x1 y1) (atMicro s .first s.wm) =
      walkStep (boxEdge gg 0) (boxEdge gg 0).begin .entry (.box 0) (atMicro s .first s.wm) (boxAfterEdge gg 0) := by
    rw [← hg]
    exact ifReady_of_ready (s := atMicro s .first s.wm) hr _
  have hnext : ∀ (e : Fin 4) (wm : WordMem), exec (.box x0 y0 x1 y1) (atMicro s (.box e (boxEdge gg e).begin .entry) wm) =
      walkStep (boxEdge gg e) (boxEdge gg e).begin .entry (.box e) (atMicro s (.box e (boxEdge gg e).begin .entry) wm)
        (boxAfterEdge gg e) := fun e wm => by rw [← hg]; rfl
  have hs : s = atMicro s .first s.wm := by rw [← hu]; rfl
  conv_lhs => arg 2; rw [hs]
  simp only [boxPoints, List.map_append, List.sum_append, List.replicate_add, List.append_assoc, plotAll_append]
  rw [edge 0 .first s.wm (atMicro s (.box 1 (boxEdge gg 1).begin .entry)) _ (fun u wm => rfl) hfirst,
    edge 1 _ _ (atMicro s (.box 2 (boxEdge gg 2).begin .entry)) _ (fun u wm => rfl) (hnext 1 _),
    edge 2 _ _ (atMicro s (.box 3 (boxEdge gg 3).begin .entry)) _ (fun u wm => rfl) (hnext 2 _),
    ← List.append_nil (List.replicate _ Turn.cmd), edge 3 _ _ (answered s) [] (fun u wm => rfl) (hnext 3 _)]
  rfl

end

/-- Settles O37: the three turns plot one pixel, which is one bit of its word. -/
theorem setpixelChangesOnePixel : Obligations.SetpixelChangesOnePixel := by
  intro s x y hw hp hmem hb hd hu hr hv hin
  have g := (Config.wf_iff_good _).1 hw
  have hrise := Memory.wf_rising hmem
  have hrun := setpixel_run hw hp hb hv hu hr hd
  rw [pointCost, if_pos hin] at hrun
  refine ⟨_, hrun, fun x' y' hx' hy' => ?_, fun b hne => ?_, fun k hk => ?_⟩
  · rw [plotChangesOnePixel s.cfg s.pixact s.wm s.bm (x.toInt, y.toInt) x' y' hw hmem hx' hy']
    simp only [Prod.mk.injEq]
  · rw [plot_read s.pixact hrise, if_neg fun h => hne h.2]
  · rw [plot_read s.pixact hrise, if_pos ⟨hin, rfl⟩, pixelResult_testBit g _ _ (Memory.wf_read_lt hmem _), if_neg hk]

/-- Settles O38. -/
theorem lineDrawsItsPoints : Obligations.LineDrawsItsPoints :=
  fun _ _ _ _ _ hw hp hb hd hu hr hv => line_run hw hp hb hv hu hr hd

/-- Settles O40. -/
theorem boxDrawsFourEdges : Obligations.BoxDrawsFourEdges :=
  fun _ _ _ _ _ hw hp hb hd hu hr hv => box_run hw hp hb hv hu hr hd

end Sys2Proof.Machine

/-! SUPPORT. The commands that CMD runs word by word or byte by byte: `BITBLIT` (R206 to R208), `CLEAR` (R185), `FBINIT` (R186 to R188). -/

namespace Sys2Proof.Machine

/-! ### Turns of CMD in a row -/

/-- Some number of CMD turns leads from the one state to the other, whatever follows in the schedule. -/
def CmdReaches (s t : State) : Prop := ∃ k, ∀ ts, runTurns (List.replicate k .cmd ++ ts) s = runTurns ts t

theorem CmdReaches.trans {s t u : State} (h : CmdReaches s t) (h' : CmdReaches t u) : CmdReaches s u := by
  obtain ⟨k, hk⟩ := h
  obtain ⟨l, hl⟩ := h'
  exact ⟨k + l, fun ts => by rw [List.replicate_add, List.append_assoc, hk, hl]⟩

theorem CmdReaches.step {s t : State} {i : Instr} (hw : s.cfg.wf = true) (hb : s.cmdBusy = true)
    (hd : decodeFrame s.cmdFrame = .ok i) (h : exec i s = .next t) : CmdReaches s t :=
  ⟨1, fun _ => runTurns_next hw (takeTurn_cmd hb hd h)⟩

/-! ### `BITBLIT` -/

/-- The word memory after a column: its point is plotted if its bit is set (R206). -/
def plotColumn (s : State) (x0 y0 : Int) (row col : Nat) (byte : BitVec 8) (wm : WordMem) : WordMem :=
  if blitPixel byte col = true then plot s.cfg s.pixact wm (x0 + col, y0 + row) else wm

/-- The byte that holds column `col` of row `row` (R207). -/
def columnByte (s : State) (bmp : Addr) (cols row col : Nat) : BitVec 8 := s.readByte (blitAddr bmp cols row (col / 8))

/-- The points of a row from column `col` on. -/
def rowPointsFrom (bm : ByteMem) (x0 y0 : Int) (cols : Nat) (bmp : Addr) (row col n : Nat) : List (Int × Int) :=
  ((List.range' col n).filter (bitmapLit bm bmp cols row)).map fun (c : Nat) => (x0 + (c : Int), y0 + (row : Int))

theorem blitPoints_eq (bm : ByteMem) (x0 y0 : Int) (cols rows : Nat) (bmp : Addr) :
    blitPoints bm x0 y0 cols rows bmp = (List.range' 0 rows).flatMap fun row => rowPointsFrom bm x0 y0 cols bmp row 0 cols := by
  simp only [blitPoints, rowPointsFrom, List.range_eq_range']

/-- A row's points from a column on: the column's own, if its bit is set, and those after it. -/
theorem plotAll_rowPointsFrom_succ (s : State) (x0 y0 : Int) (cols : Nat) (bmp : Addr) (row col n : Nat) (wm : WordMem) :
    plotAll s.cfg s.pixact wm (rowPointsFrom s.bm x0 y0 cols bmp row col (n + 1)) =
      plotAll s.cfg s.pixact (plotColumn s x0 y0 row col (columnByte s bmp cols row col) wm)
        (rowPointsFrom s.bm x0 y0 cols bmp row (col + 1) n) := by
  have hbit : bitmapLit s.bm bmp cols row col = blitPixel (columnByte s bmp cols row col) col := rfl
  rw [rowPointsFrom, List.range'_succ, List.filter_cons, hbit, plotColumn]
  split_ifs <;> rfl

section
variable {s : State} {x0 y0 cols rows : BitVec 16} {bmp : Addr}
  (hw : s.cfg.wf = true) (hp : s.cfg.platformComplete = true) (hb : s.cmdBusy = true) (hv : s.vretrace = true)
  (hd : decodeFrame s.cmdFrame = .ok (.bitblit x0 y0 cols rows bmp))
include hw hp hb hv hd

/-- One column: its point, and on to the next place (R206, R208). -/
theorem blit_column {row col : Nat} {byte : BitVec 8} (wm : WordMem) (hrow : row < rows.toNat) (hcol : col < cols.toNat) :
    CmdReaches (atMicro s (.blitBit row col byte .entry) wm)
      ((atMicro s .first (plotColumn s x0.toInt y0.toInt row col byte wm)).moveOn
        (nextPlace (.bitblit x0 y0 cols rows bmp) (.blitBit row col byte .entry))) := by
  cases hbit : blitPixel byte col with
  | false =>
    refine .step hw hb hd ((exec_entry_unwanted (s := atMicro s (.blitBit row col byte .entry) wm)
      ((microOk_bit_iff _).2 ⟨⟨hrow, hcol⟩, .inl rfl⟩) hbit).trans ?_)
    rw [plotColumn, if_neg (by simp [hbit])]
    exact congrArg Host.Outcome.next (State.moveOn_setMicro (atMicro s .first wm) (.blitBit row col byte .entry) _)
  | true =>
    have hgpix : ∀ (wm : WordMem) (ph : PixPhase), exec (.bitblit x0 y0 cols rows bmp) (atMicro s (.blitBit row col byte ph) wm) =
        gpixStep (x0.toInt + col) (y0.toInt + row) ph (.blitBit row col byte) (atMicro s (.blitBit row col byte ph) wm)
          (blitAdvance (zext16 cols) (zext16 rows) row col byte) := fun wm ph => if_pos hbit
    refine ⟨_, fun ts => (pixel_run (fin := fun wm => (atMicro s .first wm).moveOn
      (nextPlace (.bitblit x0 y0 cols rows bmp) (.blitBit row col byte .entry))) hw hp hb hd hv (hgpix wm .entry)
      (fun wm ph _ => hgpix wm ph) fun u wm => ?_).trans ?_⟩
    · rw [blitAdvance_eq x0 y0 cols rows bmp row col byte .entry]
      exact congrArg Host.Outcome.next (State.moveOn_setMicro (atMicro s .first wm) u _)
    · rw [plotColumn, if_pos hbit]

variable (hmap : ∀ row j, row < rows.toNat → 8 * j < cols.toNat → s.cfg.bmMapped (blitAddr bmp cols.toNat row j) = true)
include hmap

omit hp hv in
/-- The read of a byte (R207). -/
theorem blit_fetch {row j : Nat} (wm : WordMem) (hrow : row < rows.toNat) (hj : 8 * j < cols.toNat) :
    CmdReaches (atMicro s (.blitFetch row j) wm)
      (atMicro s (.blitBit row (8 * j) (columnByte s bmp cols.toNat row (8 * j)) .entry) wm) := by
  refine .step hw hb hd ((exec_bitblit_fetch (s := atMicro s (.blitFetch row j) wm) rfl x0 y0 cols rows bmp).trans
    ((if_pos (hmap row j hrow hj)).trans ?_))
  rw [columnByte, Nat.mul_div_cancel_left j (by decide)]
  rfl

/-- From a column to the next one of its row, by way of a byte read or without (R206, R207). -/
theorem blit_next_column {row col : Nat} (wm : WordMem) (hrow : row < rows.toNat) (hcol : col + 1 < cols.toNat) :
    CmdReaches (atMicro s (.blitBit row col (columnByte s bmp cols.toNat row col) .entry) wm)
      (atMicro s (.blitBit row (col + 1) (columnByte s bmp cols.toNat row (col + 1)) .entry)
        (plotColumn s x0.toInt y0.toInt row col (columnByte s bmp cols.toNat row col) wm)) := by
  have hcolumn := blit_column (byte := columnByte s bmp cols.toNat row col) hw hp hb hv hd wm hrow (Nat.lt_of_succ_lt hcol)
  simp only [nextPlace, if_pos hcol, State.moveOn_some] at hcolumn
  by_cases h8 : (col + 1) % 8 = 0
  · rw [if_pos h8] at hcolumn
    have hmul : 8 * ((col + 1) / 8) = col + 1 := by omega
    have hfetch := blit_fetch hw hb hd hmap (plotColumn s x0.toInt y0.toInt row col (columnByte s bmp cols.toNat row col) wm) hrow
      (j := (col + 1) / 8) (by omega)
    rw [hmul] at hfetch
    exact hcolumn.trans hfetch
  · rw [if_neg h8] at hcolumn
    have hbyte : columnByte s bmp cols.toNat row (col + 1) = columnByte s bmp cols.toNat row col := by
      rw [columnByte, columnByte, show (col + 1) / 8 = col / 8 by omega]
    rw [hbyte]
    exact hcolumn

omit hw hp hb hv hd hmap in
/-- Where a row leads: to the first byte of the next row, or to the response. -/
def afterRow (s : State) (rows row : Nat) (wm : WordMem) : State :=
  if row + 1 < rows then atMicro s (.blitFetch (row + 1) 0) wm else answered s wm

/-- A row from a column to its end (R206). -/
theorem blit_row {row : Nat} (hrow : row < rows.toNat) (n : Nat) : ∀ (col : Nat) (wm : WordMem), col + (n + 1) = cols.toNat →
    CmdReaches (atMicro s (.blitBit row col (columnByte s bmp cols.toNat row col) .entry) wm)
      (afterRow s rows.toNat row
        (plotAll s.cfg s.pixact wm (rowPointsFrom s.bm x0.toInt y0.toInt cols.toNat bmp row col (n + 1)))) := by
  induction n with
  | zero =>
    intro col wm hcol
    have hcolumn := blit_column (col := col) (byte := columnByte s bmp cols.toNat row col) hw hp hb hv hd wm hrow (by omega)
    simp only [nextPlace, if_neg (show ¬col + 1 < cols.toNat by omega)] at hcolumn
    rw [plotAll_rowPointsFrom_succ, afterRow]
    split_ifs at hcolumn ⊢ <;> exact hcolumn
  | succ n ih =>
    intro col wm hcol
    rw [plotAll_rowPointsFrom_succ]
    exact (blit_next_column hw hp hb hv hd hmap wm hrow (by omega)).trans (ih (col + 1) _ (by omega))

/-- The bitmap from a row to its end (R206). -/
theorem blit_rows (hcols : 0 < cols.toNat) (n : Nat) : ∀ (row : Nat) (wm : WordMem), row + (n + 1) = rows.toNat →
    CmdReaches (atMicro s (.blitFetch row 0) wm)
      (answered s (plotAll s.cfg s.pixact wm ((List.range' row (n + 1)).flatMap fun row =>
        rowPointsFrom s.bm x0.toInt y0.toInt cols.toNat bmp row 0 cols.toNat))) := by
  have onerow : ∀ (row : Nat) (wm : WordMem), row < rows.toNat → CmdReaches (atMicro s (.blitFetch row 0) wm)
      (afterRow s rows.toNat row (plotAll s.cfg s.pixact wm (rowPointsFrom s.bm x0.toInt y0.toInt cols.toNat bmp row 0 cols.toNat))) := by
    intro row wm hrow
    have hrest := blit_row hw hp hb hv hd hmap hrow (cols.toNat - 1) 0 wm (by omega)
    rw [Nat.sub_add_cancel hcols] at hrest
    exact (blit_fetch hw hb hd hmap wm hrow (j := 0) (by omega)).trans hrest
  induction n with
  | zero =>
    intro row wm hrow
    have h := onerow row wm (by omega)
    rw [afterRow, if_neg (by omega)] at h
    simpa using h
  | succ n ih =>
    intro row wm hrow
    have h := onerow row wm (by omega)
    rw [afterRow, if_pos (by omega)] at h
    rw [List.range'_succ, List.flatMap_cons, plotAll_append]
    exact h.trans (ih (row + 1) _ (by omega))

end

/-- Settles O41: an empty bitmap responds in its first step, any other is drawn row by row. -/
theorem bitblitDrawsTheSetBits : Obligations.BitblitDrawsTheSetBits := by
  intro s x0 y0 cols rows bmp hw hp hb hd hu hr hv hmap
  have hfirst := exec_bitblit_first hu hr x0 y0 cols rows bmp
  rw [blitPoints_eq]
  have hreach : CmdReaches s (answered s (plotAll s.cfg s.pixact s.wm ((List.range' 0 rows.toNat).flatMap fun row =>
      rowPointsFrom s.bm x0.toInt y0.toInt cols.toNat bmp row 0 cols.toNat))) := by
    by_cases hempty : cols = 0 ∨ rows = 0
    · rw [if_pos hempty] at hfirst
      have hnone : ((List.range' 0 rows.toNat).flatMap fun row =>
          rowPointsFrom s.bm x0.toInt y0.toInt cols.toNat bmp row 0 cols.toNat) = [] := by
        rcases hempty with rfl | rfl <;> simp [rowPointsFrom]
      rw [hnone]
      exact .step hw hb hd hfirst
    · rw [if_neg hempty] at hfirst
      simp only [← zext16_eq_zero, zext16, not_or] at hempty
      have hrest := blit_rows hw hp hb hv hd hmap (Nat.pos_of_ne_zero hempty.1) (rows.toNat - 1) 0 s.wm (by omega)
      rw [Nat.sub_add_cancel (Nat.pos_of_ne_zero hempty.2)] at hrest
      exact (CmdReaches.step hw hb hd hfirst).trans hrest
  obtain ⟨k, hk⟩ := hreach
  have hrun := hk []
  rw [List.append_nil] at hrun
  exact ⟨k, hrun⟩

/-! ### `CLEAR` and `FBINIT` -/

theorem atMicro_self {s : State} {u : UState} (hu : s.ustate = u) : atMicro s u s.wm = s := by
  subst hu
  rfl

section
variable {s : State} (hw : s.cfg.wf = true) (hp : s.cfg.platformComplete = true)
include hw hp

/-- A word of `CLEAR` in a run. -/
theorem exec_clear_atMicro (colour : Bool) (wm : WordMem) {r j : Nat} (hr : r < s.cfg.yRes) (hj : j < s.cfg.avo + s.cfg.xw) :
    exec (.clear colour) (atMicro s (.clear r j) wm) =
      match nextWord s.cfg.avo (s.cfg.avo + s.cfg.xw) s.cfg.yRes r j with
      | some (r', j') => .next (atMicro s (.clear r' j')
          (Memory.write wmDefault wm (s.cfg.fbw r j).toNat (colourPattern s.cfg colour)))
      | none => .next (answered s (Memory.write wmDefault wm (s.cfg.fbw r j).toNat (colourPattern s.cfg colour))) := by
  have g := (Config.wf_iff_good _).1 hw
  have hmap : (atMicro s (.clear r j) wm).cfg.mapped (s.cfg.fbw r j) = true := Config.fbw_mapped g hp hr (by have := g.row; omega)
  refine (exec_clear_word (s := atMicro s (.clear r j) wm) rfl).trans ((storeStep_mapped hmap).trans ?_)
  show Host.Outcome.next (State.moveOn _ ((nextWord s.cfg.avo (s.cfg.avo + s.cfg.xw) s.cfg.yRes r j).map _)) = _
  cases nextWord s.cfg.avo (s.cfg.avo + s.cfg.xw) s.cfg.yRes r j <;> rfl

/-- A word of the zero-fill in a run. -/
theorem exec_fbZero_atMicro (wm : WordMem) {r j : Nat} (hr : r < s.cfg.yRes) (hj : j < s.cfg.lineWords) :
    exec .fbinit (atMicro s (.fbZero r j) wm) =
      match nextWord 0 s.cfg.lineWords s.cfg.yRes r j with
      | some (r', j') => .next (atMicro s (.fbZero r' j') (Memory.write wmDefault wm (s.cfg.fbw r j).toNat 0))
      | none => .next (atMicro s (afterZeroFill s.cfg) (Memory.write wmDefault wm (s.cfg.fbw r j).toNat 0)) := by
  have g := (Config.wf_iff_good _).1 hw
  have hmap : (atMicro s (.fbZero r j) wm).cfg.mapped (s.cfg.fbw r j) = true := Config.fbw_mapped g hp hr hj
  refine (exec_fbZero (s := atMicro s (.fbZero r j) wm) rfl).trans ((storeStep_mapped hmap).trans ?_)
  show Host.Outcome.next (State.setMicro _ ((nextWord 0 s.cfg.lineWords s.cfg.yRes r j).elim _ _)) = _
  cases nextWord 0 s.cfg.lineWords s.cfg.yRes r j <;> rfl

/-- A word of the seeding in a run, while the blank table reads as it did at first. -/
theorem exec_fbPrefix_atMicro {wm : WordMem} {r j : Nat} (hr : r < s.cfg.yRes) (hj : j < s.cfg.avo)
    (hblank : Memory.read wmDefault wm (blankWordAddr s.cfg j).toNat = s.readWord (blankWordAddr s.cfg j)) :
    exec .fbinit (atMicro s (.fbPrefix r j) wm) =
      match nextWord 0 s.cfg.avo s.cfg.yRes r j with
      | some (r', j') => .next (atMicro s (.fbPrefix r' j')
          (Memory.write wmDefault wm (s.cfg.fbw r j).toNat (s.readWord (blankWordAddr s.cfg j))))
      | none => .next (atMicro s .fbReady
          (Memory.write wmDefault wm (s.cfg.fbw r j).toNat (s.readWord (blankWordAddr s.cfg j)))) := by
  have g := (Config.wf_iff_good _).1 hw
  have hrow := g.row
  have hmap : (atMicro s (.fbPrefix r j) wm).cfg.mapped (s.cfg.fbw r j) = true := Config.fbw_mapped g hp hr (by omega)
  refine (exec_fbPrefix (s := atMicro s (.fbPrefix r j) wm) rfl (blankWord_mapped g hp (by omega))).trans
    ((storeStep_mapped hmap).trans ?_)
  rw [← hblank]
  show Host.Outcome.next (State.setMicro _ ((nextWord 0 s.cfg.avo s.cfg.yRes r j).elim _ _)) = _
  cases nextWord 0 s.cfg.avo s.cfg.yRes r j <;> rfl

end

/-- Settles O42: the first step goes to the first word, and the rest is one fill of a rectangle of words. -/
theorem clearFillsTheActiveWords : Obligations.ClearFillsTheActiveWords := by
  intro s colour hw hp hmem hb hd hu hr
  have g := (Config.wf_iff_good _).1 hw
  have hy := g.yRes
  have hx := g.xw_pos
  obtain ⟨wm, hrun, -, -, hin, hout⟩ := fill_run (s := s) (lo := s.cfg.avo) (hi := s.cfg.avo + s.cfg.xw) (rows := s.cfg.yRes)
    (f := .clear) (val := fun _ => colourPattern s.cfg colour) (ts := []) (last := answered s) hb hw hd (by omega) g.row (le_refl _)
    (fun _ => True) (fun _ _ _ _ _ _ _ => trivial) (fun wm r j _ hr _ hj => exec_clear_atMicro hw hp colour wm hr hj)
    (s.cfg.yRes * s.cfg.xw) 0 s.cfg.avo s.wm trivial (by omega) (le_refl _) (by omega) (by simp) (Memory.wf_rising hmem)
  refine ⟨wm, ?_, fun r i hr hlo hhi => ?_, fun b hb => hout b fun r j h1 h2 h3 _ => hb r j h1 h2 h3⟩
  · rw [List.append_nil] at hrun
    rw [List.replicate_succ, runTurns_next hw (takeTurn_cmd hb hd (exec_clear_first hu hr colour))]
    exact hrun
  · rw [hin r i hr hlo hhi (by omega), colourPattern_eq]

/-- The blank table reads in `wm` as it does in `s`. -/
def BlankKept (s : State) (wm : WordMem) : Prop :=
  Memory.rising wm = true ∧
    ∀ j, j < s.cfg.lineWords → Memory.read wmDefault wm (blankWordAddr s.cfg j).toNat = s.readWord (blankWordAddr s.cfg j)

theorem BlankKept.write {s : State} {wm : WordMem} (g : s.cfg.Good) (h : BlankKept s wm) {r i : Nat} {v : WordVal} (hr : r < s.cfg.yRes)
    (hi : i < s.cfg.lineWords) : BlankKept s (Memory.write wmDefault wm (s.cfg.fbw r i).toNat v) := by
  refine ⟨Memory.write_rising _ _ _ h.1, fun j hj => ?_⟩
  rw [Memory.read_write_other _ _ _ _ h.1 fun e => g.blank_ne_fbw hr hi hj (BitVec.eq_of_toNat_eq e)]
  exact h.2 j hj

section
variable {s : State} (hw : s.cfg.wf = true) (hp : s.cfg.platformComplete = true) (hb : s.cmdBusy = true)
  (hd : decodeFrame s.cmdFrame = .ok .fbinit)
include hw hp hb hd

/-- The zero-fill (R186). -/
theorem fbZero_run (hrise : Memory.rising s.wm = true) (ts : List Turn) :
    ∃ wm, runTurns (List.replicate (s.cfg.yRes * s.cfg.lineWords) .cmd ++ ts) (atMicro s (.fbZero 0 0) s.wm) =
        runTurns ts (atMicro s (afterZeroFill s.cfg) wm) ∧ BlankKept s wm ∧
      (∀ r i, r < s.cfg.yRes → i < s.cfg.lineWords → Memory.read wmDefault wm (s.cfg.fbw r i).toNat = 0) ∧
      (∀ b, s.cfg.fbRegion.contains b = false → Memory.read wmDefault wm b = Memory.read wmDefault s.wm b) := by
  have g := (Config.wf_iff_good _).1 hw
  have hy := g.yRes
  have hl := g.lineWords_pos
  obtain ⟨wm, hrun, hblank, -, hin, hout⟩ := fill_run (s := s) (lo := 0) (hi := s.cfg.lineWords) (rows := s.cfg.yRes) (f := .fbZero)
    (val := fun _ => 0) (ts := ts) (last := atMicro s (afterZeroFill s.cfg)) hb hw hd (by omega) (le_refl _) (le_refl _)
    (BlankKept s) (fun wm r j hq hr _ hj => hq.write g hr hj) (fun wm r j _ hr _ hj => exec_fbZero_atMicro hw hp wm hr hj)
    (s.cfg.yRes * s.cfg.lineWords) 0 0 s.wm ⟨hrise, fun _ _ => rfl⟩ (by omega) (le_refl _) (by omega) (by simp) hrise
  refine ⟨wm, hrun, hblank, fun r i hr hi => hin r i hr (Nat.zero_le _) hi (by omega), fun b hfb => hout b fun r j hr _ hj _ => ?_⟩
  rintro rfl
  exact absurd (hfb.symm.trans (g.fbw_in_fb hr hj)) (by decide)

/-- The seeding of the row starts (R187), which has nothing to do when `AVO = 0`. -/
theorem fbPrefix_run {wm : WordMem} (hblank : BlankKept s wm) (ts : List Turn) :
    ∃ wm', runTurns (List.replicate (s.cfg.yRes * s.cfg.avo) .cmd ++ ts) (atMicro s (afterZeroFill s.cfg) wm) =
        runTurns ts (atMicro s .fbReady wm') ∧
      (∀ r i, r < s.cfg.yRes → i < s.cfg.avo →
        Memory.read wmDefault wm' (s.cfg.fbw r i).toNat = s.readWord (blankWordAddr s.cfg i)) ∧
      (∀ b, (∀ r i, r < s.cfg.yRes → i < s.cfg.avo → b ≠ (s.cfg.fbw r i).toNat) →
        Memory.read wmDefault wm' b = Memory.read wmDefault wm b) := by
  have g := (Config.wf_iff_good _).1 hw
  have hy := g.yRes
  have hrow := g.row
  by_cases ha : 0 < s.cfg.avo
  · obtain ⟨wm', hrun, -, -, hin, hout⟩ := fill_run (s := s) (lo := 0) (hi := s.cfg.avo) (rows := s.cfg.yRes) (f := .fbPrefix)
      (val := fun i => s.readWord (blankWordAddr s.cfg i)) (ts := ts) (last := atMicro s .fbReady) hb hw hd ha (by omega) (le_refl _)
      (BlankKept s) (fun wm r j hq hr _ hj => hq.write g hr (by omega))
      (fun wm r j hq hr _ hj => exec_fbPrefix_atMicro hw hp hr hj (hq.2 j (by omega)))
      (s.cfg.yRes * s.cfg.avo) 0 0 wm hblank (by omega) (le_refl _) ha (by simp) hblank.1
    rw [afterZeroFill, if_pos ha]
    exact ⟨wm', hrun, fun r i hr hi => hin r i hr (Nat.zero_le _) hi (by omega), fun b h => hout b fun r j hr _ hj _ => h r j hr hj⟩
  · have ha0 : s.cfg.avo = 0 := by omega
    refine ⟨wm, ?_, fun r i _ hi => absurd hi (by omega), fun _ _ => rfl⟩
    rw [afterZeroFill, if_neg ha, ha0]
    rfl

end

/-- Settles O43: the test, the zero-fill, the seeding, and the step that sets `FB_READY`. -/
theorem fbinitSeedsTheFramebuffer : Obligations.FbinitSeedsTheFramebuffer := by
  intro s hw hp hmem hb hd hu hr
  have g := (Config.wf_iff_good _).1 hw
  have hrow := g.row
  obtain ⟨wm, hzero, hblank, hzeros, hout⟩ := fbZero_run hw hp hb hd (Memory.wf_rising hmem)
    (List.replicate (s.cfg.yRes * s.cfg.avo) .cmd ++ [.cmd])
  obtain ⟨wm', hcopy, hprefix, hother⟩ := fbPrefix_run hw hp hb hd hblank [.cmd]
  have hfirst : exec .fbinit s = .next (atMicro s (.fbZero 0 0) s.wm) := (exec_fbinit_first hu).trans (by rw [if_neg (by simp [hr])]; rfl)
  have hlast : runTurns [.cmd] (atMicro s .fbReady wm') = .next { drawn s wm' with fbReady := true } :=
    runTurns_next (s := atMicro s .fbReady wm') hw (takeTurn_cmd (s := atMicro s .fbReady wm') hb hd (exec_fbReady rfl))
  refine ⟨wm', ?_, hprefix, fun r i hr hlo hi => ?_, fun b hfb => ?_⟩
  · have hturns : List.replicate (s.cfg.yRes * s.cfg.lineWords + s.cfg.yRes * s.cfg.avo + 2) Turn.cmd =
        .cmd :: (List.replicate (s.cfg.yRes * s.cfg.lineWords) .cmd ++ (List.replicate (s.cfg.yRes * s.cfg.avo) .cmd ++ [.cmd])) := by
      rw [List.replicate_succ, List.replicate_succ', List.replicate_add, List.append_assoc]
    rw [hturns, runTurns_next hw (takeTurn_cmd hb hd hfirst), hzero, hcopy, hlast]
  · rw [hother _ fun r' j hr' hj e => ?_, hzeros r i hr hi]
    obtain ⟨-, rfl⟩ := g.fbw_inj hr hi hr' (by omega) (BitVec.eq_of_toNat_eq e)
    omega
  · rw [hother b fun r i hr hi e => ?_, hout b hfb]
    subst e
    exact absurd (hfb.symm.trans (g.fbw_in_fb hr (by omega))) (by decide)

end Sys2Proof.Machine

/-! SUPPORT. A transfer left to XFER (R78, R152, R153), and the write that slips past the gate (R272). -/

namespace Sys2Proof.Machine

/-! ### Beats in a row -/

/-- The words that the next `k` beats read (R152). -/
def beatWords (s : State) (k : Nat) : List WordVal := (List.range k).map fun j => s.readWord (s.dmaAddr + BitVec.ofNat 32 j)

/-- The state after `k` beats. -/
def afterBeats (s : State) (k : Nat) : State :=
  { s with
    dmaAddr := s.dmaAddr + BitVec.ofNat 32 k
    dmaRemain := s.dmaRemain - BitVec.ofNat 32 k
    out := (beatWords s k).foldl appendWord s.out }

theorem afterBeats_zero (s : State) : afterBeats s 0 = s := by simp [afterBeats, beatWords]

theorem afterBeats_succ (s : State) (k : Nat) : (afterBeats s k).emitWord = afterBeats s (k + 1) := by
  have haddr : s.dmaAddr + BitVec.ofNat 32 k + 1 = s.dmaAddr + BitVec.ofNat 32 (k + 1) := by
    rw [BitVec.ofNat_add, ← BitVec.add_assoc]
    rfl
  have hremain : s.dmaRemain - BitVec.ofNat 32 k - 1 = s.dmaRemain - BitVec.ofNat 32 (k + 1) := by bv_omega
  have hout : appendWord ((beatWords s k).foldl appendWord s.out) (s.readWord (s.dmaAddr + BitVec.ofNat 32 k)) =
      (beatWords s (k + 1)).foldl appendWord s.out := by simp [beatWords, List.range_succ]
  simp only [afterBeats, ← haddr, ← hremain, ← hout]
  rfl

/-- Beats at mapped words, as many as are left or fewer. -/
theorem beats_run {s : State} (hw : s.cfg.wf = true) (hb : s.dmaBusy = true) (k : Nat) :
    k ≤ s.dmaRemain.toNat → (∀ j, j < k → s.cfg.mapped (s.dmaAddr + BitVec.ofNat 32 j) = true) → ∀ ts,
      runTurns (List.replicate k .xfer ++ ts) s = runTurns ts (afterBeats s k) := by
  induction k with
  | zero =>
    intro _ _ ts
    rw [afterBeats_zero]
    rfl
  | succ k ih =>
    intro hk hmap ts
    have hne : s.dmaRemain - BitVec.ofNat 32 k ≠ 0 := by bv_omega
    have hbeat : takeTurn .xfer (afterBeats s k) = .next (afterBeats s (k + 1)) :=
      xferTurn_next.2 ⟨hb, .inr ⟨hne, hmap k (by omega), (afterBeats_succ s k).symm⟩⟩
    rw [List.replicate_succ', List.append_assoc, List.singleton_append, ih (by omega) (fun j hj => hmap j (by omega)),
      runTurns_next (s := afterBeats s k) hw hbeat]

/-- The state after the words that are left and `DONE` (R153). -/
def afterTransfer (s : State) : State := (afterBeats s s.dmaRemain.toNat).raiseCompletion

/-- A transfer whose remaining words are mapped, left to XFER, comes to its completion. -/
theorem transfer_run {s : State} (hw : s.cfg.wf = true) (hb : s.dmaBusy = true)
    (hmap : ∀ j, j < s.dmaRemain.toNat → s.cfg.mapped (s.dmaAddr + BitVec.ofNat 32 j) = true) (ts : List Turn) :
    runTurns (List.replicate (s.dmaRemain.toNat + 1) .xfer ++ ts) s = runTurns ts (afterTransfer s) := by
  have hzero : s.dmaRemain - BitVec.ofNat 32 s.dmaRemain.toNat = 0 := by
    rw [BitVec.ofNat_toNat, BitVec.setWidth_eq, BitVec.sub_self]
    rfl
  have hdone : takeTurn .xfer (afterBeats s s.dmaRemain.toNat) = .next (afterTransfer s) := xferTurn_next.2 ⟨hb, .inl ⟨hzero, rfl⟩⟩
  rw [List.replicate_succ', List.append_assoc, beats_run hw hb _ (le_refl _) hmap, List.singleton_append,
    runTurns_next (s := afterBeats s _) hw hdone]

/-- Settles O25: the beats that are left, and `DONE`. -/
theorem transferEmitsAscendingWordsThenCompletes : Obligations.TransferEmitsAscendingWordsThenCompletes := by
  intro s hw hb hmap
  have hrun := transfer_run hw hb hmap []
  rw [List.append_nil] at hrun
  rw [hrun, runTurns_nil]
  simp [afterTransfer, afterBeats, State.raiseCompletion, State.setTurns, beatWords]

/-! ### The write that slips past the gate -/

/-- Beats go into the last record. -/
theorem foldl_appendWord_concat (l : List Record) (r : Record) (ws : List WordVal) :
    ws.foldl appendWord (l ++ [r]) = l ++ [{ r with words := r.words ++ ws }] := by
  induction ws generalizing r with
  | nil => simp
  | cons w ws ih => rw [List.foldl_cons, appendWord_concat, ih, List.append_assoc, List.singleton_append]

/-- A word of a row, counted from the row's first (R34). -/
theorem fbw_add (c : Config) (r j : Nat) : c.fbw r 0 + BitVec.ofNat 32 j = c.fbw r j := by
  rw [Config.fbw, Config.fbw, BitVec.add_assoc, ← BitVec.ofNat_add, Nat.add_zero]

/-- The first row that a field scans (R35, R126). -/
theorem fieldPointer_eq_fbw (c : Config) (f : Field) : fieldPointer c f = c.fbw (if f = .even then 1 else 0) 0 := by
  cases f <;> simp [fieldPointer, Config.fbw, Config.evenPtr, Config.oddPtr]

/-- The state after `LINESTEP` at line 30: the flag is down, and the transfer of the field's first row is armed (R126, R151). -/
def afterActfirst (s : State) : State := (opState (.actfirst s.field s.scanLine) s).advanceCursor.openTransfer

theorem seqTurn_actfirst {s : State} (hn : s.scanLine = 30) (hp : s.irqPending = true) (hb : s.dmaBusy = false) :
    takeTurn .seq s = .next (afterActfirst s) := by
  obtain ⟨-, -, -, -, hactfirst, -⟩ := decodeScan_range s.field s.scanLine
  exact seqTurn_next.2 ⟨hp, _, hactfirst (by simp [hn]), hb, rfl⟩

/-- The length of a line fits its register (R8(e)). -/
theorem lineWords_lt {c : Config} (g : c.Good) : c.lineWords < 2 ^ 32 := by
  have hrows : 432 * c.lineWords ≤ c.yRes * c.lineWords := Nat.mul_le_mul_right _ g.yRes
  have hfb := g.fb
  have hpos := g.lineWords_pos
  omega

/-- The write step of a `SETPIXEL` in range (R184). -/
theorem cmdTurn_setpixel_write {s : State} {x y : BitVec 16} (g : s.cfg.Good) (hp : s.cfg.platformComplete = true)
    (hb : s.cmdBusy = true) (hd : decodeFrame s.cmdFrame = .ok (.setpixel x y)) (hu : s.ustate = .pixel .write)
    (hin : inBounds s.cfg x.toInt y.toInt = true) :
    takeTurn .cmd s = .next (answered s (plot s.cfg s.pixact s.wm (x.toInt, y.toInt))) := by
  refine takeTurn_cmd hb hd ((exec_write (x := x.toInt) (y := y.toInt) (by simp [hu, microOk, sext16, hin]) (by rw [hu]; rfl)
    (by rw [hu]; rfl) (pixelAddr_mapped g hp hin)).trans ?_)
  rw [hu]
  rfl

/-- The passed poll of a `SETPIXEL` (R182). -/
theorem cmdTurn_setpixel_poll {s : State} {x y : BitVec 16} (hb : s.cmdBusy = true)
    (hd : decodeFrame s.cmdFrame = .ok (.setpixel x y)) (hu : s.ustate = .pixel .poll) (hv : s.vretrace = true)
    (hin : inBounds s.cfg x.toInt y.toInt = true) : takeTurn .cmd s = .next (s.setMicro (.pixel .write)) := by
  refine takeTurn_cmd hb hd ((gateHoldsUntilRetrace (.setpixel x y) s rfl (by simp [hu, microOk, sext16, hin]) (by rw [hu]; rfl)).trans ?_)
  rw [if_pos hv, hu]
  rfl

/-- After the passed poll and `ACTFIRST`: the write is next, and the scan of the field's first row begins. -/
def atScan (s : State) : State := afterActfirst (s.setMicro (.pixel .write))

/-- After `k` beats of that scan and the write at `p`. -/
def writtenInScan (s : State) (k : Nat) (p : Int × Int) : State := answered (afterBeats (atScan s) k) (plot s.cfg s.pixact s.wm p)

theorem atScan_dmaAddr (s : State) : (atScan s).dmaAddr = s.cfg.fbw (if s.field = .even then 1 else 0) 0 := fieldPointer_eq_fbw s.cfg s.field

theorem atScan_dmaRemain {s : State} (g : s.cfg.Good) : (atScan s).dmaRemain.toNat = s.cfg.lineWords := Nat.mod_eq_of_lt (lineWords_lt g)

theorem writtenInScan_dmaAddr (s : State) (k : Nat) (p : Int × Int) :
    (writtenInScan s k p).dmaAddr = s.cfg.fbw (if s.field = .even then 1 else 0) k := by
  rw [← fbw_add, ← atScan_dmaAddr]
  rfl

theorem writtenInScan_out (s : State) (k : Nat) (p : Int × Int) :
    (writtenInScan s k p).out =
      s.out ++ [⟨s.cfg.fbw (if s.field = .even then 1 else 0) 0, BitVec.ofNat 32 s.cfg.lineWords, beatWords (atScan s) k⟩] := by
  rw [← fieldPointer_eq_fbw]
  exact foldl_appendWord_concat s.out ⟨fieldPointer s.cfg s.field, BitVec.ofNat 32 s.cfg.lineWords, []⟩ (beatWords (atScan s) k)

/-- The beat that follows the write reads the word just written to. -/
theorem xferTurn_writtenInScan {s : State} (g : s.cfg.Good) (hp : s.cfg.platformComplete = true) {k : Nat} (hk : k < s.cfg.lineWords)
    (p : Int × Int) : takeTurn .xfer (writtenInScan s k p) = .next (writtenInScan s k p).emitWord := by
  refine xferTurn_next.2 ⟨rfl, .inr ⟨?_, ?_, rfl⟩⟩
  · have hlt := lineWords_lt g
    have hremain := atScan_dmaRemain g
    show (atScan s).dmaRemain - BitVec.ofNat 32 k ≠ 0
    bv_omega
  · rw [writtenInScan_dmaAddr]
    exact Config.fbw_mapped g hp (by have := g.yRes; split_ifs <;> omega) hk

/-- Settles O54: the poll, `ACTFIRST`, the beats before the pixel's word, the write, and the beat of that word. -/
theorem aWriteCanSlipPastTheGate : Obligations.AWriteCanSlipPastTheGate := by
  intro s x y hw hp _ hbusy hd hu hv hn hirq hb hin hy
  have g := (Config.wf_iff_good _).1 hw
  obtain ⟨hx, hyr⟩ := inBounds_toNat hin
  have hk := g.wordIndex_lt hx
  have hrow : (if s.field = .even then 1 else 0) = y.toInt.toNat := by
    rw [hy]
    split_ifs <;> rfl
  have hpoll := cmdTurn_setpixel_poll hbusy hd hu hv hin
  have hline : takeTurn .seq (s.setMicro (.pixel .write)) = .next (atScan s) := seqTurn_actfirst hn hirq hb
  have hbeats := beats_run (s := atScan s) hw rfl (wordIndex s.cfg x.toInt.toNat) (by rw [atScan_dmaRemain g]; exact hk.le)
    (fun j hj => by
      rw [atScan_dmaAddr, hrow, fbw_add]
      exact Config.fbw_mapped g hp hyr (hj.trans hk)) [.cmd, .xfer]
  have hwrite : takeTurn .cmd (afterBeats (atScan s) (wordIndex s.cfg x.toInt.toNat)) =
      .next (writtenInScan s (wordIndex s.cfg x.toInt.toNat) (x.toInt, y.toInt)) :=
    cmdTurn_setpixel_write (s := afterBeats (atScan s) _) g hp hbusy hd rfl hin
  have hbeat := xferTurn_writtenInScan g hp hk (x.toInt, y.toInt)
  have haddr := writtenInScan_dmaAddr s (wordIndex s.cfg x.toInt.toNat) (x.toInt, y.toInt)
  have hout := writtenInScan_out s (wordIndex s.cfg x.toInt.toNat) (x.toInt, y.toInt)
  rw [hrow] at haddr hout
  refine ⟨(writtenInScan s _ _).emitWord.setTurns [], _, ?_, rfl, rfl, rfl,
    by rw [State.setTurns_out, State.emitWord_out, hout, appendWord_concat, List.getLast?_concat], rfl, ?_⟩
  · rw [List.append_assoc, List.cons_append, List.singleton_append, runTurns_next hw hpoll,
      runTurns_next (s := s.setMicro (.pixel .write)) hw hline, hbeats,
      runTurns_next (s := afterBeats (atScan s) _) hw hwrite, runTurns_next (s := writtenInScan s _ _) hw hbeat, runTurns_nil]
  · rw [List.getLast?_concat, haddr]
    rfl

end Sys2Proof.Machine

/-! SUPPORT. A started sequencer on a complete platform (R75, R159, R236): its invariants go along every run without `rst`, each scan line
comes to its end, and within one frame the flag is up. -/

namespace Sys2Proof.Machine

/-! ### The invariants of a started sequencer -/

/-- A started sequencer on a platform that maps every region, with the invariants of the engine, the signal, the records and the flag. -/
structure Live (s : State) : Prop where
  wf : s.cfg.wf = true
  complete : s.cfg.platformComplete = true
  run : s.run = true
  engine : EngineInv s
  signal : SignalInv s
  records : RecordsInv s
  retrace : RetraceInv s

/-- The invariants do not look at the schedule. -/
theorem Live.setTurns {s : State} (ts : List Turn) (h : Live s) : Live (s.setTurns ts) :=
  ⟨h.wf, h.complete, h.run, h.engine, h.signal, h.records, h.retrace⟩

theorem Live.of_setTurns {s : State} {ts : List Turn} (h : Live (s.setTurns ts)) : Live s := h.setTurns s.turns

/-- Every step but `rst` keeps the sequencer started (R26). -/
theorem step_keeps_run {s t : State} (hr : s.run = true) (hrst : ∀ d ts, s.turns ≠ .rst d :: ts) (h : step s = .next t) :
    t.run = true := by
  by_contra hne
  obtain ⟨-, ⟨-, rfl⟩ | ⟨tn, ts, ht, -⟩⟩ := step_next h
  · exact hne hr
  · obtain ⟨-, -, hrun⟩ := modeBitsHaveOneWriter s t tn ts ht h fun d e => hrst d ts (e ▸ ht)
    exact hne (hrun fun e => hne (e.trans hr)).1

theorem Live.step {s t : State} (h : Live s) (hrst : ∀ d ts, s.turns ≠ .rst d :: ts) (hs : step s = .next t) : Live t where
  wf := by rw [step_cfg hs]; exact h.wf
  complete := by rw [step_cfg hs]; exact h.complete
  run := step_keeps_run h.run hrst hs
  engine := everyStepKeepsEngineAlternation s t h.engine hs
  signal := everyStepKeepsSignalOnTheTable s t h.signal h.engine hs
  records := everyStepKeepsRecordsComplete s t h.records h.engine h.signal hs
  retrace := everyStepKeepsRetraceClosedForm s t h.retrace hs

theorem Live.turn {s t : State} {tn : Turn} (h : Live s) (hrst : ∀ d, tn ≠ .rst d) (ht : takeTurn tn s = .next t) : Live t := by
  have hs : Machine.step (s.setTurns [tn]) = .next (t.setTurns []) := by
    rw [step_turn (s := s.setTurns [tn]) h.wf rfl, State.setTurns_setTurns, takeTurn_setTurns, ht, withTurns_next]
  exact ((h.setTurns [tn]).step (fun d ts e => hrst d (by simpa using (List.cons.inj e).1)) hs).of_setTurns

/-- The invariants along a schedule without `rst`. -/
theorem Live.runTurns {ts : List Turn} (hrst : ∀ d, Turn.rst d ∉ ts) : ∀ {s t : State}, Live s → runTurns ts s = .next t → Live t := by
  induction ts with
  | nil =>
    intro s t h ht
    obtain rfl := (Host.Outcome.next.inj ht).symm
    exact h.setTurns []
  | cons tn ts ih =>
    intro s t h ht
    rw [runTurns_cons h.wf] at ht
    obtain ⟨u, hu, ht⟩ := andThen_next.1 ht
    exact ih (fun d hd => hrst d (List.mem_cons_of_mem _ hd)) (h.turn (fun d e => hrst d (by simp [e])) hu) ht

/-- The flag is a function of the number of records (R132, R155). -/
theorem Live.flag {s : State} (h : Live s) :
    s.vretrace = retraceWindow (cursorAt s.cfg s.out.length).1 (cursorAt s.cfg s.out.length).2 := by
  rw [h.retrace.2, ← h.signal.1]

/-- From any number of records on, line 1 of an odd field is at most two fields away (R132, R133). -/
theorem exists_flag_up (c : Config) (n : Nat) :
    ∃ d, d ≤ 524 ∧ retraceWindow (cursorAt c (n + d)).1 (cursorAt c (n + d)).2 = true := by
  have hodd : ∃ d, d ≤ 524 ∧ (n + d) % 262 = 1 ∧ ((n + d) / 262 % 2 = 0 ↔ c.resetParity = .odd) := by
    by_cases hp : c.resetParity = .odd
    · exact ⟨(524 + 1 - n % 524) % 524, by omega, by omega, iff_of_true (by omega) hp⟩
    · exact ⟨(524 + 263 - n % 524) % 524, by omega, by omega, iff_of_false (by omega) hp⟩
  obtain ⟨d, hd, hline, hfield⟩ := hodd
  have hcur : cursorAt c (n + d) = (.odd, 1) := by
    rw [cursorAt, hline]
    split_ifs with hz
    · rw [hfield.1 hz]
    · cases hr : c.resetParity with
      | even => rfl
      | odd => exact absurd (hfield.2 hr) hz
  exact ⟨d, hd, by rw [hcur]; rfl⟩

/-! ### Scan lines one after the other -/

/-- A word emitted opens no record. -/
theorem appendWord_length (l : List Record) (w : WordVal) : (appendWord l w).length = l.length := by
  simpa using congrArg List.length (appendWord_map_header l w)

theorem foldl_appendWord_length (ws : List WordVal) : ∀ l : List Record, (ws.foldl appendWord l).length = l.length := by
  induction ws with
  | nil => exact fun _ => rfl
  | cons w ws ih => exact fun l => (ih _).trans (appendWord_length l w)

/-- A scan line: the rest of the transfer, its completion and the handler, which opens one record and arms the next transfer. -/
theorem Live.line {s : State} (h : Live s) (hb : s.dmaBusy = true) :
    ∃ t, Machine.runTurns (lineTurns s) s = .next t ∧ Live t ∧ t.cfg = s.cfg ∧ t.dmaBusy = true ∧ t.out.length = s.out.length + 1 := by
  obtain ⟨i, hseq⟩ := seqTurn_total (s := afterTransfer s) rfl h.retrace.1 rfl
  obtain ⟨-, -, -, -, -, -, -, hbusy, -, hout, -, hcfg, -⟩ := lineStep_fields i (afterTransfer s)
  have hrun : Machine.runTurns (lineTurns s) s = .next ((opState i (afterTransfer s)).advanceCursor.openTransfer.setTurns []) := by
    rw [lineTurns, transfer_run h.wf hb (remaining_mapped h.wf h.complete hb h.signal h.records),
      runTurns_next (tn := .seq) (s := afterTransfer s) h.wf hseq, runTurns_nil]
  refine ⟨_, hrun, h.runTurns (by simp [lineTurns]) hrun, hcfg, hbusy, ?_⟩
  have hlength : (afterTransfer s).out.length = s.out.length := foldl_appendWord_length _ _
  rw [State.setTurns_out, hout, List.length_append, hlength, List.length_singleton]

/-- Each of `k` scan lines opens one record. -/
theorem Live.lines (k : Nat) : ∀ {s : State}, Live s → s.dmaBusy = true →
    ∃ t, runLines k s = .next t ∧ Live t ∧ t.cfg = s.cfg ∧ t.out.length = s.out.length + k := by
  induction k with
  | zero => exact fun h _ => ⟨_, rfl, h, rfl, rfl⟩
  | succ k ih =>
    intro s h hb
    obtain ⟨u, hu, hlive, hcfg, hbusy, hlength⟩ := h.line hb
    obtain ⟨t, ht, hlive', hcfg', hlength'⟩ := ih hlive hbusy
    exact ⟨t, andThen_next.2 ⟨u, hu, ht⟩, hlive', hcfg'.trans hcfg, by omega⟩

/-- Left to XFER and SEQ alone, the flag is up within 524 scan lines (R75). -/
theorem Live.lines_to_flag {s : State} (h : Live s) (hb : s.dmaBusy = true) :
    ∃ k t, k ≤ 524 ∧ runLines k s = .next t ∧ t.vretrace = true := by
  obtain ⟨k, hk, hup⟩ := exists_flag_up s.cfg s.out.length
  obtain ⟨t, ht, hlive, hcfg, hlength⟩ := h.lines k hb
  exact ⟨k, t, hk, ht, by rw [hlive.flag, hcfg, hlength, hup]⟩

/-! ### Weakly fair runs -/

/-- An endless, weakly fair run without `rst` through live states (R159, R236). -/
structure FairRun (σ : Nat → Turn) (ρ : Nat → State) : Prop where
  endless : EndlessRun σ ρ
  fair : WeaklyFair σ ρ
  live : ∀ k, Live (ρ k)

/-- One step of such a run opens a record, or arms nothing and adds no word to the transfer in flight. -/
theorem FairRun.step_cases {σ : Nat → Turn} {ρ : Nat → State} (h : FairRun σ ρ) (k : Nat) :
    (ρ (k + 1)).out.length = (ρ k).out.length + 1 ∨
      (ρ (k + 1)).out.length = (ρ k).out.length ∧
        ((ρ (k + 1)).dmaBusy = true → (ρ k).dmaBusy = true ∧ (ρ (k + 1)).dmaRemain.toNat ≤ (ρ k).dmaRemain.toNat) := by
  cases h.endless.shape k with
  | quiet hq =>
    obtain ⟨-, -, -, -, -, -, -, hremain, hbusy, -, hout, -⟩ := hq
    exact .inr ⟨by rw [hout], fun hb => ⟨hbusy.symm.trans hb, by rw [hremain]⟩⟩
  | line _ _ _ _ _ _ hl =>
    obtain ⟨-, -, -, -, -, -, -, -, -, hout, -⟩ := hl
    exact .inl (by rw [hout, List.length_append, List.length_singleton])
  | beat _ hne _ hbeat =>
    obtain ⟨-, -, -, -, -, -, -, hremain, hbusy, -, hout, -⟩ := hbeat
    exact .inr ⟨by rw [hout, appendWord_length], fun hb => ⟨hbusy.symm.trans hb, by rw [hremain]; bv_omega⟩⟩
  | done _ _ hdone =>
    obtain ⟨-, -, -, -, -, -, -, -, hbusy, -, hout, -⟩ := hdone
    exact .inr ⟨by rw [hout], fun hb => absurd (hbusy.symm.trans hb) (by decide)⟩
  | rst hrst =>
    obtain ⟨-, -, -, hrun, -⟩ := hrst
    exact absurd (hrun.symm.trans (h.live (k + 1)).run) (by decide)

/-- No transfer lasts for ever: each turn of XFER takes a word off it or ends it (R159). -/
theorem FairRun.not_always_busy {σ : Nat → Turn} {ρ : Nat → State} (h : FairRun σ ρ) (k : Nat)
    (hbusy : ∀ j, (ρ (k + j)).dmaBusy = true) (hle : ∀ j, (ρ (k + (j + 1))).dmaRemain.toNat ≤ (ρ (k + j)).dmaRemain.toNat) : False := by
  have hanti : Antitone fun j => (ρ (k + j)).dmaRemain.toNat := antitone_nat_of_succ_le hle
  obtain ⟨m, hmin⟩ : ∃ m, ∀ j, (ρ (k + m)).dmaRemain.toNat ≤ (ρ (k + j)).dmaRemain.toNat :=
    ⟨_, fun j => Function.argmin_le (fun j => (ρ (k + j)).dmaRemain.toNat) j⟩
  have henabled : ∀ j, k + m ≤ j → xferEnabled (ρ j) = true := by
    intro j hj
    obtain ⟨d, rfl⟩ := Nat.le.dest (show k ≤ j by omega)
    have hl := h.live (k + d)
    refine (startedSequencerNeverStalls _ hl.wf hl.complete hl.run hl.engine hl.signal hl.records).resolve_right fun hp => ?_
    have hirq : (ρ (k + d)).irqPending = true := hp
    simpa [hirq, hbusy d] using hl.engine.2 hl.run
  obtain ⟨j, hj, hturn⟩ := h.fair.xfer _ henabled
  obtain ⟨d, rfl⟩ := Nat.le.dest (show k ≤ j by omega)
  rcases h.endless.xfer_moves hturn with ⟨-, hdone⟩ | ⟨hne, hremain⟩
  · exact absurd (hdone.symm.trans (hbusy (d + 1))) (by decide)
  · have hstart : (ρ (k + d)).dmaRemain.toNat ≤ (ρ (k + m)).dmaRemain.toNat := hanti (by omega)
    have hnext : (ρ (k + m)).dmaRemain.toNat ≤ (ρ (k + d + 1)).dmaRemain.toNat := hmin (d + 1)
    rw [hremain] at hnext
    bv_omega

/-- Records keep being opened: once idle, the engine stays so until the next `LINESTEP`, which SEQ takes (R236). -/
theorem FairRun.not_always_same_record {σ : Nat → Turn} {ρ : Nat → State} (h : FairRun σ ρ) (k : Nat)
    (hsame : ∀ j, (ρ (k + (j + 1))).out.length = (ρ (k + j)).out.length) : False := by
  have hstep : ∀ j, (ρ (k + (j + 1))).dmaBusy = true →
      (ρ (k + j)).dmaBusy = true ∧ (ρ (k + (j + 1))).dmaRemain.toNat ≤ (ρ (k + j)).dmaRemain.toNat := by
    intro j
    rcases h.step_cases (k + j) with hmore | ⟨-, hback⟩
    · exact absurd (hmore.symm.trans (hsame j)) (by omega)
    · exact hback
  have hbusy : ∀ j, (ρ (k + j)).dmaBusy = true := by
    by_contra hidle
    obtain ⟨m, hm⟩ := not_forall.1 hidle
    have hstays : ∀ d, (ρ (k + (m + d))).dmaBusy = false := by
      intro d
      induction d with
      | zero => simpa using hm
      | succ d ih => exact Bool.eq_false_iff.2 fun hb => absurd ((hstep (m + d) hb).1.symm.trans ih) (by decide)
    have hpending : ∀ j, k + m ≤ j → seqEnabled (ρ j) = true := by
      intro j hj
      obtain ⟨d, rfl⟩ := Nat.le.dest hj
      have hd := hstays d
      rw [← Nat.add_assoc, (h.live _).engine.2 (h.live _).run] at hd
      simpa [seqEnabled] using hd
    obtain ⟨j, hj, hturn⟩ := h.fair.seq _ hpending
    obtain ⟨d, rfl⟩ := Nat.le.dest (show k ≤ j by omega)
    exact absurd ((h.endless.seq_moves hturn).symm.trans (hsame d)) (by omega)
  exact h.not_always_busy k hbusy fun j => (hstep j (hbusy (j + 1))).2

/-- From any point on, the next record is opened. -/
theorem FairRun.next_record {σ : Nat → Turn} {ρ : Nat → State} (h : FairRun σ ρ) (k : Nat) :
    ∃ j, k ≤ j ∧ (ρ j).out.length = (ρ k).out.length + 1 := by
  have hchange : ∃ b, k ≤ b ∧ ¬(ρ b).out.length = (ρ k).out.length := by
    by_contra hnone
    have hall : ∀ j, (ρ (k + j)).out.length = (ρ k).out.length := fun j => by_contra fun hj => hnone ⟨k + j, by omega, hj⟩
    exact h.not_always_same_record k fun j => (hall (j + 1)).trans (hall j).symm
  obtain ⟨b, hkb, hb⟩ := hchange
  obtain ⟨j, hj, hsame, hdiff⟩ := exists_last (P := fun j => (ρ j).out.length = (ρ k).out.length) hkb rfl hb
  rcases h.step_cases j with hmore | ⟨hstill, -⟩
  · exact ⟨j + 1, by omega, by rw [hmore, hsame]⟩
  · exact absurd (hstill.trans hsame) hdiff

/-- From any point on, the next `d` records are opened. -/
theorem FairRun.next_records {σ : Nat → Turn} {ρ : Nat → State} (h : FairRun σ ρ) (k d : Nat) :
    ∃ j, k ≤ j ∧ (ρ j).out.length = (ρ k).out.length + d := by
  induction d with
  | zero => exact ⟨k, le_refl k, rfl⟩
  | succ d ih =>
    obtain ⟨i, hki, hi⟩ := ih
    obtain ⟨j, hij, hj⟩ := h.next_record i
    exact ⟨j, by omega, by omega⟩

/-- From any point on, the flag is up again within 524 records (R75). -/
theorem FairRun.reaches_flag {σ : Nat → Turn} {ρ : Nat → State} (h : FairRun σ ρ) (k : Nat) :
    ∃ j, k ≤ j ∧ (ρ j).vretrace = true ∧ (ρ j).out.length ≤ (ρ k).out.length + 524 := by
  obtain ⟨d, hd, hup⟩ := exists_flag_up (ρ k).cfg (ρ k).out.length
  obtain ⟨j, hkj, hj⟩ := h.next_records k d
  have hcfg : (ρ j).cfg = (ρ k).cfg := (h.endless.cfg j).trans (h.endless.cfg k).symm
  exact ⟨j, hkj, by rw [(h.live j).flag, hcfg, hj, hup], by omega⟩

/-- An endless run without `rst` from a live state goes through live states only. -/
theorem EndlessRun.live {σ : Nat → Turn} {ρ : Nat → State} (h : EndlessRun σ ρ) (hrst : ∀ k d, σ k ≠ .rst d) (h0 : Live (ρ 0))
    (k : Nat) : Live (ρ k) :=
  h.keeps (P := Live) (fun _ ts hl => hl.setTurns ts)
    (fun k hl => hl.step (fun d _ ht => hrst k d (List.cons.inj ht).1) (h k)) h0 k

/-- Settles O21: the flag is a function of the number of records, and the records go on, line by line in the first run (`Live.lines`) and by
fairness in the second (`FairRun.next_record`). -/
theorem gateOpensWithinOneFrame : Obligations.GateOpensWithinOneFrame := by
  refine ⟨fun s hw hp hrun hb heng hsig hrec hret => ?_, fun σ ρ h hfair hrst hp hrun heng hsig hrec hret => ?_⟩
  · exact (Live.mk hw hp hrun heng hsig hrec hret).lines_to_flag hb
  · exact (FairRun.mk h hfair (h.live hrst ⟨h.wf 0, hp, hrun, heng, hsig, hrec, hret⟩)).reaches_flag

end Sys2Proof.Machine
